-- ==== Sys2Proof/Word.lean ====
section
/-! DEFINITION. The words, bytes, bit strings and texts of the spec's own vocabulary (00_scope.md R6, R7, R11). -/

namespace Sys2Proof

/-- A bus word: 32 bits (00_scope.md R5, BUS_BITS). -/
abbrev Word := BitVec 32

/-- One character of a text buffer, any value 0x00 to 0xFF (10_state.md R38). -/
abbrev Byte := BitVec 8

/-- A bit string, index 0 the first and most significant bit (00_scope.md R6). -/
abbrev BitString := List Bool

/-- A text: a finite sequence of bytes, index 0 first (00_scope.md R11). -/
abbrev Text := List Byte

/-- `zeros(n)` (00_scope.md R7). -/
def zeros (n : Nat) : BitString := List.replicate n false

/-- `s[a..b)`: bits `a` to `b-1` (00_scope.md R7). -/
def slice (s : BitString) (a b : Nat) : BitString := (s.drop a).take (b - a)

end Sys2Proof
end

