-- ==== Sys2Proof/Syntax.lean ====
section
/-! DEFINITION. The nine commands of the block, one constructor per row of spec/opcode_table.json (30_encoding.md R93).
A command word carries no operand (30_encoding.md R95), so no constructor has an argument. -/

namespace Sys2Proof

/-- The commands of 30_encoding.md R93. -/
inductive Instr where
  /-- INT_ENC (40_integer.md R111). -/
  | intEnc
  /-- INT_DEC (40_integer.md R112). -/
  | intDec
  /-- STR_ENC (41_string.md R134). -/
  | strEnc
  /-- STR_DEC (41_string.md R136). -/
  | strDec
  /-- STR_URLENC (41_string.md R138). -/
  | strUrlenc
  /-- PART_ENC (42_partition.md R161). -/
  | partEnc
  /-- PART_DEC (42_partition.md R165). -/
  | partDec
  /-- SPART_ENC (42_partition.md R171). -/
  | spartEnc
  /-- SPART_DEC (42_partition.md R172). -/
  | spartDec
  deriving DecidableEq, Repr

end Sys2Proof
end

