-- ==== Sys2Proof/Decode.lean ====
section
/-! DEFINITION. The command decoder of 30_encoding.md R90 to R96, total on 32-bit words and rejecting by name, and after it the
encoder of R93. A command is one whole 32-bit word written to CMD (R90), so there is no byte order and no length to find. -/

namespace Sys2Proof

/-- Why a command word names no command (60_exceptions.md R206). -/
inductive DecodeError where
  /-- Bits [31:8] are not all zero (30_encoding.md R91). -/
  | sbzBits
  /-- OPC is none of the nine of 30_encoding.md R93 (R94). -/
  | badOpcode
  deriving DecidableEq, Repr

/-- The opcode map of 30_encoding.md R93: OPC, bits [7:0] of the command word, and the command it names. -/
def opcodeMap : List (BitVec 8 × Instr) :=
  [(0x10, .intEnc), (0x11, .intDec), (0x20, .strEnc), (0x21, .strDec), (0x22, .strUrlenc),
   (0x30, .partEnc), (0x31, .partDec), (0x38, .spartEnc), (0x39, .spartDec)]

/-- The field OPC, bits [7:0] (30_encoding.md R90). -/
def opcField (w : Word) : BitVec 8 := w.extractLsb' 0 8

/-- The field SBZ, bits [31:8] (30_encoding.md R90). -/
def sbzField (w : Word) : BitVec 24 := w.extractLsb' 8 24

/-- Dispatch of 30_encoding.md R96: the SBZ bits are checked before OPC. -/
def decode (w : Word) : Except DecodeError Instr :=
  if sbzField w ≠ 0 then .error .sbzBits
  else
    match opcodeMap.lookup (opcField w) with
    | some i => .ok i
    | none => .error .badOpcode

/-- The decoder on a word numbered as spec/opcode_table.json numbers it; every bit above `nbits` is 0, and there is no command
longer than 32 bits (30_encoding.md R90). -/
def decodeTableWord (nbits w : Nat) : Option Instr :=
  if nbits ≤ 32 then
    match decode (BitVec.ofNat 32 (w % 2 ^ nbits)) with
    | .ok i => some i
    | .error _ => none
  else none

/-- The command words of 30_encoding.md R93. -/
def encode : Instr → Word
  | .intEnc => 0x00000010
  | .intDec => 0x00000011
  | .strEnc => 0x00000020
  | .strDec => 0x00000021
  | .strUrlenc => 0x00000022
  | .partEnc => 0x00000030
  | .partDec => 0x00000031
  | .spartEnc => 0x00000038
  | .spartDec => 0x00000039

end Sys2Proof
end

