-- ==== Sys2Proof/Machine/Types.lean ====
section
/-! DEFINITION. The types of the register window (10_state.md R21), of host accesses (20_memory.md R60), of what a host and
the platform may do (30_encoding.md R99, R100; 70_reset_and_hazards.md R230) and of the error report (60_exceptions.md R201, R202). -/

namespace Sys2Proof.Machine

/-- The words of the register window, by name (10_state.md R21). `NAME[k]` of a multi-word register carries its index `k`. -/
inductive RegWord where
  | id | param | cmd | status | errinfo | widthC | widthD | offset | pctl | vneg | blen | clen | ulen
  | valC (k : Fin 8)
  | valD (k : Fin 8)
  | buf (k : Fin 8)
  | cbuf (k : Fin 9)
  | ubuf (k : Fin 27)
  deriving DecidableEq, Repr

/-- The size of a host access: 1, 2 or 4 bytes (20_memory.md R60). -/
inductive Size where
  | byte | half | word
  deriving DecidableEq, Repr

/-- The `8n`-bit value of a host write of `n` bytes (20_memory.md R60). -/
inductive WriteData where
  | byte (v : BitVec 8)
  | half (v : BitVec 16)
  | word (v : Word)
  deriving DecidableEq, Repr

/-- A host access at a byte offset 0x000 to 0xFFF of the window (20_memory.md R60). -/
inductive Access where
  /-- `BusRead(off, n)`. -/
  | read (off : BitVec 12) (n : Size)
  /-- `BusWrite(off, n, v)`. -/
  | write (off : BitVec 12) (v : WriteData)
  deriving DecidableEq, Repr

/-- What an admitted access does: it reads or writes one 32-bit word of the window (20_memory.md R61, R71). -/
inductive Transfer where
  | read (r : RegWord)
  | write (r : RegWord) (v : Word)
  deriving DecidableEq, Repr

/-- One operation of the host's program: an access, or the WAIT loop that polls STATUS until BUSY = 0 (30_encoding.md R100). -/
inductive HostOp where
  | access (a : Access)
  | wait
  deriving DecidableEq, Repr

/-- What the world outside the block does next: a host agent's operation (00_scope.md R13) or the platform's reset
(70_reset_and_hazards.md R230), which may cut off one access in progress (R232). -/
inductive Input where
  | host (agent : Nat) (op : HostOp)
  | reset (cut : Option Access)
  deriving DecidableEq, Repr

/-- What the host sees of one access. -/
inductive Response where
  /-- The data of an admitted read (20_memory.md R67). -/
  | data (w : Word)
  /-- A write that completes without a bus error, accepted or dropped (20_memory.md R68, R69). -/
  | written
  /-- The bus error response of an access that is not admitted (20_memory.md R62). -/
  | busError
  /-- An access that a reset cut off and the platform's bus discarded (70_reset_and_hazards.md R232). -/
  | discarded
  deriving DecidableEq, Repr

/-- The sub-causes 1 to 12 of a command error (60_exceptions.md R202). -/
inductive SubCause where
  | negative | tooWide | tooLong | widthRange | sliceRange | blenRange | clenRange
  | badChar | badGroup | partialGroup | badOpcode | sbzBits
  deriving DecidableEq, Repr

/-- ERRINFO.FIELD: which operand an error is about (10_state.md R27). -/
inductive ErrField where
  /-- 0: none, or the command as a whole. -/
  | whole
  /-- 1: the c operand or the single operand. -/
  | c
  /-- 2: the d operand. -/
  | d
  deriving DecidableEq, Repr

/-- A raised command error `E(sub, field, index)` (00_scope.md R12). -/
structure CmdError where
  sub : SubCause
  field : ErrField
  index : Nat
  deriving DecidableEq, Repr

/-- The value register a host pseudo-instruction names. -/
inductive ValReg where
  | c | d
  deriving DecidableEq, Repr

/-- One line of the host's assembly: an access by register name (30_encoding.md R99) or a pseudo-instruction (R100). -/
inductive HostLine where
  /-- `WR NAME, imm32`. -/
  | wr (r : RegWord) (imm : Word)
  /-- `RD NAME`. -/
  | rd (r : RegWord)
  /-- `ISSUE mnemonic`. -/
  | issue (i : Instr)
  /-- `WAIT`. -/
  | wait
  /-- `LDVAL C, v` or `LDVAL D, v`. -/
  | ldval (reg : ValReg) (v : Nat)
  /-- `LDBITS "s"`. -/
  | ldbits (s : BitString)
  /-- `LDTEXT "t"`. -/
  | ldtext (t : Text)
  /-- `LDPCTL pv, cdig, ddig`. -/
  | ldpctl (pv cdig ddig : Nat)
  deriving DecidableEq, Repr

end Sys2Proof.Machine
end

