-- ==== Sys2Proof/Machine/State.lean ====
section
/-! DEFINITION. The state of the block, exactly the registers of 10_state.md R21 and the latch PENDING of R42 (R20), beside
the model's own fields for the host agent, the platform and the open parameter LAT. All of it is plain data. ID and PARAM are
constants (R22, R23): no state holds them, reading the window gives them (Window.lean). -/

namespace Sys2Proof.Machine

/-- The fields of STATUS (10_state.md R25). Bits 3 and [31:9] read as zero (R43) and are not held. -/
structure Status where
  busy : Bool
  done : Bool
  err : Bool
  errcode : BitVec 4
  coll : Bool
  deriving DecidableEq, Repr

/-- The fields of ERRINFO (10_state.md R27); bits [7:6] and [31:16] read as zero (R43). -/
structure ErrInfo where
  sub : BitVec 4
  field : BitVec 2
  index : BitVec 8
  deriving DecidableEq, Repr

/-- The fields of PCTL (10_state.md R31). -/
structure Pctl where
  pv : BitVec 3
  cdig : BitVec 5
  ddig : BitVec 5
  deriving DecidableEq, Repr

/-- The fields of VNEG (10_state.md R32). -/
structure Vneg where
  negC : Bool
  negD : Bool
  deriving DecidableEq, Repr

/-- The architectural state of the block (10_state.md R20): the registers of R21 and PENDING (R42). -/
structure Block where
  /-- CMD, the last command word written while idle, all 32 bits (R24). -/
  cmd : Word
  /-- STATUS (R25). -/
  status : Status
  /-- ERRINFO (R27). -/
  errinfo : ErrInfo
  /-- WIDTH_C (R28). -/
  widthC : BitVec 9
  /-- WIDTH_D (R29). -/
  widthD : BitVec 9
  /-- OFFSET (R30). -/
  offset : BitVec 9
  /-- PCTL (R31). -/
  pctl : Pctl
  /-- VNEG (R32). -/
  vneg : Vneg
  /-- BLEN (R35). -/
  blen : BitVec 9
  /-- CLEN (R37). -/
  clen : BitVec 8
  /-- ULEN (R39). -/
  ulen : BitVec 8
  /-- VAL_C, a 256-bit magnitude (R33). -/
  valC : BitVec 256
  /-- VAL_D, a 256-bit magnitude (R34). -/
  valD : BitVec 256
  /-- BUF, a string of 256 bits; bit `i` of the string is the `i`-th bit from the left (R36, 20_memory.md R64). -/
  buf : BitVec 256
  /-- CBUF, a text of 36 bytes (R38). -/
  cbuf : Vector Byte 36
  /-- UBUF, a text of 108 bytes (R40). -/
  ubuf : Vector Byte 108
  /-- PENDING: no command, or the command word that waits for its completion (R42). -/
  pending : Option Word
  deriving DecidableEq, Repr

/-- The whole machine: the block, and the model's own fields for what stands around it. -/
structure State where
  /-- The block itself. -/
  block : Block
  /-- MODEL: what the host and the platform will still do, in order (00_scope.md R13, 20_memory.md R75). The platform is assumed to deliver
  the host's accesses one by one, in program order, neither merged nor cached (92_eei_decisions.md D29; log entry 12). -/
  inputs : List Input
  /-- MODEL: what the host has seen, oldest first, one entry per access (20_memory.md R62, R67). -/
  responses : List Response
  /-- MODEL: the one host agent that drives the block, once it has made an access (60_exceptions.md R217). -/
  hostAgent : Option Nat
  /-- MODEL: LAT of the next commands, where it is given as an argument (00_scope.md R5); past its end LAT is free. -/
  latencies : List Nat
  /-- MODEL: how many host accesses may still come before the pending command's completion (10_state.md R45). -/
  latLeft : Nat
  /-- MODEL: how many free values have been drawn from Config; each draw is a fresh one. -/
  draws : Nat
  deriving DecidableEq, Repr

/-- Faults of a host access. -/
inductive Fault where
  /-- `raise BusError` (20_memory.md R62): raised by `busAccess` for an access that is not admitted. Safe: the access changes
  nothing, and the step hands the host the bus error response that R62 describes (log entry 2). -/
  | busError (a : Access)
  deriving DecidableEq, Repr

/-- Refusals of a step. -/
inductive Refusal where
  /-- Raised by `exec` for an instruction that has no meaning yet. Safe: nothing is said of it. No arm uses it. -/
  | notModelled (mnemonic : String)
  /-- Raised by `inputStep` when an access comes from a second host agent, a run the spec tells a model to refuse
  (60_exceptions.md R217; 93_implementation_defined.md U1). Safe: no outcome is claimed for it. -/
  | secondHost (agent : Nat)
  deriving DecidableEq, Repr

/-- The reset state of the block (70_reset_and_hazards.md R231). -/
def Block.reset : Block where
  cmd := 0
  status := { busy := false, done := false, err := false, errcode := 0, coll := false }
  errinfo := { sub := 0, field := 0, index := 0 }
  widthC := 0
  widthD := 0
  offset := 0
  pctl := { pv := 0, cdig := 0, ddig := 0 }
  vneg := { negC := false, negD := false }
  blen := 0
  clen := 0
  ulen := 0
  valC := 0
  valD := 0
  buf := 0
  cbuf := Vector.replicate 36 0
  ubuf := Vector.replicate 108 0
  pending := none

/-- The machine right after reset: the block in its reset state (70_reset_and_hazards.md R231) and a host that has done nothing
and has nothing to do (log entry 10). The block fetches no program (20_memory.md R79), so none is there (log entry 3). -/
def State.reset : State where
  block := Block.reset
  inputs := []
  responses := []
  hostAgent := none
  latencies := []
  latLeft := 0
  draws := 0

end Sys2Proof.Machine
end

