-- ==== Sys2Proof/Machine/Flags.lean ====
section
/-! DEFINITION. The STATUS bits and ERRINFO, the block's only flags (10_state.md R26): what an issue, a successful completion and
an error report write there, and the codes of 60_exceptions.md R201 and R202. -/

namespace Sys2Proof.Machine

/-- ERRINFO.SUB of a sub-cause (60_exceptions.md R202). -/
def SubCause.number : SubCause → BitVec 4
  | .negative => 1
  | .tooWide => 2
  | .tooLong => 3
  | .widthRange => 4
  | .sliceRange => 5
  | .blenRange => 6
  | .clenRange => 7
  | .badChar => 8
  | .badGroup => 9
  | .partialGroup => 10
  | .badOpcode => 11
  | .sbzBits => 12

/-- STATUS.ERRCODE of a sub-cause: 1 InvalidArgument, 2 InvalidCharacter, 3 IllegalCommand (60_exceptions.md R201, R202). -/
def SubCause.errcode : SubCause → BitVec 4
  | .negative => 1
  | .tooWide => 1
  | .tooLong => 1
  | .widthRange => 1
  | .sliceRange => 1
  | .blenRange => 1
  | .clenRange => 1
  | .badChar => 2
  | .badGroup => 2
  | .partialGroup => 2
  | .badOpcode => 3
  | .sbzBits => 3

/-- ERRINFO.FIELD of an operand (10_state.md R27). -/
def ErrField.number : ErrField → BitVec 2
  | .whole => 0
  | .c => 1
  | .d => 2

/-- ERRINFO after a command that succeeded and from an issue to its completion (10_state.md R27). -/
def noError : ErrInfo := { sub := 0, field := 0, index := 0 }

/-- ERRINFO of a raised error (60_exceptions.md R203). -/
def CmdError.report (e : CmdError) : ErrInfo :=
  { sub := e.sub.number, field := e.field.number, index := BitVec.ofNat 8 e.index }

/-- STATUS after an issue (10_state.md R44); COLL is kept (R25). -/
def issuedStatus (s : Status) : Status := { busy := true, done := false, err := false, errcode := 0, coll := s.coll }

/-- STATUS after a completion that succeeded (10_state.md R26, R45); COLL is kept (R25). -/
def successStatus (s : Status) : Status := { busy := false, done := true, err := false, errcode := 0, coll := s.coll }

/-- STATUS after a completion that raised an error (10_state.md R45, 60_exceptions.md R203); COLL is kept (10_state.md R25). -/
def errorStatus (s : Status) (e : CmdError) : Status :=
  { busy := false, done := true, err := true, errcode := e.sub.errcode, coll := s.coll }

end Sys2Proof.Machine
end

