-- ==== Sys2Proof/Config.lean ====
section
/-! DEFINITION. What an implementation fixes (00_scope.md R5) and what the spec leaves open (93_implementation_defined.md U3, U6).
The capacities are the decided values of this hardware; the three opaque constants are free: nothing can evaluate them. -/

namespace Sys2Proof.Config

/-- BUF_BITS, the capacity of BUF in bits and the largest width (00_scope.md R5; decision D2). -/
abbrev bufBits : Nat := 256

/-- MAX_CHARS, the capacity of CBUF in characters (00_scope.md R5; decision D2). -/
abbrev maxChars : Nat := 36

/-- UBUF_CHARS, the capacity of UBUF in characters (00_scope.md R5; decision D2). -/
abbrev ubufChars : Nat := 108

/-- PARTITION_BITS (00_scope.md R5). -/
abbrev partitionBits : Nat := 3

/-- GROUP_BITS, the width of one character code (00_scope.md R5). -/
abbrev groupBits : Nat := 7

/-- LAT for the command issued at the given draw: any finite number of host accesses between its issue and its completion,
chosen afresh at each command (00_scope.md R5, 70_reset_and_hazards.md R250; OPEN, log entry 1). -/
opaque lat : Nat → Nat

/-- Whether the platform's bus completes (rather than discards) a host access that a reset cuts off
(70_reset_and_hazards.md R232; U6, log entry 6). -/
opaque cutOffCompletes : Nat → Bool

/-- The data a read returns when a reset cuts it off and the bus completes it: any value
(93_implementation_defined.md U6, log entry 6). -/
opaque cutOffRead : Nat → Word

end Sys2Proof.Config
end

