-- ==== Sys2Proof/Machine/BitString.lean ====
section
/-! DEFINITION. Integers and bit strings: `bitlen`, `enc`, `val` (00_scope.md R8 to R10), and BUF as a string (20_memory.md R64). -/

namespace Sys2Proof.Machine

/-- `bitlen(v)`: the least `n` with `v < 2^n`; `bitlen(0) = 0` (00_scope.md R8). -/
def bitlen (v : Nat) : Nat := if v = 0 then 0 else v.log2 + 1

/-- `enc(v, w)`: the `w` binary digits of `v`, most significant first (00_scope.md R9). -/
def enc (v w : Nat) : BitString := (List.range w).map fun i => v.testBit (w - 1 - i)

/-- `val(s)`: the unsigned integer a bit string spells; `val(ε) = 0` (00_scope.md R10). -/
def val (s : BitString) : Nat := s.foldl (fun n b => 2 * n + b.toNat) 0

/-- `reg(BUF)` as the whole string: bit `i` of the string is bit `31 - (i mod 32)` of word `i div 32` (20_memory.md R64), so the
string is the 256 binary digits of the register, most significant first. -/
def bufString (b : BitVec 256) : BitString := enc b.toNat Config.bufBits

/-- The BUF register that holds a string of BUF_BITS bits (20_memory.md R64). -/
def bufOfString (s : BitString) : BitVec 256 := BitVec.ofNat 256 (val s)

end Sys2Proof.Machine
end

