-- ==== Sys2Proof/Machine/Text.lean ====
section
/-! DEFINITION. The alphabet, its codes and its escapes (41_string.md R130 to R132) and the functions `senc`, `sdec`, `uenc`
(R133, R135, R137). -/

namespace Sys2Proof.Machine

/-- The eight values from 0x21 to 0x7A that are outside the alphabet (41_string.md R130). -/
def excludedCodes : List Nat := [0x23, 0x24, 0x40, 0x5B, 0x5C, 0x5D, 0x5E, 0x60]

/-- `x ∈ A`: `x` is the byte value of one of the 82 characters (41_string.md R130; 90_conflicts.md C1). -/
def inAlphabet (x : Nat) : Bool := decide (0x21 ≤ x) && decide (x ≤ 0x7A) && !excludedCodes.contains x

/-- The reserved subset `R`: the seven characters that are escaped (41_string.md R132). -/
def reservedCodes : List Nat := [0x22, 0x25, 0x26, 0x2F, 0x3C, 0x3E, 0x3F]

/-- `code(ch) = enc(ch, 7)` (41_string.md R131). -/
def charCode (ch : Byte) : BitString := enc ch.toNat Config.groupBits

/-- `senc(t, w)`: the codes of the text, right-padded with zeros to `w` bits (41_string.md R133). -/
def senc (t : Text) (w : Nat) : BitString := t.flatMap charCode ++ zeros (w - Config.groupBits * t.length)

/-- The loop of `sdec` from group `g` on, `s` being the bits not yet read (41_string.md R135). The first argument bounds the
number of groups; `sdec` gives it the length of the string, which no loop reaches. -/
def sdecLoop (f : ErrField) : Nat → BitString → Nat → Except CmdError Text
  | 0, _, _ => .ok []
  | fuel + 1, s, g =>
    if s = [] then .ok []
    else
      let group := s.take Config.groupBits
      if val group = 0 then .ok []
      else if group.length < Config.groupBits then .error ⟨.partialGroup, f, g⟩
      else if inAlphabet (val group) = false then .error ⟨.badGroup, f, g⟩
      else
        match sdecLoop f fuel (s.drop Config.groupBits) (g + 1) with
        | .ok t => .ok (BitVec.ofNat 8 (val group) :: t)
        | .error e => .error e

/-- `sdec(s, f)`: the text a string of 7-bit groups spells, up to its sentinel (41_string.md R135). -/
def sdec (s : BitString) (f : ErrField) : Except CmdError Text := sdecLoop f s.length s 0

/-- `H(d)`: an upper-case hexadecimal digit (41_string.md R132). -/
def hexDigit (d : Nat) : Byte := if d < 10 then BitVec.ofNat 8 (0x30 + d) else BitVec.ofNat 8 (0x41 + (d - 10))

/-- `e(ch)`: the three-character escape of a reserved character, any other character itself (41_string.md R132, R137). -/
def escapeChar (ch : Byte) : Text :=
  if reservedCodes.contains ch.toNat then [0x25, hexDigit (ch.toNat / 16), hexDigit (ch.toNat % 16)] else [ch]

/-- `uenc(t)` (41_string.md R137). -/
def uenc (t : Text) : Text := t.flatMap escapeChar

/-- The index of the first character of a text outside the alphabet, if there is one (41_string.md R134, R138). -/
def firstBadChar (t : Text) : Option Nat := t.findIdx? fun ch => !inAlphabet ch.toNat

/-- A text followed by as many 0x00 bytes as fill a buffer of `n` characters (41_string.md R136, R138). -/
def padText (n : Nat) (t : Text) : Vector Byte n := Vector.ofFn fun j => t.getD j.val 0

end Sys2Proof.Machine
end

