-- ==== Sys2Proof/Machine/Operands.lean ====
section
/-! DEFINITION. How a command reads its operands from the registers (30_encoding.md R95) and the checks it makes of them, each with
the error it raises (60_exceptions.md R202), shared by the commands. Every width, offset and length is unsigned and
zero-extended (R95). -/

namespace Sys2Proof.Machine

/-- The input bit string of a decode command, `reg(BUF)[0..n)` with `n` = BLEN (10_state.md R35; decision D32). -/
def Block.inputBits (b : Block) : BitString := slice (bufString b.buf) 0 b.blen.toNat

/-- The input text of a command, `reg(CBUF)[0..m)` with `m` = CLEN (10_state.md R37). -/
def Block.inputText (b : Block) : Text := b.cbuf.toList.take b.clen.toNat

/-- IntegerCodec.encode of a value with its sign in a field of `w` bits: sub-cause 1 for a negative value, then sub-cause 2 for one
wider than its field, then its digits (40_integer.md R111; 42_partition.md R161). -/
def encodeInt (neg : Bool) (v w : Nat) (f : ErrField) : Except CmdError BitString :=
  if neg = true then .error ⟨.negative, f, 0⟩
  else if bitlen v > w then .error ⟨.tooWide, f, 0⟩
  else .ok (enc v w)

/-- StringCodec.encode of a text in a field of `w` bits: sub-cause 8 for its first character outside the alphabet, then sub-cause 3
for a text too long, then its groups (41_string.md R134; 42_partition.md R171). -/
def encodeText (t : Text) (w : Nat) (f : ErrField) : Except CmdError BitString :=
  match firstBadChar t with
  | some j => .error ⟨.badChar, f, j⟩
  | none =>
    if Config.groupBits * t.length > w then .error ⟨.tooLong, f, 0⟩
    else .ok (senc t w)

/-- An integer field of a partition-coded field: forced to 0 before any check when its declared digit count is 0
(42_partition.md R161, R162). -/
def encodeIntField (digits : BitVec 5) (neg : Bool) (v w : Nat) (f : ErrField) : Except CmdError BitString :=
  if digits = 0 then .ok (enc 0 w) else encodeInt neg v w f

/-- A text field of a partition-coded field: forced to the empty text before any check when its declared digit count is 0
(42_partition.md R162, R171). -/
def encodeTextField (digits : BitVec 5) (t : Text) (w : Nat) (f : ErrField) : Except CmdError BitString :=
  if digits = 0 then .ok (senc [] w) else encodeText t w f

end Sys2Proof.Machine
end

