-- ==== Sys2Proof/Machine/Window.lean ====
section
/-! DEFINITION. The register window: the offset of every word (10_state.md R21), which accesses are admitted (20_memory.md R61),
what a read of a word gives (R67) and what an accepted write of it stores (R68). -/

namespace Sys2Proof.Machine

/-- The byte offset of a word of the window (10_state.md R21). -/
def RegWord.byteOffset : RegWord → Nat
  | .id => 0x000
  | .param => 0x004
  | .cmd => 0x008
  | .status => 0x00C
  | .errinfo => 0x010
  | .widthC => 0x014
  | .widthD => 0x018
  | .offset => 0x01C
  | .pctl => 0x020
  | .vneg => 0x024
  | .blen => 0x028
  | .clen => 0x02C
  | .ulen => 0x030
  | .valC k => 0x040 + 4 * k.val
  | .valD k => 0x060 + 4 * k.val
  | .buf k => 0x100 + 4 * k.val
  | .cbuf k => 0x200 + 4 * k.val
  | .ubuf k => 0x300 + 4 * k.val

/-- The read-only words: ID, PARAM, ERRINFO, ULEN and UBUF (10_state.md R21, 20_memory.md R70). -/
def RegWord.readOnly : RegWord → Bool
  | .id => true
  | .param => true
  | .cmd => false
  | .status => false
  | .errinfo => true
  | .widthC => false
  | .widthD => false
  | .offset => false
  | .pctl => false
  | .vneg => false
  | .blen => false
  | .clen => false
  | .ulen => true
  | .valC _ => false
  | .valD _ => false
  | .buf _ => false
  | .cbuf _ => false
  | .ubuf _ => true

/-- The word a byte offset is the offset of, none for an unmapped or misaligned offset (10_state.md R21, 20_memory.md R61). -/
def regWordAt (off : Nat) : Option RegWord :=
  if off % 4 ≠ 0 then none
  else if off < 0x040 then
    [RegWord.id, .param, .cmd, .status, .errinfo, .widthC, .widthD, .offset, .pctl, .vneg, .blen, .clen, .ulen][off / 4]?
  else if h : off < 0x060 then some (.valC ⟨(off - 0x040) / 4, by omega⟩)
  else if h : off < 0x080 then some (.valD ⟨(off - 0x060) / 4, by omega⟩)
  else if off < 0x100 then none
  else if h : off < 0x120 then some (.buf ⟨(off - 0x100) / 4, by omega⟩)
  else if off < 0x200 then none
  else if h : off < 0x224 then some (.cbuf ⟨(off - 0x200) / 4, by omega⟩)
  else if off < 0x300 then none
  else if h : off < 0x36C then some (.ubuf ⟨(off - 0x300) / 4, by omega⟩)
  else none

/-- The transfer an admitted access makes; none for an access that is not admitted (20_memory.md R61). -/
def admittedTransfer : Access → Option Transfer
  | .read off .word => (regWordAt off.toNat).map .read
  | .read _ _ => none
  | .write off (.word v) =>
    match regWordAt off.toNat with
    | some r => if r.readOnly then none else some (.write r v)
    | none => none
  | .write _ _ => none

/-- STATUS as a word (10_state.md R21, R25). -/
def Status.toWord (s : Status) : Word :=
  (BitVec.ofBool s.coll).zeroExtend 32 <<< 8 ||| s.errcode.zeroExtend 32 <<< 4 ||| (BitVec.ofBool s.err).zeroExtend 32 <<< 2
    ||| (BitVec.ofBool s.done).zeroExtend 32 <<< 1 ||| (BitVec.ofBool s.busy).zeroExtend 32

/-- ERRINFO as a word (10_state.md R21, R27). -/
def ErrInfo.toWord (e : ErrInfo) : Word :=
  e.index.zeroExtend 32 <<< 8 ||| e.field.zeroExtend 32 <<< 4 ||| e.sub.zeroExtend 32

/-- PCTL as a word (10_state.md R21, R31). -/
def Pctl.toWord (p : Pctl) : Word :=
  p.ddig.zeroExtend 32 <<< 16 ||| p.cdig.zeroExtend 32 <<< 8 ||| p.pv.zeroExtend 32

/-- VNEG as a word (10_state.md R21, R32). -/
def Vneg.toWord (n : Vneg) : Word :=
  (BitVec.ofBool n.negD).zeroExtend 32 <<< 1 ||| (BitVec.ofBool n.negC).zeroExtend 32

/-- Word `k` of a value register, bits [32k+31:32k] of the magnitude (20_memory.md R65). -/
def valueWord (v : BitVec 256) (k : Fin 8) : Word := v.extractLsb' (32 * k.val) 32

/-- Word `k` of BUF, bits `32k` to `32k+31` of the string, the first the most significant (20_memory.md R64). -/
def bufWord (v : BitVec 256) (k : Fin 8) : Word := v.extractLsb' (224 - 32 * k.val) 32

/-- Word `k` of a character buffer: character `4k+i` is bits [8i+7:8i] (20_memory.md R63, R66). -/
def textWord {n : Nat} (t : Vector Byte n) (k : Nat) : Word :=
  t.toList.getD (4 * k + 3) 0 ++ t.toList.getD (4 * k + 2) 0 ++ t.toList.getD (4 * k + 1) 0 ++ t.toList.getD (4 * k) 0

/-- The word an admitted read returns, every reserved bit 0 (20_memory.md R67, 10_state.md R43). -/
def readWord (b : Block) : RegWord → Word
  | .id => 0x45504301
  | .param => BitVec.ofNat 32 (Config.bufBits + Config.maxChars * 2 ^ 16)
  | .cmd => b.cmd
  | .status => b.status.toWord
  | .errinfo => b.errinfo.toWord
  | .widthC => b.widthC.zeroExtend 32
  | .widthD => b.widthD.zeroExtend 32
  | .offset => b.offset.zeroExtend 32
  | .pctl => b.pctl.toWord
  | .vneg => b.vneg.toWord
  | .blen => b.blen.zeroExtend 32
  | .clen => b.clen.zeroExtend 32
  | .ulen => b.ulen.zeroExtend 32
  | .valC k => valueWord b.valC k
  | .valD k => valueWord b.valD k
  | .buf k => bufWord b.buf k
  | .cbuf k => textWord b.cbuf k.val
  | .ubuf k => textWord b.ubuf k.val

/-- A 256-bit register with the 32 bits from bit `lo` on replaced by `v`. -/
def spliceWord (old : BitVec 256) (lo : Nat) (v : Word) : BitVec 256 :=
  (old &&& ~~~((0xFFFFFFFF : BitVec 256) <<< lo)) ||| v.zeroExtend 256 <<< lo

/-- A value register after a write of its word `k` (20_memory.md R65, R71). -/
def setValueWord (old : BitVec 256) (k : Fin 8) (v : Word) : BitVec 256 := spliceWord old (32 * k.val) v

/-- BUF after a write of its word `k` (20_memory.md R64, R71). -/
def setBufWord (old : BitVec 256) (k : Fin 8) (v : Word) : BitVec 256 := spliceWord old (224 - 32 * k.val) v

/-- CBUF after a write of its word `k` (20_memory.md R66, R71). -/
def setTextWord (old : Vector Byte 36) (k : Fin 9) (v : Word) : Vector Byte 36 :=
  Vector.ofFn fun j => if j.val / 4 = k.val then v.extractLsb' (8 * (j.val % 4)) 8 else old[j]

/-- STATUS after an admitted write of the word `v`: only COLL can change, cleared by bit 8 (10_state.md R25). -/
def writeStatus (s : Status) (v : Word) : Status := { s with coll := s.coll && !v.getLsbD 8 }

/-- The block after a write of the word `v` is stored while no command is pending: the bits of the word's writable fields, its
reserved bits ignored (20_memory.md R68, 10_state.md R43). A write of CMD is an issue and not a store (10_state.md R44), and a
read-only word is never stored (20_memory.md R70). -/
def storeWord (b : Block) (v : Word) : RegWord → Block
  | .id => b
  | .param => b
  | .cmd => b
  | .status => { b with status := writeStatus b.status v }
  | .errinfo => b
  | .widthC => { b with widthC := v.extractLsb' 0 9 }
  | .widthD => { b with widthD := v.extractLsb' 0 9 }
  | .offset => { b with offset := v.extractLsb' 0 9 }
  | .pctl => { b with pctl := { pv := v.extractLsb' 0 3, cdig := v.extractLsb' 8 5, ddig := v.extractLsb' 16 5 } }
  | .vneg => { b with vneg := { negC := v.getLsbD 0, negD := v.getLsbD 1 } }
  | .blen => { b with blen := v.extractLsb' 0 9 }
  | .clen => { b with clen := v.extractLsb' 0 8 }
  | .ulen => b
  | .valC k => { b with valC := setValueWord b.valC k v }
  | .valD k => { b with valD := setValueWord b.valD k v }
  | .buf k => { b with buf := setBufWord b.buf k v }
  | .cbuf k => { b with cbuf := setTextWord b.cbuf k v }
  | .ubuf _ => b

end Sys2Proof.Machine
end

