-- ==== Sys2Proof/Machine/Ops.lean ====
section
/-! DEFINITION. The named operations: the writes of a command's `commit` block, the completion of a command (10_state.md R45) with its
error report (60_exceptions.md R203), the issue of a command (10_state.md R44), the host's accesses (20_memory.md R61 to R69) and
reset (70_reset_and_hazards.md R230). -/

namespace Sys2Proof.Machine

/-! ## The writes of a commit block -/

/-- `reg(BUF) <- s ‖ zeros(BUF_BITS - n)`, `reg(BLEN) <- n` (40_integer.md R111; decision D27). -/
def Block.commitBits (b : Block) (s : BitString) (n : Nat) : Block :=
  { b with buf := bufOfString (s ++ zeros (Config.bufBits - n)), blen := BitVec.ofNat 9 n }

/-- `reg(VAL_C) <- v`, `reg(VNEG.NEG_C) <- 0` (40_integer.md R112). -/
def Block.commitValC (b : Block) (v : Nat) : Block :=
  { b with valC := BitVec.ofNat 256 v, vneg := { b.vneg with negC := false } }

/-- `reg(VAL_D) <- v`, `reg(VNEG.NEG_D) <- 0` (42_partition.md R165). -/
def Block.commitValD (b : Block) (v : Nat) : Block :=
  { b with valD := BitVec.ofNat 256 v, vneg := { b.vneg with negD := false } }

/-- `reg(CBUF) <- t ‖ 0x00 bytes`, `reg(CLEN) <- len(t)` (41_string.md R136; decision D27). -/
def Block.commitText (b : Block) (t : Text) : Block :=
  { b with cbuf := padText Config.maxChars t, clen := BitVec.ofNat 8 t.length }

/-- `reg(UBUF) <- u ‖ 0x00 bytes`, `reg(ULEN) <- len(u)` (41_string.md R138; decision D27). -/
def Block.commitUri (b : Block) (u : Text) : Block :=
  { b with ubuf := padText Config.ubufChars u, ulen := BitVec.ofNat 8 u.length }

/-! ## Completion and the error report -/

/-- The block after a completion that succeeded, `b` holding the results already (10_state.md R26, R45). ERR, ERRCODE and ERRINFO are
written to 0, as R26 and R27 say of a command that succeeded (log entry 4). -/
def Block.succeed (b : Block) : Block := { b with status := successStatus b.status, errinfo := noError, pending := none }

/-- Taking an error: STATUS, ERRINFO and PENDING are written and nothing else, no result register among it
(60_exceptions.md R203, R207). There is no return from it (R208): the next issue clears the report. -/
def Block.raiseError (b : Block) (e : CmdError) : Block :=
  { b with status := errorStatus b.status e, errinfo := e.report, pending := none }

/-- The block after the completion of a command whose evaluation gave `r`: all of its results or one error (10_state.md R45,
60_exceptions.md R204). -/
def Block.complete (b : Block) (r : Except CmdError Block) : Block :=
  match r with
  | .ok b' => b'.succeed
  | .error e => b.raiseError e

/-- The completion step of a command with the evaluation `eval` (10_state.md R45): one indivisible update of the block, which
touches nothing around it. -/
def completeWith (eval : Block → Except CmdError Block) (s : State) : Host.Outcome State Fault Refusal :=
  .next { s with block := s.block.complete (eval s.block) }

/-- The error an illegal command word raises (60_exceptions.md R206). -/
def illegalCommand : DecodeError → CmdError
  | .sbzBits => ⟨.sbzBits, .whole, 0⟩
  | .badOpcode => ⟨.badOpcode, .whole, 0⟩

/-! ## Issue -/

/-- The block after the issue of the word `w` (10_state.md R44). -/
def Block.issue (b : Block) (w : Word) : Block :=
  { b with cmd := w, status := issuedStatus b.status, errinfo := noError, pending := some w }

/-- LAT of the next command to be issued: the argument given for it, else a free value (00_scope.md R5; log entry 1). -/
def State.nextLatency (s : State) : Nat :=
  match s.latencies with
  | n :: _ => n
  | [] => Config.lat s.draws

/-- The machine after the issue of the word `w`: the block's issue, and the LAT drawn for the command. -/
def State.issue (s : State) (w : Word) : State :=
  { s with block := s.block.issue w, latencies := s.latencies.tail, latLeft := s.nextLatency, draws := s.draws + 1 }

/-! ## Host accesses -/

/-- The block after a write that is dropped because a command is pending: COLL is set and nothing else changes
(20_memory.md R69). -/
def Block.dropWrite (b : Block) : Block := { b with status := { b.status with coll := true } }

/-- The machine after an admitted write of the word `v` to `r`: a write of STATUS is accepted always (10_state.md R25), any other is
dropped while a command is pending (20_memory.md R69), and otherwise CMD issues (10_state.md R44) and the rest store
(20_memory.md R68). -/
def State.writeReg (s : State) (r : RegWord) (v : Word) : State :=
  if r = .status then { s with block := storeWord s.block v .status }
  else if s.block.pending.isSome then { s with block := s.block.dropWrite }
  else if r = .cmd then s.issue v
  else { s with block := storeWord s.block v r }

/-- One host access: the machine and the response after it, or BusError for an access that is not admitted (20_memory.md R62, R67
to R69). -/
def busAccess (s : State) (a : Access) : Except Fault (State × Response) :=
  match admittedTransfer a with
  | none => .error (.busError a)
  | some (.read r) => .ok (s, .data (readWord s.block r))
  | some (.write r v) => .ok (s.writeReg r v, .written)

/-! ## Reset -/

/-- What the host sees of an access that a reset cuts off: the platform's bus completes it, the data of a read being any value, or
discards it (70_reset_and_hazards.md R232; 93_implementation_defined.md U6; log entry 6). -/
def cutOffResponse (s : State) (a : Access) : Response :=
  if Config.cutOffCompletes s.draws then
    match admittedTransfer a with
    | none => .busError
    | some (.read _) => .data (Config.cutOffRead s.draws)
    | some (.write _ _) => .written
  else .discarded

/-- Reset of the block, pending command and all (70_reset_and_hazards.md R230 to R232), with the access it cuts off, if any. -/
def State.applyReset (s : State) (cut : Option Access) : State :=
  match cut with
  | none => { s with block := Block.reset }
  | some a => { s with block := Block.reset, responses := s.responses ++ [cutOffResponse s a], draws := s.draws + 1 }

end Sys2Proof.Machine
end

