-- ==== Sys2Proof/Machine/IntegerCodec.lean ====
section
/-! DEFINITION. The IntegerCodec commands INT_ENC and INT_DEC (40_integer.md R110 to R114). -/

namespace Sys2Proof.Machine

/-- The evaluation of INT_ENC (40_integer.md R111). -/
def evalIntEnc (b : Block) : Except CmdError Block :=
  let w := b.widthC.toNat
  if w > Config.bufBits then .error ⟨.widthRange, .c, 0⟩
  else
    match encodeInt b.vneg.negC b.valC.toNat w .c with
    | .error e => .error e
    | .ok bits => .ok (b.commitBits bits w)

/-- INT_ENC (40_integer.md R111). -/
def execIntEnc (s : State) : Host.Outcome State Fault Refusal := completeWith evalIntEnc s

/-- The evaluation of INT_DEC (40_integer.md R112). -/
def evalIntDec (b : Block) : Except CmdError Block :=
  if b.blen.toNat > Config.bufBits then .error ⟨.blenRange, .whole, 0⟩
  else .ok (b.commitValC (val b.inputBits))

/-- INT_DEC (40_integer.md R112). -/
def execIntDec (s : State) : Host.Outcome State Fault Refusal := completeWith evalIntDec s

end Sys2Proof.Machine
end

