-- ==== Sys2Proof/Machine/PartitionCodec.lean ====
section
/-! DEFINITION. The PartitionCodec commands PART_ENC and PART_DEC (42_partition.md R160 to R166). -/

namespace Sys2Proof.Machine

/-- The evaluation of PART_ENC (42_partition.md R161 to R163). -/
def evalPartEnc (b : Block) : Except CmdError Block :=
  let wc := b.widthC.toNat
  let wd := b.widthD.toNat
  if Config.partitionBits + wc + wd > Config.bufBits then .error ⟨.widthRange, .whole, 0⟩
  else
    match encodeIntField b.pctl.cdig b.vneg.negC b.valC.toNat wc .c with
    | .error e => .error e
    | .ok c =>
      match encodeIntField b.pctl.ddig b.vneg.negD b.valD.toNat wd .d with
      | .error e => .error e
      | .ok d => .ok (b.commitBits (enc b.pctl.pv.toNat Config.partitionBits ++ c ++ d) (Config.partitionBits + wc + wd))

/-- PART_ENC (42_partition.md R161). -/
def execPartEnc (s : State) : Host.Outcome State Fault Refusal := completeWith evalPartEnc s

/-- The evaluation of PART_DEC (42_partition.md R164, R165). -/
def evalPartDec (b : Block) : Except CmdError Block :=
  let off := b.offset.toNat
  let wc := b.widthC.toNat
  let wd := b.widthD.toNat
  if b.blen.toNat > Config.bufBits then .error ⟨.blenRange, .whole, 0⟩
  else if off + wc + wd > b.blen.toNat then .error ⟨.sliceRange, .whole, 0⟩
  else
    let bits := bufString b.buf
    .ok ((b.commitValC (val (slice bits off (off + wc)))).commitValD (val (slice bits (off + wc) (off + wc + wd))))

/-- PART_DEC (42_partition.md R165). -/
def execPartDec (s : State) : Host.Outcome State Fault Refusal := completeWith evalPartDec s

end Sys2Proof.Machine
end

