-- ==== Sys2Proof/Machine/StringCodec.lean ====
section
/-! DEFINITION. The StringCodec commands STR_ENC, STR_DEC and STR_URLENC (41_string.md R130 to R139). -/

namespace Sys2Proof.Machine

/-- The evaluation of STR_ENC (41_string.md R134). -/
def evalStrEnc (b : Block) : Except CmdError Block :=
  let w := b.widthC.toNat
  if w > Config.bufBits then .error ⟨.widthRange, .c, 0⟩
  else if b.clen.toNat > Config.maxChars then .error ⟨.clenRange, .whole, 0⟩
  else
    match encodeText b.inputText w .c with
    | .error e => .error e
    | .ok bits => .ok (b.commitBits bits w)

/-- STR_ENC (41_string.md R134). -/
def execStrEnc (s : State) : Host.Outcome State Fault Refusal := completeWith evalStrEnc s

/-- The evaluation of STR_DEC (41_string.md R136). -/
def evalStrDec (b : Block) : Except CmdError Block :=
  if b.blen.toNat > Config.bufBits then .error ⟨.blenRange, .whole, 0⟩
  else
    match sdec b.inputBits .c with
    | .error e => .error e
    | .ok t => .ok (b.commitText t)

/-- STR_DEC (41_string.md R136). -/
def execStrDec (s : State) : Host.Outcome State Fault Refusal := completeWith evalStrDec s

/-- The evaluation of STR_URLENC (41_string.md R138). -/
def evalStrUrlenc (b : Block) : Except CmdError Block :=
  if b.clen.toNat > Config.maxChars then .error ⟨.clenRange, .whole, 0⟩
  else
    match firstBadChar b.inputText with
    | some j => .error ⟨.badChar, .c, j⟩
    | none => .ok (b.commitUri (uenc b.inputText))

/-- STR_URLENC (41_string.md R138). -/
def execStrUrlenc (s : State) : Host.Outcome State Fault Refusal := completeWith evalStrUrlenc s

end Sys2Proof.Machine
end

