-- ==== Sys2Proof/Machine/StringPartitionCodec.lean ====
section
/-! DEFINITION. The StringPartitionCodec commands SPART_ENC and SPART_DEC (42_partition.md R170 to R173). -/

namespace Sys2Proof.Machine

/-- The evaluation of SPART_ENC (42_partition.md R171). -/
def evalSpartEnc (b : Block) : Except CmdError Block :=
  let wc := b.widthC.toNat
  let wd := b.widthD.toNat
  if Config.partitionBits + wc + wd > Config.bufBits then .error ⟨.widthRange, .whole, 0⟩
  else if b.clen.toNat > Config.maxChars then .error ⟨.clenRange, .whole, 0⟩
  else
    match encodeIntField b.pctl.cdig b.vneg.negC b.valC.toNat wc .c with
    | .error e => .error e
    | .ok c =>
      match encodeTextField b.pctl.ddig b.inputText wd .d with
      | .error e => .error e
      | .ok d => .ok (b.commitBits (enc b.pctl.pv.toNat Config.partitionBits ++ c ++ d) (Config.partitionBits + wc + wd))

/-- SPART_ENC (42_partition.md R171). -/
def execSpartEnc (s : State) : Host.Outcome State Fault Refusal := completeWith evalSpartEnc s

/-- The evaluation of SPART_DEC (42_partition.md R172). -/
def evalSpartDec (b : Block) : Except CmdError Block :=
  let off := b.offset.toNat
  let wc := b.widthC.toNat
  let wd := b.widthD.toNat
  if b.blen.toNat > Config.bufBits then .error ⟨.blenRange, .whole, 0⟩
  else if off + wc + wd > b.blen.toNat then .error ⟨.sliceRange, .whole, 0⟩
  else
    let bits := bufString b.buf
    match sdec (slice bits (off + wc) (off + wc + wd)) .d with
    | .error e => .error e
    | .ok t => .ok ((b.commitValC (val (slice bits off (off + wc)))).commitText t)

/-- SPART_DEC (42_partition.md R172). -/
def execSpartDec (s : State) : Host.Outcome State Fault Refusal := completeWith evalSpartDec s

end Sys2Proof.Machine
end

