-- ==== Sys2Proof/Machine/Dispatch.lean ====
section
/-! DEFINITION. The dispatch of 30_encoding.md R96: one arm per command, each one call of its meaning. -/

namespace Sys2Proof.Machine

def exec (i : Instr) (s : State) : Host.Outcome State Fault Refusal :=
  match i with
  | .intEnc => Sys2Proof.Machine.execIntEnc s
  | .intDec => Sys2Proof.Machine.execIntDec s
  | .strEnc => Sys2Proof.Machine.execStrEnc s
  | .strDec => Sys2Proof.Machine.execStrDec s
  | .strUrlenc => Sys2Proof.Machine.execStrUrlenc s
  | .partEnc => Sys2Proof.Machine.execPartEnc s
  | .partDec => Sys2Proof.Machine.execPartDec s
  | .spartEnc => Sys2Proof.Machine.execSpartEnc s
  | .spartDec => Sys2Proof.Machine.execSpartDec s

end Sys2Proof.Machine
end

