-- ==== Sys2Proof/Machine/Agents.lean ====
section
/-! DEFINITION. The two agents (00_scope.md R13) and the platform's reset: the engine's completion step of the pending command word
(10_state.md R45, 30_encoding.md R96) and the next thing the host or the platform does (20_memory.md R75). -/

namespace Sys2Proof.Machine

/-- The engine's step on the pending word `w`: the command it names completes, and an illegal word completes with IllegalCommand
(30_encoding.md R96, 60_exceptions.md R206). -/
def engineStep (s : State) (w : Word) : Host.Outcome State Fault Refusal :=
  match decode w with
  | .ok i => exec i s
  | .error e => completeWith (fun _ => .error (illegalCommand e)) s

/-- Whether the engine moves next while a command is pending: LAT accesses have passed since its issue, or nothing else is left to
happen (10_state.md R45, weak fairness; log entry 1). -/
def State.engineTurn (s : State) : Bool := s.latLeft == 0 || s.inputs.isEmpty

/-- The machine as a host access finds it: the access is taken from the inputs and counts towards LAT (00_scope.md R5). -/
def State.takeAccess (s : State) (rest : List Input) : State := { s with inputs := rest, latLeft := s.latLeft - 1 }

/-- One host access at its own step, its response handed to the host: an access that ends in BusError changes no state of the block
and gives the bus error response (20_memory.md R62, R71; log entry 2). -/
def accessStep (s : State) (a : Access) : State :=
  match busAccess s a with
  | .ok (s', r) => { s' with responses := s'.responses ++ [r] }
  | .error _ => { s with responses := s.responses ++ [.busError] }

/-- One turn of the WAIT loop: a read of STATUS, and the loop goes on while bit 0 of it is 1 (30_encoding.md R100). `again` is the
input list with the loop still at its head. -/
def waitStep (s : State) (again : List Input) : State :=
  let polled := readWord s.block .status
  { s with responses := s.responses ++ [.data polled], inputs := if polled.getLsbD 0 then again else s.inputs }

/-- The host's operation at the head of the inputs: one access, performed on the block itself at this step (20_memory.md R75), as the
platform is assumed to deliver it (log entry 12). -/
def hostStep (s : State) (agent : Nat) (op : HostOp) (rest : List Input) : State :=
  match op with
  | .access a => accessStep (s.takeAccess rest) a
  | .wait => waitStep (s.takeAccess rest) (.host agent .wait :: rest)

/-- Whether an access of the given agent is one of a second host agent (60_exceptions.md R217). -/
def State.otherHost (s : State) (agent : Nat) : Bool :=
  match s.hostAgent with
  | none => false
  | some a => a != agent

/-- What the host or the platform does next. DESIGN CHOICE (log entry 12): the inputs are the host's accesses to the window as the block
receives them, one by one, in program order, none merged with another and none served from a cache. How the platform achieves that is open
(20_memory.md R72, R77), and 92_eei_decisions.md D29 makes it an assumption that a model states. With nothing left to do and no command pending, the registers keep their values
(60_exceptions.md R223). A second host agent is refused (R217; U1). -/
def inputStep (s : State) : Host.Outcome State Fault Refusal :=
  match s.inputs with
  | [] => .next s
  | .reset cut :: rest => .next (({ s with inputs := rest }).applyReset cut)
  | .host agent op :: rest =>
    if s.otherHost agent then .refused (.secondHost agent)
    else .next (hostStep { s with hostAgent := some agent } agent op rest)

/-- One step of the machine: the engine's if a command is pending and it is its turn, else the next input
(10_state.md R45, 20_memory.md R75). -/
def stepAgents (s : State) : Host.Outcome State Fault Refusal :=
  match s.block.pending with
  | some w => if s.engineTurn then engineStep s w else inputStep s
  | none => inputStep s

/-- The machine with the word `w` issued (10_state.md R44) and its completion the next step: the host's CMD write, with a LAT of 0. -/
def State.issueNow (s : State) (w : Word) : State := { s with block := s.block.issue w, latLeft := 0 }

end Sys2Proof.Machine
end

