-- ==== Sys2Proof/Machine/Step.lean ====
section
/-! DEFINITION. One step of the machine, and how a command word comes to be the next one run. -/

namespace Sys2Proof.Machine

/-- One step of the machine (`stepAgents`). -/
def step (s : State) : Host.Outcome State Fault Refusal := stepAgents s

/-- The machine with the given command word issued, so that the very next step is its completion. The block fetches nothing
(20_memory.md R79): a command word is what the host writes to CMD (10_state.md R44), and this stands for that write
(log entry 3). A command has 32 bits (30_encoding.md R90); every bit above `nbits` is 0. -/
def State.withFetchWord (s : State) (nbits w : Nat) : State := s.issueNow (BitVec.ofNat 32 (w % 2 ^ nbits))

end Sys2Proof.Machine
end

