-- ==== Sys2Proof/Machine/HostProgram.lean ====
section
/-! DEFINITION. The host's assembly: the access each line makes (30_encoding.md R99) and the expansion of each pseudo-instruction
(R100) into host operations. -/

namespace Sys2Proof.Machine

/-- The byte offset of a word of the window, as an access names it (30_encoding.md R99). -/
def RegWord.accessOffset (r : RegWord) : BitVec 12 := BitVec.ofNat 12 r.byteOffset

/-- `WR NAME, imm32`: BusWrite(offset(NAME), 4, imm32) (30_encoding.md R99). -/
def writeOp (r : RegWord) (v : Word) : HostOp := .access (.write r.accessOffset (.word v))

/-- `RD NAME`: BusRead(offset(NAME), 4) (30_encoding.md R99). -/
def readOp (r : RegWord) : HostOp := .access (.read r.accessOffset .word)

/-- Word `k` of a value register, by name. -/
def ValReg.regWord : ValReg → Fin 8 → RegWord
  | .c => .valC
  | .d => .valD

/-- The host operations a line expands to (30_encoding.md R99, R100). -/
def HostLine.expand : HostLine → List HostOp
  | .wr r imm => [writeOp r imm]
  | .rd r => [readOp r]
  | .issue i => [writeOp .cmd (encode i)]
  | .wait => [.wait]
  | .ldval reg v => (List.finRange 8).map fun k => writeOp (reg.regWord k) (BitVec.ofNat 32 (v / 2 ^ (32 * k.val)))
  | .ldbits s =>
    let t := s ++ zeros (Config.bufBits - s.length)
    writeOp .blen (BitVec.ofNat 32 s.length)
      :: (List.finRange 8).map fun k => writeOp (.buf k) (BitVec.ofNat 32 (val (slice t (32 * k.val) (32 * k.val + 32))))
  | .ldtext t =>
    writeOp .clen (BitVec.ofNat 32 t.length)
      :: (List.finRange 9).map fun k => writeOp (.cbuf k) (textWord (padText Config.maxChars t) k.val)
  | .ldpctl pv cdig ddig => [writeOp .pctl (BitVec.ofNat 32 pv ||| BitVec.ofNat 32 cdig <<< 8 ||| BitVec.ofNat 32 ddig <<< 16)]

/-- What a host agent's program asks of the block, in program order (20_memory.md R75). -/
def hostInputs (agent : Nat) (lines : List HostLine) : List Input := (lines.flatMap HostLine.expand).map (.host agent)

end Sys2Proof.Machine
end

