-- ==== Sys2Proof/Safety.lean ====
section
/-! DEFINITION. What claims are stated in: the invariant of every run (10_state.md R25 to R27, R39, R40, R42; 60_exceptions.md R202),
the host's duty in the busy window (70_reset_and_hazards.md R240), the columns of 10_state.md R46, and the outcome of a completion
written with the numbers of 60_exceptions.md R202 instead of the model's names for them. -/

namespace Sys2Proof.Machine

/-! ## The outcome of a completion, in numbers -/

/-- The block after a completion that succeeded, `b` holding the results: BUSY 0, DONE 1, ERR 0, ERRCODE 0, ERRINFO 0, PENDING none, and
COLL kept (10_state.md R25 to R27, R45). -/
def Block.succeeded (b : Block) : Block :=
  { b with
    status := { busy := false, done := true, err := false, errcode := 0, coll := b.status.coll }
    errinfo := { sub := 0, field := 0, index := 0 }
    pending := none }

/-- The block after a completion that failed with ERRCODE `code` and ERRINFO (`sub`, `field`, `index`): BUSY 0, DONE 1, ERR 1, PENDING
none, COLL kept, and nothing else changed (10_state.md R45, 60_exceptions.md R203). -/
def Block.failedWith (b : Block) (code : BitVec 4) (sub : BitVec 4) (field : BitVec 2) (index : Nat) : Block :=
  { b with
    status := { busy := false, done := true, err := true, errcode := code, coll := b.status.coll }
    errinfo := { sub := sub, field := field, index := BitVec.ofNat 8 index }
    pending := none }

/-! ## Operands and results, in numbers -/

/-- Character `j` of CBUF as a number (20_memory.md R66). -/
def Block.charAt (b : Block) (j : Nat) : Nat := (b.cbuf.toList.getD j 0).toNat

/-- The number the 7-bit groups of the first `m` characters of CBUF spell, most significant first (41_string.md R131, R133). -/
def Block.textNumber (b : Block) : Nat → Nat
  | 0 => 0
  | m + 1 => b.textNumber m * 128 + b.charAt m

/-- The value of group `k` of the `n`-bit string that starts at bit `start` of BUF: its bits from `7k` to the end of the group or of the
string (41_string.md R135, 20_memory.md R64). -/
def groupValue (buf : BitVec 256) (start n k : Nat) : Nat :=
  buf.toNat / 2 ^ (256 - (start + min (7 * k + 7) n)) % 2 ^ (min (7 * k + 7) n - 7 * k)

/-- CBUF holding the values of the first `p` groups of a string, and 0x00 after them (41_string.md R136). -/
def groupText (buf : BitVec 256) (start n p : Nat) : Vector Byte 36 :=
  Vector.ofFn fun j => if j.val < p then BitVec.ofNat 8 (groupValue buf start n j.val) else 0

/-- The URI form of one character: the seven escapes of 41_string.md R132 written out, any other character itself. -/
def uriChar (ch : Byte) : Text :=
  if ch = 0x22 then [0x25, 0x32, 0x32]
  else if ch = 0x25 then [0x25, 0x32, 0x35]
  else if ch = 0x26 then [0x25, 0x32, 0x36]
  else if ch = 0x2F then [0x25, 0x32, 0x46]
  else if ch = 0x3C then [0x25, 0x33, 0x43]
  else if ch = 0x3E then [0x25, 0x33, 0x45]
  else if ch = 0x3F then [0x25, 0x33, 0x46]
  else [ch]

/-- The 82 characters of the alphabet, written out (41_string.md R130). -/
def alphabetText : String :=
  "!\"%&'()*+,-./0123456789:;<=>?ABCDEFGHIJKLMNOPQRSTUVWXYZ_abcdefghijklmnopqrstuvwxyz"

/-- The bits of a word of the window that 10_state.md R21 does not show as 0: every other bit reads as zero (R43). -/
def RegWord.shownBits : RegWord → Word
  | .id => 0xFFFFFFFF
  | .param => 0x00FFFFFF
  | .cmd => 0xFFFFFFFF
  | .status => 0x000001F7
  | .errinfo => 0x0000FF3F
  | .widthC => 0x000001FF
  | .widthD => 0x000001FF
  | .offset => 0x000001FF
  | .pctl => 0x001F1F07
  | .vneg => 0x00000003
  | .blen => 0x000001FF
  | .clen => 0x000000FF
  | .ulen => 0x000000FF
  | .valC _ => 0xFFFFFFFF
  | .valD _ => 0xFFFFFFFF
  | .buf _ => 0xFFFFFFFF
  | .cbuf _ => 0xFFFFFFFF
  | .ubuf _ => 0xFFFFFFFF

/-- The bits of a word of the window that a host write acts on: the writable fields, COLL of STATUS among them, and all of CMD
(10_state.md R21, R25, R43). -/
def RegWord.writableBits : RegWord → Word
  | .id => 0
  | .param => 0
  | .cmd => 0xFFFFFFFF
  | .status => 0x00000100
  | .errinfo => 0
  | .widthC => 0x000001FF
  | .widthD => 0x000001FF
  | .offset => 0x000001FF
  | .pctl => 0x001F1F07
  | .vneg => 0x00000003
  | .blen => 0x000001FF
  | .clen => 0x000000FF
  | .ulen => 0
  | .valC _ => 0xFFFFFFFF
  | .valD _ => 0xFFFFFFFF
  | .buf _ => 0xFFFFFFFF
  | .cbuf _ => 0xFFFFFFFF
  | .ubuf _ => 0

/-- The byte offsets of the words of the window (20_memory.md R61). -/
def mappedOffset (off : Nat) : Bool :=
  off % 4 == 0 && (decide (off ≤ 0x030) || decide (0x040 ≤ off ∧ off ≤ 0x07C) || decide (0x100 ≤ off ∧ off ≤ 0x11C)
    || decide (0x200 ≤ off ∧ off ≤ 0x220) || decide (0x300 ≤ off ∧ off ≤ 0x368))

/-- The byte offsets of the read-only words: ID, PARAM, ERRINFO, ULEN and UBUF (20_memory.md R70). -/
def readOnlyOffset (off : Nat) : Bool :=
  off == 0x000 || off == 0x004 || off == 0x010 || off == 0x030 || decide (0x300 ≤ off ∧ off ≤ 0x368)

/-- An access 20_memory.md R61 admits, in the numbers of that rule. -/
def Access.admittedByRule : Access → Bool
  | .read off .word => mappedOffset off.toNat
  | .read _ _ => false
  | .write off (.word _) => mappedOffset off.toNat && !readOnlyOffset off.toNat
  | .write _ _ => false

/-! ## The invariant of every run -/

/-- The FIELD values that 60_exceptions.md R202 gives a sub-cause. -/
def SubCause.legalField : SubCause → ErrField → Bool
  | .negative, f => f != .whole
  | .tooWide, f => f != .whole
  | .tooLong, f => f != .whole
  | .widthRange, f => f != .d
  | .sliceRange, f => f == .whole
  | .blenRange, f => f == .whole
  | .clenRange, f => f == .whole
  | .badChar, f => f != .whole
  | .badGroup, f => f != .whole
  | .partialGroup, f => f != .whole
  | .badOpcode, f => f == .whole
  | .sbzBits, f => f == .whole

/-- An error 60_exceptions.md R202 lists: a FIELD of its row, and INDEX 0 for every sub-cause but 8, 9 and 10, where it is the index of a
character or group, at most MAX_CHARS. -/
def CmdError.legal (e : CmdError) : Bool :=
  e.sub.legalField e.field && decide (e.index ≤ Config.maxChars) && (e.index == 0 || e.sub.errcode == 2)

/-- The invariant of the block: it holds at reset and every step keeps it. -/
structure Block.Inv (b : Block) : Prop where
  /-- BUSY is 1 exactly when a command is pending (10_state.md R42). -/
  busy_iff_pending : b.status.busy = b.pending.isSome
  /-- DONE is 0 from an issue to its completion (10_state.md R25). -/
  done_not_busy : b.status.done = true → b.status.busy = false
  /-- ERR is 1 only after a completion (10_state.md R25). -/
  err_done : b.status.err = true → b.status.done = true
  /-- ERR = 1 if and only if ERRCODE ≠ 0 (10_state.md R26). -/
  err_iff_code : b.status.err = true ↔ b.status.errcode ≠ 0
  /-- ERRCODE and ERRINFO are all 0 or report one error of 60_exceptions.md R202 (10_state.md R27; U10: no other code is produced). -/
  report_legal : (b.status.errcode = 0 ∧ b.errinfo = noError) ∨
    ∃ e : CmdError, e.legal = true ∧ b.status.errcode = e.sub.errcode ∧ b.errinfo = e.report
  /-- CMD still holds the pending word (10_state.md R24). -/
  cmd_pending : ∀ w, b.pending = some w → b.cmd = w
  /-- ULEN is at most UBUF_CHARS (10_state.md R39). -/
  ulen_le : b.ulen.toNat ≤ Config.ubufChars
  /-- UBUF is 0x00 at and beyond ULEN (10_state.md R40). -/
  ubuf_tail : ∀ j : Fin 108, b.ulen.toNat ≤ j.val → b.ubuf[j] = 0

/-- The invariant of the machine: that of its block. -/
abbrev State.Inv (s : State) : Prop := s.block.Inv

/-! ## The host's duty -/

/-- It is the turn of a host access: agent `agent`'s access `a` is the next input, `agent` is the one host, and no command is pending or
LAT allows another access before the completion (20_memory.md R75, 10_state.md R45). -/
def State.hostTurn (s : State) (agent : Nat) (a : Access) (rest : List Input) : Prop :=
  s.inputs = .host agent (.access a) :: rest ∧ s.otherHost agent = false ∧ (s.block.pending = none ∨ s.latLeft ≠ 0)

/-- The machine after a host access that leaves the block `b` and gets the response `r`. -/
def State.afterAccess (s : State) (agent : Nat) (rest : List Input) (r : Response) (b : Block) : State :=
  { s with
    block := b, inputs := rest, hostAgent := some agent, latLeft := s.latLeft - 1, responses := s.responses ++ [r] }

/-- Whether an access is an admitted write of a register other than STATUS (70_reset_and_hazards.md R240). -/
def Access.writesOther (a : Access) : Bool :=
  match admittedTransfer a with
  | some (.write r _) => r != .status
  | _ => false

/-- Whether the next input breaks the busy window: a write of a register other than STATUS while a command is pending
(70_reset_and_hazards.md R240). -/
def State.breaksBusyWindow (s : State) : Bool :=
  match s.block.pending, s.inputs with
  | some _, .host _ (.access a) :: _ => a.writesOther
  | _, _ => false

/-- Whether an access issues a command when none is pending: an admitted write of CMD (10_state.md R44). -/
def Access.issues (a : Access) : Bool :=
  match admittedTransfer a with
  | some (.write .cmd _) => true
  | _ => false

/-- Whether inputs keep to 70_reset_and_hazards.md R240 from here on, whatever LAT is: from a write of CMD to the WAIT after it, no
register but STATUS is written. `window` says whether such a window is open. -/
def keepsBusyWindow (window : Bool) : List Input → Bool
  | [] => true
  | .host _ (.access a) :: rest =>
    if window then !a.writesOther && keepsBusyWindow true rest else keepsBusyWindow a.issues rest
  | .host _ .wait :: rest => keepsBusyWindow false rest
  | .reset _ :: rest => keepsBusyWindow false rest

/-- Whether every host operation of the inputs is by the given agent (60_exceptions.md R217). -/
def oneHost (agent : Nat) (inputs : List Input) : Bool :=
  inputs.all fun i => match i with
    | .host a _ => a == agent
    | .reset _ => true

/-- What counts as a safe step of a run: the host keeps to the busy window, makes only admitted accesses, and is the one host. -/
def State.safeStep (s : State) : Bool :=
  !s.breaksBusyWindow &&
    match s.inputs with
    | .host agent (.access a) :: _ => !s.otherHost agent && (admittedTransfer a).isSome
    | .host agent .wait :: _ => !s.otherHost agent
    | _ => true

/-! ## The columns of 10_state.md R46 -/

/-- Two blocks hold the same values in every register of the "reads" column of a command (10_state.md R46). -/
def agreeOnReads (i : Instr) (b b' : Block) : Prop :=
  match i with
  | .intEnc => b.widthC = b'.widthC ∧ b.vneg.negC = b'.vneg.negC ∧ b.valC = b'.valC
  | .intDec => b.blen = b'.blen ∧ b.buf = b'.buf
  | .strEnc => b.widthC = b'.widthC ∧ b.clen = b'.clen ∧ b.cbuf = b'.cbuf
  | .strDec => b.blen = b'.blen ∧ b.buf = b'.buf
  | .strUrlenc => b.clen = b'.clen ∧ b.cbuf = b'.cbuf
  | .partEnc => b.widthC = b'.widthC ∧ b.widthD = b'.widthD ∧ b.pctl = b'.pctl ∧ b.vneg = b'.vneg ∧ b.valC = b'.valC
      ∧ b.valD = b'.valD
  | .partDec => b.blen = b'.blen ∧ b.buf = b'.buf ∧ b.offset = b'.offset ∧ b.widthC = b'.widthC ∧ b.widthD = b'.widthD
  | .spartEnc => b.widthC = b'.widthC ∧ b.widthD = b'.widthD ∧ b.pctl = b'.pctl ∧ b.vneg.negC = b'.vneg.negC
      ∧ b.valC = b'.valC ∧ b.clen = b'.clen ∧ b.cbuf = b'.cbuf
  | .spartDec => b.blen = b'.blen ∧ b.buf = b'.buf ∧ b.offset = b'.offset ∧ b.widthC = b'.widthC ∧ b.widthD = b'.widthD

/-- Two blocks hold the same values in every register of the "writes" column of a command (10_state.md R46). -/
def agreeOnWrites (i : Instr) (b b' : Block) : Prop :=
  match i with
  | .intEnc => b.buf = b'.buf ∧ b.blen = b'.blen
  | .intDec => b.valC = b'.valC ∧ b.vneg.negC = b'.vneg.negC
  | .strEnc => b.buf = b'.buf ∧ b.blen = b'.blen
  | .strDec => b.cbuf = b'.cbuf ∧ b.clen = b'.clen
  | .strUrlenc => b.ubuf = b'.ubuf ∧ b.ulen = b'.ulen
  | .partEnc => b.buf = b'.buf ∧ b.blen = b'.blen
  | .partDec => b.valC = b'.valC ∧ b.valD = b'.valD ∧ b.vneg = b'.vneg
  | .spartEnc => b.buf = b'.buf ∧ b.blen = b'.blen
  | .spartDec => b.valC = b'.valC ∧ b.vneg.negC = b'.vneg.negC ∧ b.cbuf = b'.cbuf ∧ b.clen = b'.clen

/-- The block `b'` but for the registers of the "writes" column of a command, which it takes from `b`, and the report registers STATUS,
ERRINFO and PENDING, which it takes from `b` too: what `b` must be for a command to have written nothing else (10_state.md R46). -/
def keepsUnwritten (i : Instr) (b b' : Block) : Prop :=
  let base := { b' with status := b.status, errinfo := b.errinfo, pending := b.pending }
  b = match i with
    | .intEnc => { base with buf := b.buf, blen := b.blen }
    | .intDec => { base with valC := b.valC, vneg := { negC := b.vneg.negC, negD := b'.vneg.negD } }
    | .strEnc => { base with buf := b.buf, blen := b.blen }
    | .strDec => { base with cbuf := b.cbuf, clen := b.clen }
    | .strUrlenc => { base with ubuf := b.ubuf, ulen := b.ulen }
    | .partEnc => { base with buf := b.buf, blen := b.blen }
    | .partDec => { base with valC := b.valC, valD := b.valD, vneg := b.vneg }
    | .spartEnc => { base with buf := b.buf, blen := b.blen }
    | .spartDec => { base with valC := b.valC, vneg := { negC := b.vneg.negC, negD := b'.vneg.negD }, cbuf := b.cbuf, clen := b.clen }

end Sys2Proof.Machine
end

