-- ==== Sys2Proof/WellFormed.lean ====
section
/-! DEFINITION. Which terms of the syntax the spec gives a meaning: every command (no command word carries an operand,
30_encoding.md R95), and the host lines within the ranges 30_encoding.md R100 states. -/

namespace Sys2Proof

/-- Every command is well formed: it has no operand to check (30_encoding.md R95). -/
def Instr.wellFormed : Instr → Bool
  | .intEnc => true
  | .intDec => true
  | .strEnc => true
  | .strDec => true
  | .strUrlenc => true
  | .partEnc => true
  | .partDec => true
  | .spartEnc => true
  | .spartDec => true

namespace Machine

/-- The ranges of 30_encoding.md R100's pseudo-instructions. R100 gives none for LDPCTL; the ranges of the three fields of PCTL
(10_state.md R31) are taken (DEDUCED, log entry 9). -/
def HostLine.wellFormed : HostLine → Bool
  | .wr _ _ => true
  | .rd _ => true
  | .issue i => i.wellFormed
  | .wait => true
  | .ldval _ v => decide (v < 2 ^ Config.bufBits)
  | .ldbits s => decide (s.length ≤ Config.bufBits)
  | .ldtext t => decide (t.length ≤ Config.maxChars)
  | .ldpctl pv cdig ddig => decide (pv < 8) && decide (cdig < 32) && decide (ddig < 32)

end Machine
end Sys2Proof
end

