-- ==== Sys2Proof/Certificates/Slice0/Obligations.lean ====
section
/-! DEFINITION. The statements for the provers. Each docstring names the rule of spec/ it formalises. ERRCODE, SUB and FIELD are written
as the numbers of 60_exceptions.md R202, and a result as the number or the bytes its register holds. -/

open Sys2Proof Sys2Proof.Machine

/-! ## Encoding and the step -/

/-- 30_encoding.md R93: the legal command words are exactly the nine of the table, each naming its command; and encoding a command and
decoding the word gives the command back. -/
def Obligations.LegalWordsAreTheNine : Prop :=
  (∀ (w : Word) (i : Instr), decode w = .ok i ↔
    (w, i) ∈ [((0x00000010 : Word), Instr.intEnc), (0x00000011, .intDec), (0x00000020, .strEnc), (0x00000021, .strDec),
      (0x00000022, .strUrlenc), (0x00000030, .partEnc), (0x00000031, .partDec), (0x00000038, .spartEnc), (0x00000039, .spartDec)]) ∧
  (∀ i : Instr, i.wellFormed = true → decode (encode i) = .ok i) ∧
  (∀ (w : Word) (i : Instr), decode w = .ok i → encode i = w)

/-- 30_encoding.md R93: one command word of each unit, written out bit by bit (SBZ, unit, operation), decodes to its command. -/
def Obligations.WrittenWordsDecode : Prop :=
  decode (0b00000000_00000000_00000000_0001_0000#32) = .ok .intEnc ∧
  decode (0b00000000_00000000_00000000_0001_0001#32) = .ok .intDec ∧
  decode (0b00000000_00000000_00000000_0010_0010#32) = .ok .strUrlenc ∧
  decode (0b00000000_00000000_00000000_0011_0001#32) = .ok .partDec ∧
  decode (0b00000000_00000000_00000000_0011_1000#32) = .ok .spartEnc

/-- 10_state.md R45 and 30_encoding.md R96: when a command word is pending and it is the engine's turn, the step is the completion of the
word, with nothing around it; and the completion of a word that decodes is `exec` of its command. That the engine's turn comes when LAT
accesses have passed or nothing else is left to happen is the model's reading of LAT (log entry 1). -/
def Obligations.StepRunsDecodedCommand : Prop :=
  ∀ (s : State) (w : Word), s.block.pending = some w → (s.latLeft = 0 ∨ s.inputs = []) →
    step s = engineStep s w ∧ ∀ i : Instr, i.wellFormed = true → decode w = .ok i → step s = exec i s

/-- 30_encoding.md R91 and 60_exceptions.md R206: the completion of a word with a non-zero bit in [31:8] reports IllegalCommand(12), that
of any other word whose OPC is none of the nine IllegalCommand(11), and nothing but STATUS, ERRINFO and PENDING changes; every other word
completes as the command it decodes to. -/
def Obligations.IllegalWordsReport : Prop :=
  ∀ (s : State) (w : Word),
    if w >>> 8 ≠ 0 then engineStep s w = .next { s with block := s.block.failedWith 3 12 0 0 }
    else if w.toNat ∈ [0x10, 0x11, 0x20, 0x21, 0x22, 0x30, 0x31, 0x38, 0x39] then ∃ i, decode w = .ok i ∧ engineStep s w = exec i s
    else engineStep s w = .next { s with block := s.block.failedWith 3 11 0 0 }

/-! ## The nine commands, each rule whole

`exec i s` is the completion of the command `i` on the registers of `s` (log entry 11). -/

/-- 40_integer.md R111, INT_ENC, the word 0x00000010: the errors in their order, and else BUF holds the digits of VAL_C at its left end and
zeros after them, BLEN is WIDTH_C, and nothing else but STATUS, ERRINFO and PENDING changes. -/
def Obligations.IntEncEncodes : Prop :=
  decode 0x00000010 = .ok .intEnc ∧
  ∀ s : State,
    let b := s.block
    let w := b.widthC.toNat
    if 256 < w then exec .intEnc s = .next { s with block := b.failedWith 1 4 1 0 }
    else if b.vneg.negC = true then exec .intEnc s = .next { s with block := b.failedWith 1 1 1 0 }
    else if 2 ^ w ≤ b.valC.toNat then exec .intEnc s = .next { s with block := b.failedWith 1 2 1 0 }
    else exec .intEnc s = .next { s with
      block := { b with buf := BitVec.ofNat 256 (b.valC.toNat * 2 ^ (256 - w)), blen := b.widthC }.succeeded }

/-- 40_integer.md R112, INT_DEC, the word 0x00000011: sub-cause 6 when BLEN exceeds 256, and else VAL_C is the number the first BLEN bits of
BUF spell, NEG_C is 0, and nothing else but STATUS, ERRINFO and PENDING changes. -/
def Obligations.IntDecDecodes : Prop :=
  decode 0x00000011 = .ok .intDec ∧
  ∀ s : State,
    let b := s.block
    let n := b.blen.toNat
    if 256 < n then exec .intDec s = .next { s with block := b.failedWith 1 6 0 0 }
    else exec .intDec s = .next { s with
      block := { b with
        valC := BitVec.ofNat 256 (b.buf.toNat / 2 ^ (256 - n)), vneg := { negC := false, negD := b.vneg.negD } }.succeeded }

/-- 41_string.md R134, STR_ENC, the word 0x00000020: the range errors, then the first character outside the alphabet, then a text too long;
and else BUF holds the 7-bit groups of the text at its left end and zeros after them, BLEN is WIDTH_C, and nothing else but STATUS, ERRINFO
and PENDING changes. -/
def Obligations.StrEncEncodes : Prop :=
  decode 0x00000020 = .ok .strEnc ∧
  ∀ s : State,
    let b := s.block
    let w := b.widthC.toNat
    let m := b.clen.toNat
    if 256 < w then exec .strEnc s = .next { s with block := b.failedWith 1 4 1 0 }
    else if 36 < m then exec .strEnc s = .next { s with block := b.failedWith 1 7 0 0 }
    else
      (∃ j < m, (∀ i < j, inAlphabet (b.charAt i) = true) ∧ inAlphabet (b.charAt j) = false ∧
        exec .strEnc s = .next { s with block := b.failedWith 2 8 1 j }) ∨
      ((∀ i < m, inAlphabet (b.charAt i) = true) ∧
        if w < 7 * m then exec .strEnc s = .next { s with block := b.failedWith 1 3 1 0 }
        else exec .strEnc s = .next { s with
          block := { b with buf := BitVec.ofNat 256 (b.textNumber m * 2 ^ (256 - 7 * m)), blen := b.widthC }.succeeded })

/-- 41_string.md R135 and R136, STR_DEC, the word 0x00000021: sub-cause 6 when BLEN exceeds 256; else the groups of the first BLEN bits of
BUF are read up to the first that is zero or that the string has not, all those before it full and in the alphabet: a zero group (a zero
trailing partial group among them) or the end gives CBUF and CLEN, a non-zero partial group sub-cause 10, a full group outside the alphabet
sub-cause 9. -/
def Obligations.StrDecDecodes : Prop :=
  decode 0x00000021 = .ok .strDec ∧
  ∀ s : State,
    let b := s.block
    let n := b.blen.toNat
    let group := groupValue b.buf 0 n
    if 256 < n then exec .strDec s = .next { s with block := b.failedWith 1 6 0 0 }
    else ∃ p, (∀ k < p, 7 * k + 7 ≤ n ∧ inAlphabet (group k) = true) ∧
      if n ≤ 7 * p ∨ group p = 0 then exec .strDec s = .next { s with
        block := { b with cbuf := groupText b.buf 0 n p, clen := BitVec.ofNat 8 p }.succeeded }
      else if n < 7 * p + 7 then exec .strDec s = .next { s with block := b.failedWith 2 10 1 p }
      else inAlphabet (group p) = false ∧ exec .strDec s = .next { s with block := b.failedWith 2 9 1 p }

/-- 41_string.md R138, STR_URLENC, the word 0x00000022: sub-cause 7 when CLEN exceeds 36, sub-cause 8 for the first character outside the
alphabet; and else UBUF holds the URI form of the text and 0x00 after it, ULEN its length, and nothing else but STATUS, ERRINFO and PENDING
changes. -/
def Obligations.StrUrlencRenders : Prop :=
  decode 0x00000022 = .ok .strUrlenc ∧
  ∀ s : State,
    let b := s.block
    let m := b.clen.toNat
    let u := (b.cbuf.toList.take m).flatMap uriChar
    if 36 < m then exec .strUrlenc s = .next { s with block := b.failedWith 1 7 0 0 }
    else
      (∃ j < m, (∀ i < j, inAlphabet (b.charAt i) = true) ∧ inAlphabet (b.charAt j) = false ∧
        exec .strUrlenc s = .next { s with block := b.failedWith 2 8 1 j }) ∨
      ((∀ i < m, inAlphabet (b.charAt i) = true) ∧ u.length ≤ 108 ∧
        exec .strUrlenc s = .next { s with
          block := { b with ubuf := Vector.ofFn fun j => u.getD j.val 0, ulen := BitVec.ofNat 8 u.length }.succeeded })

/-- 42_partition.md R161 to R163, PART_ENC, the word 0x00000030: the width check, then for the c field and then the d field (neither when
its digit count is 0) the sign and the size; and else BUF holds PV in 3 bits, the c field and the d field (a field of digit count 0 all
zero) and zeros after them, BLEN is 3 + WIDTH_C + WIDTH_D, and nothing else but STATUS, ERRINFO and PENDING changes. -/
def Obligations.PartEncEncodes : Prop :=
  decode 0x00000030 = .ok .partEnc ∧
  ∀ s : State,
    let b := s.block
    let wc := b.widthC.toNat
    let wd := b.widthD.toNat
    let c := if b.pctl.cdig = 0 then 0 else b.valC.toNat
    let d := if b.pctl.ddig = 0 then 0 else b.valD.toNat
    if 256 < 3 + wc + wd then exec .partEnc s = .next { s with block := b.failedWith 1 4 0 0 }
    else if b.pctl.cdig ≠ 0 ∧ b.vneg.negC = true then exec .partEnc s = .next { s with block := b.failedWith 1 1 1 0 }
    else if 2 ^ wc ≤ c then exec .partEnc s = .next { s with block := b.failedWith 1 2 1 0 }
    else if b.pctl.ddig ≠ 0 ∧ b.vneg.negD = true then exec .partEnc s = .next { s with block := b.failedWith 1 1 2 0 }
    else if 2 ^ wd ≤ d then exec .partEnc s = .next { s with block := b.failedWith 1 2 2 0 }
    else exec .partEnc s = .next { s with
      block := { b with
        buf := BitVec.ofNat 256 (((b.pctl.pv.toNat * 2 ^ wc + c) * 2 ^ wd + d) * 2 ^ (256 - (3 + wc + wd)))
        blen := BitVec.ofNat 9 (3 + wc + wd) }.succeeded }

/-- 42_partition.md R165, PART_DEC, the word 0x00000031: sub-cause 6 when BLEN exceeds 256, sub-cause 5 when the two fields do not lie
inside the first BLEN bits; and else VAL_C is the WIDTH_C bits of BUF from bit OFFSET on and VAL_D the WIDTH_D bits after them, both NEG
bits are 0, and nothing else but STATUS, ERRINFO and PENDING changes. -/
def Obligations.PartDecDecodes : Prop :=
  decode 0x00000031 = .ok .partDec ∧
  ∀ s : State,
    let b := s.block
    let n := b.blen.toNat
    let off := b.offset.toNat
    let wc := b.widthC.toNat
    let wd := b.widthD.toNat
    if 256 < n then exec .partDec s = .next { s with block := b.failedWith 1 6 0 0 }
    else if n < off + wc + wd then exec .partDec s = .next { s with block := b.failedWith 1 5 0 0 }
    else exec .partDec s = .next { s with
      block := { b with
        valC := BitVec.ofNat 256 (b.buf.toNat / 2 ^ (256 - (off + wc)) % 2 ^ wc)
        valD := BitVec.ofNat 256 (b.buf.toNat / 2 ^ (256 - (off + wc + wd)) % 2 ^ wd)
        vneg := { negC := false, negD := false } }.succeeded }

/-- 42_partition.md R171 (with R162, R163), SPART_ENC, the word 0x00000038: the width check, the CLEN check, the c field as PART_ENC, then
(not when DDIG is 0) the first character outside the alphabet and a text too long; and else BUF holds PV in 3 bits, the c field, the groups
of the text (none when DDIG is 0) and zeros after them, BLEN is 3 + WIDTH_C + WIDTH_D, and nothing else but STATUS, ERRINFO and PENDING
changes. -/
def Obligations.SpartEncEncodes : Prop :=
  decode 0x00000038 = .ok .spartEnc ∧
  ∀ s : State,
    let b := s.block
    let wc := b.widthC.toNat
    let wd := b.widthD.toNat
    let c := if b.pctl.cdig = 0 then 0 else b.valC.toNat
    let m := if b.pctl.ddig = 0 then 0 else b.clen.toNat
    if 256 < 3 + wc + wd then exec .spartEnc s = .next { s with block := b.failedWith 1 4 0 0 }
    else if 36 < b.clen.toNat then exec .spartEnc s = .next { s with block := b.failedWith 1 7 0 0 }
    else if b.pctl.cdig ≠ 0 ∧ b.vneg.negC = true then exec .spartEnc s = .next { s with block := b.failedWith 1 1 1 0 }
    else if 2 ^ wc ≤ c then exec .spartEnc s = .next { s with block := b.failedWith 1 2 1 0 }
    else
      (∃ j < m, (∀ i < j, inAlphabet (b.charAt i) = true) ∧ inAlphabet (b.charAt j) = false ∧
        exec .spartEnc s = .next { s with block := b.failedWith 2 8 2 j }) ∨
      ((∀ i < m, inAlphabet (b.charAt i) = true) ∧
        if wd < 7 * m then exec .spartEnc s = .next { s with block := b.failedWith 1 3 2 0 }
        else exec .spartEnc s = .next { s with
          block := { b with
            buf := BitVec.ofNat 256
              (((b.pctl.pv.toNat * 2 ^ wc + c) * 2 ^ (7 * m) + b.textNumber m) * 2 ^ (256 - (3 + wc + 7 * m)))
            blen := BitVec.ofNat 9 (3 + wc + wd) }.succeeded })

/-- 42_partition.md R172, SPART_DEC, the word 0x00000039: sub-causes 6 and 5 as PART_DEC; else the groups of the d field are read as STR_DEC
reads its string, with FIELD 2: a text gives CBUF, CLEN, VAL_C and NEG_C 0, an error leaves VAL_C unchanged too. -/
def Obligations.SpartDecDecodes : Prop :=
  decode 0x00000039 = .ok .spartDec ∧
  ∀ s : State,
    let b := s.block
    let n := b.blen.toNat
    let off := b.offset.toNat
    let wc := b.widthC.toNat
    let wd := b.widthD.toNat
    let group := groupValue b.buf (off + wc) wd
    if 256 < n then exec .spartDec s = .next { s with block := b.failedWith 1 6 0 0 }
    else if n < off + wc + wd then exec .spartDec s = .next { s with block := b.failedWith 1 5 0 0 }
    else ∃ p, (∀ k < p, 7 * k + 7 ≤ wd ∧ inAlphabet (group k) = true) ∧
      if wd ≤ 7 * p ∨ group p = 0 then exec .spartDec s = .next { s with
        block := { b with
          valC := BitVec.ofNat 256 (b.buf.toNat / 2 ^ (256 - (off + wc)) % 2 ^ wc)
          vneg := { negC := false, negD := b.vneg.negD }
          cbuf := groupText b.buf (off + wc) wd p
          clen := BitVec.ofNat 8 p }.succeeded }
      else if wd < 7 * p + 7 then exec .spartDec s = .next { s with block := b.failedWith 2 10 2 p }
      else inAlphabet (group p) = false ∧ exec .spartDec s = .next { s with block := b.failedWith 2 9 2 p }

/-! ## Commands that run to success -/

/-- The encode commands complete with their own effect, for every state whose operands fit (40_integer.md R111; 41_string.md R134, R138;
42_partition.md R161, R171): DONE is 1, ERR and ERRINFO are 0, BLEN is the width of the field, and every register outside the "writes"
column of 10_state.md R46 is unchanged. -/
def Obligations.EncodersSucceedWhenOperandsFit : Prop :=
  ∀ s : State,
    let b := s.block
    let textFits := b.clen.toNat ≤ 36 ∧ ∀ i < b.clen.toNat, inAlphabet (b.charAt i) = true
    let cFits := b.pctl.cdig = 0 ∨ (b.vneg.negC = false ∧ b.valC.toNat < 2 ^ b.widthC.toNat)
    let dFits := b.pctl.ddig = 0 ∨ (b.vneg.negD = false ∧ b.valD.toNat < 2 ^ b.widthD.toNat)
    let fits := 3 + b.widthC.toNat + b.widthD.toNat ≤ 256
    let good (i : Instr) (t : State) :=
      exec i s = .next t ∧ keepsUnwritten i t.block b ∧ t = { s with block := t.block } ∧
        t.block.status = { busy := false, done := true, err := false, errcode := 0, coll := b.status.coll } ∧
        t.block.errinfo = { sub := 0, field := 0, index := 0 } ∧ t.block.pending = none
    (b.widthC.toNat ≤ 256 → b.vneg.negC = false → b.valC.toNat < 2 ^ b.widthC.toNat →
      ∃ t, good .intEnc t ∧ t.block.blen = b.widthC) ∧
    (b.widthC.toNat ≤ 256 → textFits → 7 * b.clen.toNat ≤ b.widthC.toNat → ∃ t, good .strEnc t ∧ t.block.blen = b.widthC) ∧
    (textFits → ∃ t, good .strUrlenc t ∧ b.clen.toNat ≤ t.block.ulen.toNat ∧ t.block.ulen.toNat ≤ 3 * b.clen.toNat) ∧
    (fits → cFits → dFits → ∃ t, good .partEnc t ∧ t.block.blen.toNat = 3 + b.widthC.toNat + b.widthD.toNat) ∧
    (fits → cFits → b.clen.toNat ≤ 36 → (b.pctl.ddig = 0 ∨ (textFits ∧ 7 * b.clen.toNat ≤ b.widthD.toNat)) →
      ∃ t, good .spartEnc t ∧ t.block.blen.toNat = 3 + b.widthC.toNat + b.widthD.toNat)

/-- The decode commands complete with their own effect, for every state whose input lies in BUF (40_integer.md R112; 41_string.md R136;
42_partition.md R165, R172): DONE is 1, ERR and ERRINFO are 0, and every register outside the "writes" column of 10_state.md R46 is
unchanged. For a text, the groups before a zero group or the end are full and in the alphabet. -/
def Obligations.DecodersSucceedOnGoodInput : Prop :=
  ∀ s : State,
    let b := s.block
    let sliceFits := b.offset.toNat + b.widthC.toNat + b.widthD.toNat ≤ b.blen.toNat
    let textAt (start n p : Nat) := 7 * p ≤ n ∧ (∀ k < p, inAlphabet (groupValue b.buf start n k) = true) ∧
      (7 * p = n ∨ groupValue b.buf start n p = 0)
    let good (i : Instr) (t : State) :=
      exec i s = .next t ∧ keepsUnwritten i t.block b ∧ t = { s with block := t.block } ∧
        t.block.status = { busy := false, done := true, err := false, errcode := 0, coll := b.status.coll } ∧
        t.block.errinfo = { sub := 0, field := 0, index := 0 } ∧ t.block.pending = none
    b.blen.toNat ≤ 256 →
      (∃ t, good .intDec t ∧ t.block.vneg.negC = false ∧ t.block.valC.toNat < 2 ^ b.blen.toNat) ∧
      (∀ p, textAt 0 b.blen.toNat p → ∃ t, good .strDec t ∧ t.block.clen.toNat = p) ∧
      (sliceFits → ∃ t, good .partDec t ∧ t.block.valC.toNat < 2 ^ b.widthC.toNat ∧ t.block.valD.toNat < 2 ^ b.widthD.toNat) ∧
      (∀ p, sliceFits → textAt (b.offset.toNat + b.widthC.toNat) b.widthD.toNat p →
        ∃ t, good .spartDec t ∧ t.block.clen.toNat = p ∧ t.block.valC.toNat < 2 ^ b.widthC.toNat)

/-! ## Round trips -/

/-- 40_integer.md R113: INT_ENC then INT_DEC restores VAL_C, and INT_DEC then INT_ENC with WIDTH_C = BLEN restores BUF[0..BLEN). -/
def Obligations.IntegerRoundTrip : Prop :=
  (∀ s : State, s.block.widthC.toNat ≤ 256 → s.block.valC.toNat < 2 ^ s.block.widthC.toNat → s.block.vneg.negC = false →
    ∃ t u, exec .intEnc s = .next t ∧ exec .intDec t = .next u ∧
      u.block.valC = s.block.valC ∧ u.block.vneg.negC = false ∧ u.block.blen = s.block.widthC) ∧
  (∀ s : State, s.block.blen.toNat ≤ 256 → s.block.widthC = s.block.blen →
    ∃ t u, exec .intDec s = .next t ∧ exec .intEnc t = .next u ∧ u.block.blen = s.block.blen ∧
      slice (bufString u.block.buf) 0 s.block.blen.toNat = slice (bufString s.block.buf) 0 s.block.blen.toNat)

/-- 41_string.md R139: every group inside the text of `senc(t, w)` is at least 0x21, so none is zero, `sdec(senc(t, w), f) = t`,
STR_ENC then STR_DEC restores the text and CLEN; `sdec` discards whatever follows the first zero group, so STR_DEC then STR_ENC with
WIDTH_C = BLEN need not restore BUF[0..BLEN). -/
def Obligations.TextRoundTrip : Prop :=
  (∀ (t : Text) (w : Nat) (f : ErrField), (∀ ch ∈ t, inAlphabet ch.toNat = true) → 7 * t.length ≤ w →
    (∀ k < t.length, 0x21 ≤ val (slice (senc t w) (7 * k) (7 * k + 7))) ∧ sdec (senc t w) f = .ok t) ∧
  (∀ s : State, s.block.widthC.toNat ≤ 256 → s.block.clen.toNat ≤ 36 → 7 * s.block.clen.toNat ≤ s.block.widthC.toNat →
    (∀ i < s.block.clen.toNat, inAlphabet (s.block.charAt i) = true) →
    ∃ t u, exec .strEnc s = .next t ∧ exec .strDec t = .next u ∧ u.block.clen = s.block.clen ∧
      u.block.cbuf.toList.take s.block.clen.toNat = s.block.cbuf.toList.take s.block.clen.toNat) ∧
  (∀ (t : Text) (dropped : BitString) (f : ErrField), (∀ ch ∈ t, inAlphabet ch.toNat = true) →
    sdec (senc t (7 * t.length + 7) ++ dropped) f = .ok t) ∧
  (∃ s t u : State, s.block.blen.toNat ≤ 256 ∧ s.block.widthC = s.block.blen ∧ exec .strDec s = .next t ∧ exec .strEnc t = .next u ∧
    t.block.status.err = false ∧ u.block.status.err = false ∧ u.block.blen = s.block.blen ∧
    slice (bufString u.block.buf) 0 s.block.blen.toNat ≠ slice (bufString s.block.buf) 0 s.block.blen.toNat)

/-- 42_partition.md R166: PART_ENC then PART_DEC with OFFSET 3 gives both values back (0 for a field of digit count 0), and the first three
bits of the field are PV. -/
def Obligations.PartitionRoundTrip : Prop :=
  ∀ s : State,
    let b := s.block
    3 + b.widthC.toNat + b.widthD.toNat ≤ 256 → b.offset = 3 →
    b.valC.toNat < 2 ^ b.widthC.toNat → b.valD.toNat < 2 ^ b.widthD.toNat → b.vneg = { negC := false, negD := false } →
    ∃ t u, exec .partEnc s = .next t ∧ exec .partDec t = .next u ∧
      u.block.valC = (if b.pctl.cdig = 0 then 0 else b.valC) ∧ u.block.valD = (if b.pctl.ddig = 0 then 0 else b.valD) ∧
      val (slice (bufString t.block.buf) 0 3) = b.pctl.pv.toNat ∧ (readWord t.block (.buf 0)).extractLsb' 29 3 = b.pctl.pv

/-- 42_partition.md R173: SPART_ENC then SPART_DEC with OFFSET 3 gives the c value (0 for digit count 0) and the text (empty for digit
count 0) back. -/
def Obligations.StringPartitionRoundTrip : Prop :=
  ∀ s : State,
    let b := s.block
    3 + b.widthC.toNat + b.widthD.toNat ≤ 256 → b.offset = 3 → b.valC.toNat < 2 ^ b.widthC.toNat → b.vneg.negC = false →
    b.clen.toNat ≤ 36 → 7 * b.clen.toNat ≤ b.widthD.toNat → (∀ i < b.clen.toNat, inAlphabet (b.charAt i) = true) →
    ∃ t u, exec .spartEnc s = .next t ∧ exec .spartDec t = .next u ∧
      u.block.valC = (if b.pctl.cdig = 0 then 0 else b.valC) ∧
      u.block.cbuf.toList.take u.block.clen.toNat = (if b.pctl.ddig = 0 then [] else b.cbuf.toList.take b.clen.toNat)

/-! ## What a command reads, writes and reports -/

/-- 10_state.md R46: a command writes no register outside its "writes" column (and STATUS, ERRINFO, PENDING), none of that column when it
fails, and two states that agree on its "reads" column get the same report and, on success, the same results. -/
def Obligations.ReadsAndWritesTheirColumns : Prop :=
  ∀ (i : Instr) (s s' : State), ∃ t t', exec i s = .next t ∧ exec i s' = .next t' ∧
    keepsUnwritten i t.block s.block ∧
    (t.block.status.err = true → agreeOnWrites i t.block s.block) ∧
    (agreeOnReads i s.block s'.block →
      t.block.status.err = t'.block.status.err ∧ t.block.status.errcode = t'.block.status.errcode ∧
      t.block.errinfo = t'.block.errinfo ∧ (t.block.status.err = false → agreeOnWrites i t.block t'.block))

/-- 10_state.md R26: every issue writes BUSY 1 and DONE, ERR, ERRCODE 0; every completion writes BUSY 0, DONE 1 and either ERR 0, ERRCODE 0
or ERR 1 and a code that is not 0; neither writes COLL. -/
def Obligations.StatusFlagsOfEveryCommand : Prop :=
  (∀ (i : Instr) (s t : State), exec i s = .next t →
    t.block.status.busy = false ∧ t.block.status.done = true ∧ t.block.status.coll = s.block.status.coll ∧
    ((t.block.status.err = false ∧ t.block.status.errcode = 0) ∨ (t.block.status.err = true ∧ t.block.status.errcode ≠ 0))) ∧
  (∀ (s : State) (agent : Nat) (w : Word) (rest : List Input), s.block.pending = none →
    s.hostTurn agent (.write 0x008 (.word w)) rest → ∃ t, step s = .next t ∧
      t.block.status = { busy := true, done := false, err := false, errcode := 0, coll := s.block.status.coll })

/-- 60_exceptions.md R203: a command that fails writes only STATUS.ERR, ERRCODE, ERRINFO and the BUSY, DONE and PENDING updates; every
result register, every operand register and CMD keep their values. The error is one 60_exceptions.md R202 lists. -/
def Obligations.FailureWritesOnlyTheReport : Prop :=
  ∀ (i : Instr) (s t : State), exec i s = .next t → t.block.status.err = true →
    ∃ e : CmdError, e.legal = true ∧
      t = { s with block := s.block.failedWith e.sub.errcode e.sub.number e.field.number e.index } ∧ t.block.cmd = s.block.cmd

/-- 60_exceptions.md R202, column "commands": each command reports only the sub-causes of its rows, or none. -/
def Obligations.CommandsReportTheirOwnSubCauses : Prop :=
  ∀ (i : Instr) (s t : State), exec i s = .next t →
    t.block.errinfo.sub.toNat ∈
      match i with
      | .intEnc => [0, 1, 2, 4]
      | .intDec => [0, 6]
      | .strEnc => [0, 3, 4, 7, 8]
      | .strDec => [0, 6, 9, 10]
      | .strUrlenc => [0, 7, 8]
      | .partEnc => [0, 1, 2, 4]
      | .partDec => [0, 5, 6]
      | .spartEnc => [0, 1, 2, 3, 4, 7, 8]
      | .spartDec => [0, 5, 6, 9, 10]

/-- Decision D32 (10_state.md R35): a decode command never reads a bit of BUF at or beyond BLEN: changing those bits changes nothing but
those bits. -/
def Obligations.DecodersIgnoreBitsPastBlen : Prop :=
  ∀ (i : Instr) (s t : State) (x : BitVec 256), i ∈ [.intDec, .strDec, .partDec, .spartDec] →
    (∀ j < s.block.blen.toNat, x.getMsbD j = s.block.buf.getMsbD j) → exec i s = .next t →
    exec i { s with block := { s.block with buf := x } } = .next { t with block := { t.block with buf := x } }

/-- 10_state.md R37: a command that reads a text never reads a character of CBUF at or beyond CLEN. -/
def Obligations.EncodersIgnoreCharactersPastClen : Prop :=
  ∀ (i : Instr) (s t : State) (x : Vector Byte 36), i ∈ [.strEnc, .strUrlenc, .spartEnc] →
    (∀ j : Fin 36, j.val < s.block.clen.toNat → x[j] = s.block.cbuf[j]) → exec i s = .next t →
    exec i { s with block := { s.block with cbuf := x } } = .next { t with block := { t.block with cbuf := x } }

/-- 42_partition.md R162: a field whose digit count is 0 is encoded the same whatever its operand registers hold: VAL_C and NEG_C for the c
field, VAL_D and NEG_D for the d field of PART_ENC, the characters of CBUF for that of SPART_ENC. -/
def Obligations.ForcedFieldsIgnoreTheirOperands : Prop :=
  (∀ (i : Instr) (s t : State) (v : BitVec 256) (n : Bool), i ∈ [.partEnc, .spartEnc] → s.block.pctl.cdig = 0 → exec i s = .next t →
    exec i { s with block := { s.block with valC := v, vneg := { s.block.vneg with negC := n } } } =
      .next { t with block := { t.block with valC := v, vneg := { t.block.vneg with negC := n } } }) ∧
  (∀ (s t : State) (v : BitVec 256) (n : Bool), s.block.pctl.ddig = 0 → exec .partEnc s = .next t →
    exec .partEnc { s with block := { s.block with valD := v, vneg := { s.block.vneg with negD := n } } } =
      .next { t with block := { t.block with valD := v, vneg := { t.block.vneg with negD := n } } }) ∧
  (∀ (s t : State) (x : Vector Byte 36), s.block.pctl.ddig = 0 → exec .spartEnc s = .next t →
    exec .spartEnc { s with block := { s.block with cbuf := x } } = .next { t with block := { t.block with cbuf := x } })

/-- 42_partition.md R170, last sentence: the string-variant commands neither read nor write VAL_D and NEG_D. -/
def Obligations.StringVariantLeavesValDAlone : Prop :=
  ∀ (i : Instr) (s t : State) (v : BitVec 256) (n : Bool), i ∈ [.spartEnc, .spartDec] → exec i s = .next t →
    t.block.valD = s.block.valD ∧ t.block.vneg.negD = s.block.vneg.negD ∧
    exec i { s with block := { s.block with valD := v, vneg := { s.block.vneg with negD := n } } } =
      .next { t with block := { t.block with valD := v, vneg := { t.block.vneg with negD := n } } }

/-- 70_reset_and_hazards.md R233: a PART_ENC issued straight after reset gives BLEN = 3 and BUF word 0 = 0x00000000, with DONE and no
error. `withFetchWord` stands for the issue (log entry 3). -/
def Obligations.PartEncStraightAfterReset : Prop :=
  ∃ t, step (State.reset.withFetchWord 32 0x30) = .next t ∧ readWord t.block .blen = 3 ∧ readWord t.block (.buf 0) = 0 ∧
    readWord t.block .status = 0x00000002

/-! ## The alphabet and the escapes -/

/-- 41_string.md R130: the alphabet is the 82 characters written out, which are the values 0x21 to 0x7A but eight, and no other value is in
it. -/
def Obligations.AlphabetIsTheWrittenOne : Prop :=
  (∀ x : Nat, inAlphabet x = true ↔ x ∈ alphabetText.toList.map Char.toNat) ∧ alphabetText.toList.length = 82 ∧
  (∀ x : Nat, inAlphabet x = true ↔ 0x21 ≤ x ∧ x ≤ 0x7A ∧ x ∉ [0x23, 0x24, 0x40, 0x5B, 0x5C, 0x5D, 0x5E, 0x60])

/-- 41_string.md R132: the seven reserved characters have their written escapes, and every other character stands for itself. -/
def Obligations.EscapesAreTheWrittenOnes : Prop := ∀ ch : Byte, escapeChar ch = uriChar ch

/-- 41_string.md R138: the output of STR_URLENC is never ambiguous: two texts over the alphabet with one URI form are one text. -/
def Obligations.UriFormIsUnambiguous : Prop :=
  ∀ t u : Text, (∀ ch ∈ t, inAlphabet ch.toNat = true) → (∀ ch ∈ u, inAlphabet ch.toNat = true) → uenc t = uenc u → t = u

/-! ## The register window

In the statements about a step, `hostTurn` and `afterAccess` speak of the model's own fields too: the inputs, the responses, the host agent
and the accesses LAT still allows (log entries 1 and 5); an access at the head of the inputs reaches the block as it stands (log entry 12). -/

/-- 20_memory.md R61: the accesses that are admitted are the aligned word accesses of the listed offsets, of a register that is not
read-only for a write; and at each offset where 10_state.md R21 places a register of one word, it is that register which an access reads or
writes. The words of the five buffers stand where BufBitOrder, ValueWordOrder and CharacterByteOrder say. -/
def Obligations.AdmittedAccesses : Prop :=
  (∀ a : Access, (admittedTransfer a).isSome = a.admittedByRule) ∧
  ∀ (off : BitVec 12) (r : RegWord),
    (off, r) ∈ [((0x000 : BitVec 12), RegWord.id), (0x004, .param), (0x008, .cmd), (0x00C, .status), (0x010, .errinfo),
      (0x014, .widthC), (0x018, .widthD), (0x01C, .offset), (0x020, .pctl), (0x024, .vneg), (0x028, .blen), (0x02C, .clen),
      (0x030, .ulen)] →
    r.accessOffset = off ∧ admittedTransfer (.read off .word) = some (.read r) ∧
      ∀ v : Word, admittedTransfer (.write off (.word v)) =
        if r ∈ [RegWord.id, .param, .errinfo, .ulen] then none else some (.write r v)

/-- 20_memory.md R62 and R70: an access that is not admitted gets the bus error response and changes no state of the block, whether or not
a command is pending; the host goes on after it (log entry 2). -/
def Obligations.BusErrorChangesNothing : Prop :=
  ∀ (s : State) (agent : Nat) (a : Access) (rest : List Input), s.hostTurn agent a rest → a.admittedByRule = false →
    step s = .next (s.afterAccess agent rest .busError s.block)

/-- 20_memory.md R67: an admitted read returns the current value of the word and changes no state of the block. -/
def Obligations.ReadsHaveNoSideEffect : Prop :=
  ∀ (s : State) (agent : Nat) (r : RegWord) (rest : List Input), s.hostTurn agent (.read r.accessOffset .word) rest →
    step s = .next (s.afterAccess agent rest (.data (readWord s.block r)) s.block)

/-- 10_state.md R43: every bit that R21 shows as 0 reads as zero, and a written word acts on the block only through its writable bits; all
32 bits of CMD are stored by the write that issues. Every field of a register of one word stands at the bits that R21 gives it (STATUS in
R25, ERRINFO in R27, PCTL in R31, VNEG in R32), and a write takes each writable field from those bits. -/
def Obligations.ReservedBitsReadZeroAndIgnoreWrites : Prop :=
  (∀ (b : Block) (r : RegWord) (v : Word),
    readWord b r &&& ~~~r.shownBits = 0 ∧ storeWord b v r = storeWord b (v &&& r.writableBits) r ∧ readWord (b.issue v) .cmd = v) ∧
  (∀ b : Block,
    (readWord b .status).getLsbD 0 = b.status.busy ∧ (readWord b .status).getLsbD 1 = b.status.done ∧
    (readWord b .status).getLsbD 2 = b.status.err ∧ (readWord b .status).extractLsb' 4 4 = b.status.errcode ∧
    (readWord b .status).getLsbD 8 = b.status.coll ∧
    (readWord b .errinfo).extractLsb' 0 4 = b.errinfo.sub ∧ (readWord b .errinfo).extractLsb' 4 2 = b.errinfo.field ∧
    (readWord b .errinfo).extractLsb' 8 8 = b.errinfo.index ∧
    (readWord b .pctl).extractLsb' 0 3 = b.pctl.pv ∧ (readWord b .pctl).extractLsb' 8 5 = b.pctl.cdig ∧
    (readWord b .pctl).extractLsb' 16 5 = b.pctl.ddig ∧
    (readWord b .vneg).getLsbD 0 = b.vneg.negC ∧ (readWord b .vneg).getLsbD 1 = b.vneg.negD ∧
    readWord b .cmd = b.cmd ∧
    (readWord b .widthC).extractLsb' 0 9 = b.widthC ∧ (readWord b .widthD).extractLsb' 0 9 = b.widthD ∧
    (readWord b .offset).extractLsb' 0 9 = b.offset ∧ (readWord b .blen).extractLsb' 0 9 = b.blen ∧
    (readWord b .clen).extractLsb' 0 8 = b.clen ∧ (readWord b .ulen).extractLsb' 0 8 = b.ulen) ∧
  (∀ (b : Block) (v : Word),
    storeWord b v .status = { b with status := { b.status with coll := b.status.coll && !v.getLsbD 8 } } ∧
    storeWord b v .pctl = { b with pctl := { pv := v.extractLsb' 0 3, cdig := v.extractLsb' 8 5, ddig := v.extractLsb' 16 5 } } ∧
    storeWord b v .vneg = { b with vneg := { negC := v.getLsbD 0, negD := v.getLsbD 1 } } ∧
    storeWord b v .widthC = { b with widthC := v.extractLsb' 0 9 } ∧ storeWord b v .widthD = { b with widthD := v.extractLsb' 0 9 } ∧
    storeWord b v .offset = { b with offset := v.extractLsb' 0 9 } ∧ storeWord b v .blen = { b with blen := v.extractLsb' 0 9 } ∧
    storeWord b v .clen = { b with clen := v.extractLsb' 0 8 })

/-- 20_memory.md R68: an accepted write of a register other than CMD and STATUS stores the writable bits of the word, and every other word
of the window, PENDING and the rest of the block keep their values. -/
def Obligations.WriteThenReadBack : Prop :=
  ∀ (s : State) (agent : Nat) (r : RegWord) (v : Word) (rest : List Input), s.block.pending = none →
    r.readOnly = false → r ≠ .cmd → r ≠ .status → s.hostTurn agent (.write r.accessOffset (.word v)) rest →
    ∃ b, step s = .next (s.afterAccess agent rest .written b) ∧ readWord b r = v &&& r.writableBits ∧
      (∀ r', r' ≠ r → readWord b r' = readWord s.block r') ∧ b.pending = none

/-- 10_state.md R44: a write of CMD while no command is pending issues it, and changes nothing but CMD, PENDING, BUSY, DONE, ERR, ERRCODE
and ERRINFO; the LAT of the command is drawn (log entry 1). -/
def Obligations.CmdWriteIssues : Prop :=
  ∀ (s : State) (agent : Nat) (w : Word) (rest : List Input), s.block.pending = none →
    s.hostTurn agent (.write 0x008 (.word w)) rest →
    step s = .next { s.afterAccess agent rest .written { s.block with
        cmd := w
        pending := some w
        status := { busy := true, done := false, err := false, errcode := 0, coll := s.block.status.coll }
        errinfo := { sub := 0, field := 0, index := 0 } } with
      latencies := s.latencies.tail, latLeft := s.nextLatency, draws := s.draws + 1 }

/-- 20_memory.md R69: an admitted write of a register other than STATUS while a command is pending, CMD included, completes without a bus
error, sets COLL and changes nothing else. -/
def Obligations.BusyWriteIsDropped : Prop :=
  ∀ (s : State) (agent : Nat) (w : Word) (r : RegWord) (v : Word) (rest : List Input), s.block.pending = some w →
    r.readOnly = false → r ≠ .status → s.hostTurn agent (.write r.accessOffset (.word v)) rest →
    step s = .next (s.afterAccess agent rest .written { s.block with status := { s.block.status with coll := true } })

/-- 10_state.md R25: a write of STATUS, whether or not BUSY = 1, clears COLL if bit 8 of the word is 1 and changes nothing else. -/
def Obligations.StatusWriteChangesOnlyColl : Prop :=
  ∀ (s : State) (agent : Nat) (v : Word) (rest : List Input), s.hostTurn agent (.write 0x00C (.word v)) rest →
    step s = .next (s.afterAccess agent rest .written { s.block with
      status := { s.block.status with coll := if v.getLsbD 8 = true then false else s.block.status.coll } })

/-- 20_memory.md R64: bit `i` of BUF is bit `31 - (i mod 32)` of the word at 0x100 + 4 (i div 32), and word `k` as a number is the value of
bits 32k to 32k+31 of the string. -/
def Obligations.BufBitOrder : Prop :=
  (∀ (b : Block) (i : Nat) (h : i < 256),
    (bufString b.buf)[i]? = some ((readWord b (.buf ⟨i / 32, by omega⟩)).getLsbD (31 - i % 32)) ∧
    (RegWord.buf ⟨i / 32, by omega⟩).byteOffset = 0x100 + 4 * (i / 32)) ∧
  (∀ (b : Block) (k : Fin 8), (readWord b (.buf k)).toNat = val (slice (bufString b.buf) (32 * k.val) (32 * k.val + 32)))

/-- 20_memory.md R65: word `k` of a value register, at its base + 4k, is bits [32k+31:32k] of the magnitude. -/
def Obligations.ValueWordOrder : Prop :=
  ∀ (b : Block) (k : Fin 8),
    (RegWord.valC k).byteOffset = 0x040 + 4 * k.val ∧ (readWord b (.valC k)).toNat = b.valC.toNat / 2 ^ (32 * k.val) % 2 ^ 32 ∧
    (RegWord.valD k).byteOffset = 0x060 + 4 * k.val ∧ (readWord b (.valD k)).toNat = b.valD.toNat / 2 ^ (32 * k.val) % 2 ^ 32

/-- 20_memory.md R66: character `j` of CBUF or UBUF is bits [8(j mod 4)+7 : 8(j mod 4)] of the word at its base + 4 (j div 4). -/
def Obligations.CharacterByteOrder : Prop :=
  ∀ b : Block,
    (∀ (j : Nat) (h : j < 36), (readWord b (.cbuf ⟨j / 4, by omega⟩)).extractLsb' (8 * (j % 4)) 8 = b.cbuf[j] ∧
      (RegWord.cbuf ⟨j / 4, by omega⟩).byteOffset = 0x200 + 4 * (j / 4)) ∧
    (∀ (j : Nat) (h : j < 108), (readWord b (.ubuf ⟨j / 4, by omega⟩)).extractLsb' (8 * (j % 4)) 8 = b.ubuf[j] ∧
      (RegWord.ubuf ⟨j / 4, by omega⟩).byteOffset = 0x300 + 4 * (j / 4))

/-- 10_state.md R22 and R23: ID and PARAM read their constants at all times; PARAM gives BUF_BITS and MAX_CHARS, and UBUF_CHARS is three
times MAX_CHARS. -/
def Obligations.IdAndParamAreConstant : Prop :=
  ∀ b : Block, readWord b .id = 0x45504301 ∧ readWord b .param = 0x00240100 ∧
    ((readWord b .param).extractLsb' 0 16).toNat = Config.bufBits ∧ ((readWord b .param).extractLsb' 16 8).toNat = Config.maxChars ∧
    Config.ubufChars = 3 * Config.maxChars

/-- 30_encoding.md R100: LDVAL with a value below 2^256, LDBITS with at most 256 bits, LDTEXT with at most 36 characters and LDPCTL with
fields in range, run while the block is idle, load their registers and nothing else: VAL_C or VAL_D; BLEN and BUF; CLEN and CBUF; PCTL. The
ranges of LDPCTL's operands are those of PCTL's fields (log entry 9). -/
def Obligations.LoadPseudoInstructionsLoad : Prop :=
  ∀ (s : State) (agent : Nat) (line : HostLine) (rest : List Input), line.wellFormed = true →
    s.block.pending = none → s.otherHost agent = false → s.inputs = hostInputs agent [line] ++ rest →
    let runsTo (n : Nat) (b : Block) := ∃ t, Host.Core.run core n s = .next t ∧ t.block = b ∧ t.inputs = rest ∧
      t.responses = s.responses ++ List.replicate n .written
    match line with
    | .ldval .c v => runsTo 8 { s.block with valC := BitVec.ofNat 256 v }
    | .ldval .d v => runsTo 8 { s.block with valD := BitVec.ofNat 256 v }
    | .ldbits x => runsTo 9 { s.block with
        blen := BitVec.ofNat 9 x.length, buf := bufOfString (x ++ zeros (256 - x.length)) }
    | .ldtext x => runsTo 10 { s.block with clen := BitVec.ofNat 8 x.length, cbuf := Vector.ofFn fun j => x.getD j.val 0 }
    | .ldpctl pv cdig ddig => runsTo 1 { s.block with
        pctl := { pv := BitVec.ofNat 3 pv, cdig := BitVec.ofNat 5 cdig, ddig := BitVec.ofNat 5 ddig } }
    | _ => True

/-! ## Reset and invariants -/

/-- 70_reset_and_hazards.md R231: after reset ID and PARAM read their constants, every other word of the window reads 0, and no command is
pending. -/
def Obligations.ResetValues : Prop :=
  (∀ r : RegWord, readWord State.reset.block r =
    match r with
    | .id => 0x45504301
    | .param => 0x00240100
    | _ => 0) ∧
  State.reset.block.pending = none

/-- 70_reset_and_hazards.md R232: a reset abandons a pending command and leaves the block in the reset state, whatever access it cuts
off (log entry 6). -/
def Obligations.ResetAbandonsThePendingCommand : Prop :=
  ∀ (s : State) (cut : Option Access) (rest : List Input), s.inputs = .reset cut :: rest →
    (s.block.pending = none ∨ s.latLeft ≠ 0) →
    ∃ t, step s = .next t ∧ t.block = State.reset.block ∧ t.block.pending = none ∧ t.inputs = rest

/-- The invariant of the block holds at reset (10_state.md R25 to R27, R39, R40, R42). -/
def Obligations.InvariantAtReset : Prop := State.reset.Inv

/-- Every step keeps the invariant: BUSY is 1 exactly when a command is pending, DONE is 0 in between, ERR = 1 exactly when ERRCODE is not
0, ERRCODE and ERRINFO are 0 or one error of 60_exceptions.md R202, CMD holds the pending word, ULEN is at most 108 and UBUF is 0x00 from
ULEN on. -/
def Obligations.EveryStepKeepsTheInvariant : Prop :=
  ∀ s t : State, s.Inv → step s = .next t → t.Inv

/-- 10_state.md R25: COLL is sticky: a step that clears it is a reset or the host's write of STATUS with bit 8 = 1; a step that sets it is
a write that 20_memory.md R69 drops. -/
def Obligations.CollIsSticky : Prop :=
  ∀ s t : State, step s = .next t →
    (s.block.status.coll = true → t.block.status.coll = false →
      (∃ cut rest, s.inputs = .reset cut :: rest) ∨
      (∃ agent v rest, s.inputs = .host agent (.access (.write 0x00C (.word v))) :: rest ∧ v.getLsbD 8 = true)) ∧
    (s.block.status.coll = false → t.block.status.coll = true →
      s.block.pending.isSome = true ∧ ∃ agent a rest, s.inputs = .host agent (.access a) :: rest ∧ a.writesOther = true)

/-- 10_state.md R24: writing CMD while idle is the only way to start a command, and CMD then holds the word written. -/
def Obligations.OnlyACmdWriteStartsACommand : Prop :=
  ∀ (s t : State) (w : Word), step s = .next t → t.block.pending = some w → s.block.pending ≠ some w →
    s.block.pending = none ∧ t.block.cmd = w ∧ ∃ agent rest, s.inputs = .host agent (.access (.write 0x008 (.word w))) :: rest

/-- 10_state.md R39 and R40: UBUF and ULEN change only when a pending STR_URLENC completes, or by reset. -/
def Obligations.OnlyUrlencWritesUbuf : Prop :=
  ∀ s t : State, step s = .next t → (t.block.ubuf ≠ s.block.ubuf ∨ t.block.ulen ≠ s.block.ulen) →
    (s.block.pending = some 0x00000022 ∧ t.block.pending = none ∧ t.block.status.err = false) ∨
    (∃ cut rest, s.inputs = .reset cut :: rest)

/-- 10_state.md R28 to R31: WIDTH_C, WIDTH_D, OFFSET and PCTL change only by a host write while no command is pending, or by reset; no
completion changes them. -/
def Obligations.OnlyTheHostWritesOperandFields : Prop :=
  ∀ s t : State, step s = .next t →
    (t.block.widthC ≠ s.block.widthC ∨ t.block.widthD ≠ s.block.widthD ∨ t.block.offset ≠ s.block.offset ∨
      t.block.pctl ≠ s.block.pctl) →
    (s.block.pending = none ∧ ∃ agent a rest, s.inputs = .host agent (.access a) :: rest ∧ a.writesOther = true) ∨
    (∃ cut rest, s.inputs = .reset cut :: rest)

/-- 10_state.md R45: between the issue and the completion of a command nothing of the block changes but COLL, unless it is reset; so the
command completes on the operands it was issued with. -/
def Obligations.OperandsFrozenWhilePending : Prop :=
  ∀ (s t : State) (w : Word), s.block.pending = some w → step s = .next t → t.block.pending = some w →
    t.block = { s.block with status := { s.block.status with coll := t.block.status.coll } } ∧
    ∀ i, ∃ u u', exec i s = .next u ∧ exec i t = .next u' ∧
      u'.block = { u.block with status := { u.block.status with coll := t.block.status.coll } }

/-- 20_memory.md R76: in a state that meets the invariant, a read of STATUS that returns BUSY = 0 finds no command pending, and one that
returns BUSY = 1 finds one. -/
def Obligations.StatusPollTellsCompletion : Prop :=
  ∀ (s : State) (agent : Nat) (rest : List Input), s.Inv → s.hostTurn agent (.read 0x00C .word) rest →
    ∃ (t : State) (w : Word), step s = .next t ∧ t.responses = s.responses ++ [.data w] ∧
      (w.getLsbD 0 = false ↔ s.block.pending = none)

/-- 60_exceptions.md R217: a model refuses a run with more than one host agent; the model refuses at the second agent's first
operation (log entry 5). -/
def Obligations.SecondHostIsRefused : Prop :=
  ∀ (s : State) (first second : Nat) (op : HostOp) (rest : List Input), s.hostAgent = some first → second ≠ first →
    s.inputs = .host second op :: rest → (s.block.pending = none ∨ s.latLeft ≠ 0) → step s = .refused (.secondHost second)

/-- 60_exceptions.md R223: with no command pending and nothing left to happen, every register keeps its value (log entry 8). -/
def Obligations.IdleBlockKeepsItsRegisters : Prop :=
  ∀ s : State, s.block.pending = none → s.inputs = [] → step s = .next s

/-! ## Latency -/

/-- 10_state.md R45 and 30_encoding.md R100: the WAIT loop ends: from any pending command, after LAT polls that return BUSY = 1, the
completion and one poll that returns BUSY = 0, the loop is left with the command completed. How many polls come
first is the LAT of log entry 1. -/
def Obligations.WaitLoopEnds : Prop :=
  ∀ (s : State) (w : Word) (agent : Nat) (rest : List Input), s.block.pending = some w → s.block.status.busy = true →
    s.otherHost agent = false → s.inputs = .host agent .wait :: rest →
    ∃ t polled, Host.Core.run core (s.latLeft + 2) s = .next t ∧ t.inputs = rest ∧
      engineStep s w = .next { s with block := t.block } ∧ t.block.pending = none ∧
      t.responses = s.responses ++ List.replicate s.latLeft (.data (readWord s.block .status)) ++ [.data polled] ∧
      polled.getLsbD 0 = false

/-- 70_reset_and_hazards.md R250: a program that keeps to R240 has the same end state of the block under every value of LAT: two runs
of one program from one block, whatever LAT each of their commands has (log entry 1). The program is a fixed list, so it closes each busy
window by the WAIT loop or by a reset (`keepsBusyWindow`), not by plain reads of STATUS whose number the data would decide. -/
def Obligations.EndStateIndependentOfLatency : Prop :=
  ∀ (s s' : State) (agent : Nat), s.block = s'.block → s.inputs = s'.inputs → s.hostAgent = s'.hostAgent →
    s.block.pending = none → s.block.Inv → s.otherHost agent = false → oneHost agent s.inputs = true →
    keepsBusyWindow false s.inputs = true →
    ∃ k k' t t', Host.Core.run core k s = .next t ∧ Host.Core.run core k' s' = .next t' ∧ t.inputs = [] ∧ t'.inputs = [] ∧
      t.block.pending = none ∧ t.block = t'.block
end

