-- ==== Sys2Proof/Laws/BitString.lean ====
section
/-! SUPPORT. What the primitives of 00_scope.md R7 to R10 do, once for all: lengths, values, slices, and BUF as a string. -/

namespace Sys2Proof.Machine

@[simp] theorem zeros_length (n : Nat) : (zeros n).length = n := List.length_replicate

theorem slice_length (s : BitString) (x y : Nat) (h : y ≤ s.length) : (slice s x y).length = y - x := by
  simp [slice]; omega

/-- `bitlen(v)` is the least `n` with `v < 2^n` (00_scope.md R8). -/
theorem bitlen_le_iff (v w : Nat) : bitlen v ≤ w ↔ v < 2 ^ w := by
  unfold bitlen
  by_cases h : v = 0
  · simp [h]
  · rw [if_neg h, Nat.succ_le_iff, Nat.log2_lt h]

theorem bitlen_gt_iff (v w : Nat) : bitlen v > w ↔ 2 ^ w ≤ v := by
  have := bitlen_le_iff v w
  omega

@[simp] theorem enc_length (v w : Nat) : (enc v w).length = w := by simp [enc]

theorem enc_getElem (v w i : Nat) (h : i < (enc v w).length) : (enc v w)[i] = v.testBit (w - 1 - i) := by simp [enc]

@[simp] theorem val_nil : val [] = 0 := rfl

theorem val_foldl (s : BitString) (n : Nat) :
    s.foldl (fun n b => 2 * n + b.toNat) n = n * 2 ^ s.length + val s := by
  induction s generalizing n with
  | nil => simp [val]
  | cons b s ih =>
    simp only [List.foldl_cons, List.length_cons, val, Nat.mul_zero, Nat.zero_add] at ih ⊢
    rw [ih, ih b.toNat]
    ring

theorem val_append (s t : BitString) : val (s ++ t) = val s * 2 ^ t.length + val t := by
  rw [val, List.foldl_append, val_foldl]; rfl

theorem val_cons (b : Bool) (s : BitString) : val (b :: s) = b.toNat * 2 ^ s.length + val s := by
  have := val_append [b] s
  simpa [val] using this

theorem val_lt (s : BitString) : val s < 2 ^ s.length := by
  induction s with
  | nil => simp
  | cons b s ih =>
    rw [val_cons, List.length_cons, pow_succ]
    cases b <;> simp <;> omega

@[simp] theorem val_zeros (n : Nat) : val (zeros n) = 0 := by
  induction n with
  | zero => rfl
  | succ n ih =>
    rw [zeros, List.replicate_succ, val_cons]
    simpa [zeros] using ih

theorem enc_succ (v w : Nat) : enc v (w + 1) = v.testBit w :: enc v w := by
  apply List.ext_getElem
  · simp
  · intro i h1 h2
    cases i with
    | zero => simp [enc_getElem]
    | succ i =>
      simp only [enc_getElem, List.getElem_cons_succ]
      congr 1
      omega

/-- `enc` keeps the low `w` bits: `val(enc(v, w))` (00_scope.md R10). -/
theorem val_enc_mod (v w : Nat) : val (enc v w) = v % 2 ^ w := by
  induction w with
  | zero => simp [enc, Nat.mod_one]
  | succ w ih =>
    rw [enc_succ, val_cons, ih, enc_length, Nat.mod_pow_succ, Nat.toNat_testBit]
    ring

/-- `val(enc(v, w)) = v` for `v < 2^w` (00_scope.md R10). -/
theorem val_enc (v w : Nat) (h : v < 2 ^ w) : val (enc v w) = v := by
  rw [val_enc_mod, Nat.mod_eq_of_lt h]

theorem val_injective (s t : BitString) (hl : s.length = t.length) (h : val s = val t) : s = t := by
  induction s generalizing t with
  | nil => cases t with
    | nil => rfl
    | cons _ _ => simp at hl
  | cons b s ih =>
    cases t with
    | nil => simp at hl
    | cons c t =>
      simp only [List.length_cons, Nat.add_right_cancel_iff] at hl
      rw [val_cons, val_cons, hl] at h
      have h1 := val_lt s
      have h2 := val_lt t
      rw [hl] at h1
      have hbc : b = c := by
        cases b <;> cases c <;> simp at h ⊢ <;> omega
      subst hbc
      rw [ih t hl (by omega)]

/-- `enc(val(s), len(s)) = s` (00_scope.md R9, R10). -/
theorem enc_val (s : BitString) : enc (val s) s.length = s :=
  val_injective _ _ (by simp) (val_enc _ _ (val_lt s))

/-- A slice of the digits of a number is the digits of the number shifted and cut. -/
theorem slice_enc (v w x y : Nat) (hxy : x ≤ y) (hy : y ≤ w) : slice (enc v w) x y = enc (v / 2 ^ (w - y)) (y - x) := by
  apply List.ext_getElem
  · rw [slice_length _ _ _ (by simpa using hy), enc_length]
  · intro i h1 h2
    rw [enc_length] at h2
    simp only [slice, List.getElem_take, List.getElem_drop, enc_getElem, Nat.testBit_div_two_pow]
    congr 1
    omega

@[simp] theorem bufString_length (b : BitVec 256) : (bufString b).length = 256 := enc_length _ _

theorem val_bufString (b : BitVec 256) : val (bufString b) = b.toNat := val_enc _ _ b.isLt

theorem bufString_bufOfString (s : BitString) (h : s.length = 256) : bufString (bufOfString s) = s := by
  have hv := val_lt s
  rw [h] at hv
  unfold bufString bufOfString
  rw [BitVec.toNat_ofNat, Nat.mod_eq_of_lt hv]
  simpa [h] using enc_val s

theorem bufOfString_bufString (b : BitVec 256) : bufOfString (bufString b) = b := by
  rw [bufOfString, val_bufString, BitVec.ofNat_toNat, BitVec.setWidth_eq]

/-- BUF after an encode, as a number: the value of the string, moved to the left end (20_memory.md R64). -/
theorem bufOfString_padded (s : BitString) (n : Nat) :
    bufOfString (s ++ zeros (Config.bufBits - n)) = BitVec.ofNat 256 (val s * 2 ^ (256 - n)) := by
  rw [bufOfString, val_append, val_zeros, zeros_length, Nat.add_zero]

/-- The value of a slice of BUF. -/
theorem val_slice_bufString (b : BitVec 256) (x y : Nat) (hxy : x ≤ y) (hy : y ≤ 256) :
    val (slice (bufString b) x y) = b.toNat / 2 ^ (256 - y) % 2 ^ (y - x) := by
  rw [bufString, slice_enc _ _ _ _ hxy hy, val_enc_mod]

end Sys2Proof.Machine
end

