-- ==== Sys2Proof/Laws/State.lean ====
section
/-! SUPPORT. One lemma per field for each update of the block that the model makes, each true by unfolding, so that no later proof
unfolds a record update. -/

namespace Sys2Proof.Machine

section Block
variable (b : Block)

@[simp] theorem Block.commitBits_cmd (s : BitString) (n : Nat) : (b.commitBits s n).cmd = b.cmd := rfl
@[simp] theorem Block.commitBits_status (s : BitString) (n : Nat) : (b.commitBits s n).status = b.status := rfl
@[simp] theorem Block.commitBits_errinfo (s : BitString) (n : Nat) : (b.commitBits s n).errinfo = b.errinfo := rfl
@[simp] theorem Block.commitBits_widthC (s : BitString) (n : Nat) : (b.commitBits s n).widthC = b.widthC := rfl
@[simp] theorem Block.commitBits_widthD (s : BitString) (n : Nat) : (b.commitBits s n).widthD = b.widthD := rfl
@[simp] theorem Block.commitBits_offset (s : BitString) (n : Nat) : (b.commitBits s n).offset = b.offset := rfl
@[simp] theorem Block.commitBits_pctl (s : BitString) (n : Nat) : (b.commitBits s n).pctl = b.pctl := rfl
@[simp] theorem Block.commitBits_vneg (s : BitString) (n : Nat) : (b.commitBits s n).vneg = b.vneg := rfl
@[simp] theorem Block.commitBits_blen (s : BitString) (n : Nat) : (b.commitBits s n).blen = BitVec.ofNat 9 n := rfl
@[simp] theorem Block.commitBits_clen (s : BitString) (n : Nat) : (b.commitBits s n).clen = b.clen := rfl
@[simp] theorem Block.commitBits_ulen (s : BitString) (n : Nat) : (b.commitBits s n).ulen = b.ulen := rfl
@[simp] theorem Block.commitBits_valC (s : BitString) (n : Nat) : (b.commitBits s n).valC = b.valC := rfl
@[simp] theorem Block.commitBits_valD (s : BitString) (n : Nat) : (b.commitBits s n).valD = b.valD := rfl
@[simp] theorem Block.commitBits_buf (s : BitString) (n : Nat) : (b.commitBits s n).buf = bufOfString (s ++ zeros (Config.bufBits - n)) := rfl
@[simp] theorem Block.commitBits_cbuf (s : BitString) (n : Nat) : (b.commitBits s n).cbuf = b.cbuf := rfl
@[simp] theorem Block.commitBits_ubuf (s : BitString) (n : Nat) : (b.commitBits s n).ubuf = b.ubuf := rfl
@[simp] theorem Block.commitBits_pending (s : BitString) (n : Nat) : (b.commitBits s n).pending = b.pending := rfl

@[simp] theorem Block.commitValC_cmd (v : Nat) : (b.commitValC v).cmd = b.cmd := rfl
@[simp] theorem Block.commitValC_status (v : Nat) : (b.commitValC v).status = b.status := rfl
@[simp] theorem Block.commitValC_errinfo (v : Nat) : (b.commitValC v).errinfo = b.errinfo := rfl
@[simp] theorem Block.commitValC_widthC (v : Nat) : (b.commitValC v).widthC = b.widthC := rfl
@[simp] theorem Block.commitValC_widthD (v : Nat) : (b.commitValC v).widthD = b.widthD := rfl
@[simp] theorem Block.commitValC_offset (v : Nat) : (b.commitValC v).offset = b.offset := rfl
@[simp] theorem Block.commitValC_pctl (v : Nat) : (b.commitValC v).pctl = b.pctl := rfl
@[simp] theorem Block.commitValC_vneg (v : Nat) : (b.commitValC v).vneg = { b.vneg with negC := false } := rfl
@[simp] theorem Block.commitValC_blen (v : Nat) : (b.commitValC v).blen = b.blen := rfl
@[simp] theorem Block.commitValC_clen (v : Nat) : (b.commitValC v).clen = b.clen := rfl
@[simp] theorem Block.commitValC_ulen (v : Nat) : (b.commitValC v).ulen = b.ulen := rfl
@[simp] theorem Block.commitValC_valC (v : Nat) : (b.commitValC v).valC = BitVec.ofNat 256 v := rfl
@[simp] theorem Block.commitValC_valD (v : Nat) : (b.commitValC v).valD = b.valD := rfl
@[simp] theorem Block.commitValC_buf (v : Nat) : (b.commitValC v).buf = b.buf := rfl
@[simp] theorem Block.commitValC_cbuf (v : Nat) : (b.commitValC v).cbuf = b.cbuf := rfl
@[simp] theorem Block.commitValC_ubuf (v : Nat) : (b.commitValC v).ubuf = b.ubuf := rfl
@[simp] theorem Block.commitValC_pending (v : Nat) : (b.commitValC v).pending = b.pending := rfl

@[simp] theorem Block.commitValD_cmd (v : Nat) : (b.commitValD v).cmd = b.cmd := rfl
@[simp] theorem Block.commitValD_status (v : Nat) : (b.commitValD v).status = b.status := rfl
@[simp] theorem Block.commitValD_errinfo (v : Nat) : (b.commitValD v).errinfo = b.errinfo := rfl
@[simp] theorem Block.commitValD_widthC (v : Nat) : (b.commitValD v).widthC = b.widthC := rfl
@[simp] theorem Block.commitValD_widthD (v : Nat) : (b.commitValD v).widthD = b.widthD := rfl
@[simp] theorem Block.commitValD_offset (v : Nat) : (b.commitValD v).offset = b.offset := rfl
@[simp] theorem Block.commitValD_pctl (v : Nat) : (b.commitValD v).pctl = b.pctl := rfl
@[simp] theorem Block.commitValD_vneg (v : Nat) : (b.commitValD v).vneg = { b.vneg with negD := false } := rfl
@[simp] theorem Block.commitValD_blen (v : Nat) : (b.commitValD v).blen = b.blen := rfl
@[simp] theorem Block.commitValD_clen (v : Nat) : (b.commitValD v).clen = b.clen := rfl
@[simp] theorem Block.commitValD_ulen (v : Nat) : (b.commitValD v).ulen = b.ulen := rfl
@[simp] theorem Block.commitValD_valC (v : Nat) : (b.commitValD v).valC = b.valC := rfl
@[simp] theorem Block.commitValD_valD (v : Nat) : (b.commitValD v).valD = BitVec.ofNat 256 v := rfl
@[simp] theorem Block.commitValD_buf (v : Nat) : (b.commitValD v).buf = b.buf := rfl
@[simp] theorem Block.commitValD_cbuf (v : Nat) : (b.commitValD v).cbuf = b.cbuf := rfl
@[simp] theorem Block.commitValD_ubuf (v : Nat) : (b.commitValD v).ubuf = b.ubuf := rfl
@[simp] theorem Block.commitValD_pending (v : Nat) : (b.commitValD v).pending = b.pending := rfl

@[simp] theorem Block.commitText_cmd (t : Text) : (b.commitText t).cmd = b.cmd := rfl
@[simp] theorem Block.commitText_status (t : Text) : (b.commitText t).status = b.status := rfl
@[simp] theorem Block.commitText_errinfo (t : Text) : (b.commitText t).errinfo = b.errinfo := rfl
@[simp] theorem Block.commitText_widthC (t : Text) : (b.commitText t).widthC = b.widthC := rfl
@[simp] theorem Block.commitText_widthD (t : Text) : (b.commitText t).widthD = b.widthD := rfl
@[simp] theorem Block.commitText_offset (t : Text) : (b.commitText t).offset = b.offset := rfl
@[simp] theorem Block.commitText_pctl (t : Text) : (b.commitText t).pctl = b.pctl := rfl
@[simp] theorem Block.commitText_vneg (t : Text) : (b.commitText t).vneg = b.vneg := rfl
@[simp] theorem Block.commitText_blen (t : Text) : (b.commitText t).blen = b.blen := rfl
@[simp] theorem Block.commitText_clen (t : Text) : (b.commitText t).clen = BitVec.ofNat 8 t.length := rfl
@[simp] theorem Block.commitText_ulen (t : Text) : (b.commitText t).ulen = b.ulen := rfl
@[simp] theorem Block.commitText_valC (t : Text) : (b.commitText t).valC = b.valC := rfl
@[simp] theorem Block.commitText_valD (t : Text) : (b.commitText t).valD = b.valD := rfl
@[simp] theorem Block.commitText_buf (t : Text) : (b.commitText t).buf = b.buf := rfl
@[simp] theorem Block.commitText_cbuf (t : Text) : (b.commitText t).cbuf = padText Config.maxChars t := rfl
@[simp] theorem Block.commitText_ubuf (t : Text) : (b.commitText t).ubuf = b.ubuf := rfl
@[simp] theorem Block.commitText_pending (t : Text) : (b.commitText t).pending = b.pending := rfl

@[simp] theorem Block.commitUri_cmd (u : Text) : (b.commitUri u).cmd = b.cmd := rfl
@[simp] theorem Block.commitUri_status (u : Text) : (b.commitUri u).status = b.status := rfl
@[simp] theorem Block.commitUri_errinfo (u : Text) : (b.commitUri u).errinfo = b.errinfo := rfl
@[simp] theorem Block.commitUri_widthC (u : Text) : (b.commitUri u).widthC = b.widthC := rfl
@[simp] theorem Block.commitUri_widthD (u : Text) : (b.commitUri u).widthD = b.widthD := rfl
@[simp] theorem Block.commitUri_offset (u : Text) : (b.commitUri u).offset = b.offset := rfl
@[simp] theorem Block.commitUri_pctl (u : Text) : (b.commitUri u).pctl = b.pctl := rfl
@[simp] theorem Block.commitUri_vneg (u : Text) : (b.commitUri u).vneg = b.vneg := rfl
@[simp] theorem Block.commitUri_blen (u : Text) : (b.commitUri u).blen = b.blen := rfl
@[simp] theorem Block.commitUri_clen (u : Text) : (b.commitUri u).clen = b.clen := rfl
@[simp] theorem Block.commitUri_ulen (u : Text) : (b.commitUri u).ulen = BitVec.ofNat 8 u.length := rfl
@[simp] theorem Block.commitUri_valC (u : Text) : (b.commitUri u).valC = b.valC := rfl
@[simp] theorem Block.commitUri_valD (u : Text) : (b.commitUri u).valD = b.valD := rfl
@[simp] theorem Block.commitUri_buf (u : Text) : (b.commitUri u).buf = b.buf := rfl
@[simp] theorem Block.commitUri_cbuf (u : Text) : (b.commitUri u).cbuf = b.cbuf := rfl
@[simp] theorem Block.commitUri_ubuf (u : Text) : (b.commitUri u).ubuf = padText Config.ubufChars u := rfl
@[simp] theorem Block.commitUri_pending (u : Text) : (b.commitUri u).pending = b.pending := rfl

@[simp] theorem Block.succeed_cmd : (b.succeed).cmd = b.cmd := rfl
@[simp] theorem Block.succeed_status : (b.succeed).status = successStatus b.status := rfl
@[simp] theorem Block.succeed_errinfo : (b.succeed).errinfo = noError := rfl
@[simp] theorem Block.succeed_widthC : (b.succeed).widthC = b.widthC := rfl
@[simp] theorem Block.succeed_widthD : (b.succeed).widthD = b.widthD := rfl
@[simp] theorem Block.succeed_offset : (b.succeed).offset = b.offset := rfl
@[simp] theorem Block.succeed_pctl : (b.succeed).pctl = b.pctl := rfl
@[simp] theorem Block.succeed_vneg : (b.succeed).vneg = b.vneg := rfl
@[simp] theorem Block.succeed_blen : (b.succeed).blen = b.blen := rfl
@[simp] theorem Block.succeed_clen : (b.succeed).clen = b.clen := rfl
@[simp] theorem Block.succeed_ulen : (b.succeed).ulen = b.ulen := rfl
@[simp] theorem Block.succeed_valC : (b.succeed).valC = b.valC := rfl
@[simp] theorem Block.succeed_valD : (b.succeed).valD = b.valD := rfl
@[simp] theorem Block.succeed_buf : (b.succeed).buf = b.buf := rfl
@[simp] theorem Block.succeed_cbuf : (b.succeed).cbuf = b.cbuf := rfl
@[simp] theorem Block.succeed_ubuf : (b.succeed).ubuf = b.ubuf := rfl
@[simp] theorem Block.succeed_pending : (b.succeed).pending = none := rfl

@[simp] theorem Block.raiseError_cmd (e : CmdError) : (b.raiseError e).cmd = b.cmd := rfl
@[simp] theorem Block.raiseError_status (e : CmdError) : (b.raiseError e).status = errorStatus b.status e := rfl
@[simp] theorem Block.raiseError_errinfo (e : CmdError) : (b.raiseError e).errinfo = e.report := rfl
@[simp] theorem Block.raiseError_widthC (e : CmdError) : (b.raiseError e).widthC = b.widthC := rfl
@[simp] theorem Block.raiseError_widthD (e : CmdError) : (b.raiseError e).widthD = b.widthD := rfl
@[simp] theorem Block.raiseError_offset (e : CmdError) : (b.raiseError e).offset = b.offset := rfl
@[simp] theorem Block.raiseError_pctl (e : CmdError) : (b.raiseError e).pctl = b.pctl := rfl
@[simp] theorem Block.raiseError_vneg (e : CmdError) : (b.raiseError e).vneg = b.vneg := rfl
@[simp] theorem Block.raiseError_blen (e : CmdError) : (b.raiseError e).blen = b.blen := rfl
@[simp] theorem Block.raiseError_clen (e : CmdError) : (b.raiseError e).clen = b.clen := rfl
@[simp] theorem Block.raiseError_ulen (e : CmdError) : (b.raiseError e).ulen = b.ulen := rfl
@[simp] theorem Block.raiseError_valC (e : CmdError) : (b.raiseError e).valC = b.valC := rfl
@[simp] theorem Block.raiseError_valD (e : CmdError) : (b.raiseError e).valD = b.valD := rfl
@[simp] theorem Block.raiseError_buf (e : CmdError) : (b.raiseError e).buf = b.buf := rfl
@[simp] theorem Block.raiseError_cbuf (e : CmdError) : (b.raiseError e).cbuf = b.cbuf := rfl
@[simp] theorem Block.raiseError_ubuf (e : CmdError) : (b.raiseError e).ubuf = b.ubuf := rfl
@[simp] theorem Block.raiseError_pending (e : CmdError) : (b.raiseError e).pending = none := rfl

@[simp] theorem Block.issue_cmd (w : Word) : (b.issue w).cmd = w := rfl
@[simp] theorem Block.issue_status (w : Word) : (b.issue w).status = issuedStatus b.status := rfl
@[simp] theorem Block.issue_errinfo (w : Word) : (b.issue w).errinfo = noError := rfl
@[simp] theorem Block.issue_widthC (w : Word) : (b.issue w).widthC = b.widthC := rfl
@[simp] theorem Block.issue_widthD (w : Word) : (b.issue w).widthD = b.widthD := rfl
@[simp] theorem Block.issue_offset (w : Word) : (b.issue w).offset = b.offset := rfl
@[simp] theorem Block.issue_pctl (w : Word) : (b.issue w).pctl = b.pctl := rfl
@[simp] theorem Block.issue_vneg (w : Word) : (b.issue w).vneg = b.vneg := rfl
@[simp] theorem Block.issue_blen (w : Word) : (b.issue w).blen = b.blen := rfl
@[simp] theorem Block.issue_clen (w : Word) : (b.issue w).clen = b.clen := rfl
@[simp] theorem Block.issue_ulen (w : Word) : (b.issue w).ulen = b.ulen := rfl
@[simp] theorem Block.issue_valC (w : Word) : (b.issue w).valC = b.valC := rfl
@[simp] theorem Block.issue_valD (w : Word) : (b.issue w).valD = b.valD := rfl
@[simp] theorem Block.issue_buf (w : Word) : (b.issue w).buf = b.buf := rfl
@[simp] theorem Block.issue_cbuf (w : Word) : (b.issue w).cbuf = b.cbuf := rfl
@[simp] theorem Block.issue_ubuf (w : Word) : (b.issue w).ubuf = b.ubuf := rfl
@[simp] theorem Block.issue_pending (w : Word) : (b.issue w).pending = some w := rfl

@[simp] theorem Block.dropWrite_cmd : (b.dropWrite).cmd = b.cmd := rfl
@[simp] theorem Block.dropWrite_status : (b.dropWrite).status = { b.status with coll := true } := rfl
@[simp] theorem Block.dropWrite_errinfo : (b.dropWrite).errinfo = b.errinfo := rfl
@[simp] theorem Block.dropWrite_widthC : (b.dropWrite).widthC = b.widthC := rfl
@[simp] theorem Block.dropWrite_widthD : (b.dropWrite).widthD = b.widthD := rfl
@[simp] theorem Block.dropWrite_offset : (b.dropWrite).offset = b.offset := rfl
@[simp] theorem Block.dropWrite_pctl : (b.dropWrite).pctl = b.pctl := rfl
@[simp] theorem Block.dropWrite_vneg : (b.dropWrite).vneg = b.vneg := rfl
@[simp] theorem Block.dropWrite_blen : (b.dropWrite).blen = b.blen := rfl
@[simp] theorem Block.dropWrite_clen : (b.dropWrite).clen = b.clen := rfl
@[simp] theorem Block.dropWrite_ulen : (b.dropWrite).ulen = b.ulen := rfl
@[simp] theorem Block.dropWrite_valC : (b.dropWrite).valC = b.valC := rfl
@[simp] theorem Block.dropWrite_valD : (b.dropWrite).valD = b.valD := rfl
@[simp] theorem Block.dropWrite_buf : (b.dropWrite).buf = b.buf := rfl
@[simp] theorem Block.dropWrite_cbuf : (b.dropWrite).cbuf = b.cbuf := rfl
@[simp] theorem Block.dropWrite_ubuf : (b.dropWrite).ubuf = b.ubuf := rfl
@[simp] theorem Block.dropWrite_pending : (b.dropWrite).pending = b.pending := rfl
end Block

section Status
variable (s : Status)

@[simp] theorem issuedStatus_busy : (issuedStatus s).busy = true := rfl
@[simp] theorem issuedStatus_done : (issuedStatus s).done = false := rfl
@[simp] theorem issuedStatus_err : (issuedStatus s).err = false := rfl
@[simp] theorem issuedStatus_errcode : (issuedStatus s).errcode = 0 := rfl
@[simp] theorem issuedStatus_coll : (issuedStatus s).coll = s.coll := rfl
@[simp] theorem successStatus_busy : (successStatus s).busy = false := rfl
@[simp] theorem successStatus_done : (successStatus s).done = true := rfl
@[simp] theorem successStatus_err : (successStatus s).err = false := rfl
@[simp] theorem successStatus_errcode : (successStatus s).errcode = 0 := rfl
@[simp] theorem successStatus_coll : (successStatus s).coll = s.coll := rfl
@[simp] theorem errorStatus_busy (e : CmdError) : (errorStatus s e).busy = false := rfl
@[simp] theorem errorStatus_done (e : CmdError) : (errorStatus s e).done = true := rfl
@[simp] theorem errorStatus_err (e : CmdError) : (errorStatus s e).err = true := rfl
@[simp] theorem errorStatus_errcode (e : CmdError) : (errorStatus s e).errcode = e.sub.errcode := rfl
@[simp] theorem errorStatus_coll (e : CmdError) : (errorStatus s e).coll = s.coll := rfl

end Status

section Machine
variable (s : State)

@[simp] theorem State.issue_block (w : Word) : (s.issue w).block = s.block.issue w := rfl
@[simp] theorem State.issue_inputs (w : Word) : (s.issue w).inputs = s.inputs := rfl
@[simp] theorem State.issue_responses (w : Word) : (s.issue w).responses = s.responses := rfl
@[simp] theorem State.issue_hostAgent (w : Word) : (s.issue w).hostAgent = s.hostAgent := rfl
@[simp] theorem State.issue_latencies (w : Word) : (s.issue w).latencies = s.latencies.tail := rfl
@[simp] theorem State.issue_latLeft (w : Word) : (s.issue w).latLeft = s.nextLatency := rfl
@[simp] theorem State.issue_draws (w : Word) : (s.issue w).draws = s.draws + 1 := rfl

end Machine

end Sys2Proof.Machine
end

