-- ==== Sys2Proof/Laws/Window.lean ====
section
/-! SUPPORT. The register window, once for all: each word stands at its offset and nowhere else (10_state.md R21), which accesses are
admitted (20_memory.md R61), and what one written word changes (20_memory.md R64 to R66). -/

namespace Sys2Proof.Machine

theorem regWordAt_byteOffset (r : RegWord) : regWordAt r.byteOffset = some r := by
  cases r with
  | valC k => revert k; decide
  | valD k => revert k; decide
  | buf k => revert k; decide
  | cbuf k => revert k; decide
  | ubuf k => revert k; decide
  | _ => rfl

theorem regWordAt_sound (off : Nat) (r : RegWord) (h : regWordAt off = some r) : off = r.byteOffset := by
  unfold regWordAt at h
  split at h
  · simp at h
  · split at h
    · rename_i h4 hlt
      have h1 : ∀ k : Fin 16,
          [RegWord.id, .param, .cmd, .status, .errinfo, .widthC, .widthD, .offset, .pctl, .vneg, .blen, .clen, .ulen][k.val]?
            = some r → 4 * k.val = r.byteOffset := by
        intro k
        fin_cases k <;> simp <;> rintro rfl <;> rfl
      have := h1 ⟨off / 4, by omega⟩ h
      simp only at this
      omega
    · repeat' split at h
      all_goals first
        | simp at h; done
        | (simp only [Option.some.injEq] at h
           subst h
           simp only [RegWord.byteOffset]
           omega)

theorem regWordAt_eq_some (off : Nat) (r : RegWord) : regWordAt off = some r ↔ off = r.byteOffset :=
  ⟨regWordAt_sound off r, fun h => h ▸ regWordAt_byteOffset r⟩

theorem RegWord.byteOffset_injective (r r' : RegWord) (h : r.byteOffset = r'.byteOffset) : r = r' := by
  have h1 := regWordAt_byteOffset r
  rw [h, regWordAt_byteOffset r'] at h1
  exact (Option.some.inj h1).symm

theorem RegWord.byteOffset_lt (r : RegWord) : r.byteOffset < 4096 := by
  cases r <;> simp only [RegWord.byteOffset] <;> omega

@[simp] theorem RegWord.accessOffset_toNat (r : RegWord) : r.accessOffset.toNat = r.byteOffset := by
  rw [RegWord.accessOffset, BitVec.toNat_ofNat, Nat.mod_eq_of_lt r.byteOffset_lt]

/-- A read by name is admitted (20_memory.md R61). -/
theorem admittedTransfer_read (r : RegWord) : admittedTransfer (.read r.accessOffset .word) = some (.read r) := by
  simp [admittedTransfer, regWordAt_byteOffset]

/-- A write by name is admitted unless the register is read-only (20_memory.md R61, R70). -/
theorem admittedTransfer_write (r : RegWord) (v : Word) :
    admittedTransfer (.write r.accessOffset (.word v)) = if r.readOnly then none else some (.write r v) := by
  simp [admittedTransfer, regWordAt_byteOffset]

/-- An admitted read is a word read of a mapped offset (20_memory.md R61). -/
theorem admittedTransfer_eq_read (a : Access) (r : RegWord) (h : admittedTransfer a = some (.read r)) : a = .read r.accessOffset .word := by
  match a with
  | .read off .word =>
    simp only [admittedTransfer, Option.map_eq_some_iff, Transfer.read.injEq, exists_eq_right] at h
    have := regWordAt_sound _ _ h
    congr 1
    apply BitVec.eq_of_toNat_eq
    simpa using this
  | .read _ .byte => simp [admittedTransfer] at h
  | .read _ .half => simp [admittedTransfer] at h
  | .write off (.word v) =>
    simp only [admittedTransfer] at h
    split at h
    · split at h <;> simp at h
    · simp at h
  | .write _ (.byte _) => simp [admittedTransfer] at h
  | .write _ (.half _) => simp [admittedTransfer] at h

/-- An admitted write is a word write of a mapped offset that is not read-only (20_memory.md R61). -/
theorem admittedTransfer_eq_write (a : Access) (r : RegWord) (v : Word) (h : admittedTransfer a = some (.write r v)) :
    a = .write r.accessOffset (.word v) ∧ r.readOnly = false := by
  match a with
  | .read off .word => simp [admittedTransfer] at h
  | .read _ .byte => simp [admittedTransfer] at h
  | .read _ .half => simp [admittedTransfer] at h
  | .write off (.word v') =>
    simp only [admittedTransfer] at h
    split at h
    · rename_i r' hr'
      split at h
      · simp at h
      · rename_i hro
        simp only [Option.some.injEq, Transfer.write.injEq] at h
        obtain ⟨rfl, rfl⟩ := h
        refine ⟨?_, by simpa using hro⟩
        congr 1
        apply BitVec.eq_of_toNat_eq
        simpa using regWordAt_sound _ _ hr'
    · simp at h
  | .write _ (.byte _) => simp [admittedTransfer] at h
  | .write _ (.half _) => simp [admittedTransfer] at h

theorem spliceWord_getLsbD (old : BitVec 256) (lo : Nat) (v : Word) (i : Nat) (hi : i < 256) :
    (spliceWord old lo v).getLsbD i = if lo ≤ i ∧ i < lo + 32 then v.getLsbD (i - lo) else old.getLsbD i := by
  have hm : (0xFFFFFFFF : BitVec 256) = (0xFFFFFFFF : BitVec 32).zeroExtend 256 := by decide
  have ha : (0xFFFFFFFF : BitVec 32) = BitVec.allOnes 32 := by decide
  simp only [spliceWord, hm, ha, BitVec.getLsbD_or, BitVec.getLsbD_and, BitVec.getLsbD_not, BitVec.getLsbD_shiftLeft,
    BitVec.truncate_eq_setWidth, BitVec.getLsbD_setWidth, BitVec.getLsbD_allOnes, hi, decide_true, Bool.true_and]
  by_cases h1 : i < lo
  · have : ¬ (lo ≤ i ∧ i < lo + 32) := by omega
    simp [h1, this]
  · by_cases h2 : i < lo + 32
    · have : i - lo < 32 := by omega
      have h3 : i - lo < 256 := by omega
      have h4 : lo ≤ i ∧ i < lo + 32 := by omega
      simp [h1, this, h3, h4]
    · have h3 : ¬ i - lo < 32 := by omega
      have h4 : ¬ (lo ≤ i ∧ i < lo + 32) := by omega
      have h5 : v.getLsbD (i - lo) = false := BitVec.getLsbD_of_ge _ _ (by omega)
      simp [h1, h3, h4, h5]

/-- Word `lo` of a register after a splice at the same place. -/
theorem extract_spliceWord_same (old : BitVec 256) (lo : Nat) (v : Word) (h : lo + 32 ≤ 256) :
    (spliceWord old lo v).extractLsb' lo 32 = v := by
  apply BitVec.eq_of_getLsbD_eq
  intro i hi
  rw [BitVec.getLsbD_extractLsb', spliceWord_getLsbD _ _ _ _ (by omega)]
  simp [hi]

/-- A word of a register after a splice elsewhere. -/
theorem extract_spliceWord_other (old : BitVec 256) (lo lo' : Nat) (v : Word) (h : lo' + 32 ≤ 256)
    (hd : lo + 32 ≤ lo' ∨ lo' + 32 ≤ lo) : (spliceWord old lo v).extractLsb' lo' 32 = old.extractLsb' lo' 32 := by
  apply BitVec.eq_of_getLsbD_eq
  intro i hi
  rw [BitVec.getLsbD_extractLsb', BitVec.getLsbD_extractLsb', spliceWord_getLsbD _ _ _ _ (by omega)]
  have : ¬ (lo ≤ lo' + i ∧ lo' + i < lo + 32) := by omega
  simp [this]

/-- Character `j` of CBUF after a write of word `k` (20_memory.md R66). -/
theorem setTextWord_getElem (old : Vector Byte 36) (k : Fin 9) (v : Word) (j : Nat) (h : j < 36) :
    (setTextWord old k v)[j] = if j / 4 = k.val then v.extractLsb' (8 * (j % 4)) 8 else old[j] := by
  simp [setTextWord]

/-! ## What an accepted write stores (20_memory.md R68) -/

theorem storeWord_status (b : Block) (v : Word) (r : RegWord) (h : r ≠ .status) : (storeWord b v r).status = b.status := by
  cases r with
  | status => exact absurd rfl h
  | _ => simp only [storeWord]

@[simp] theorem storeWord_cmd (b : Block) (v : Word) (r : RegWord) : (storeWord b v r).cmd = b.cmd := by
  cases r <;> simp only [storeWord]

@[simp] theorem storeWord_errinfo (b : Block) (v : Word) (r : RegWord) : (storeWord b v r).errinfo = b.errinfo := by
  cases r <;> simp only [storeWord]

@[simp] theorem storeWord_ulen (b : Block) (v : Word) (r : RegWord) : (storeWord b v r).ulen = b.ulen := by
  cases r <;> simp only [storeWord]

@[simp] theorem storeWord_ubuf (b : Block) (v : Word) (r : RegWord) : (storeWord b v r).ubuf = b.ubuf := by
  cases r <;> simp only [storeWord]

@[simp] theorem storeWord_pending (b : Block) (v : Word) (r : RegWord) : (storeWord b v r).pending = b.pending := by
  cases r <;> simp only [storeWord]

/-! ## Characters of a word (20_memory.md R63, R66) -/

theorem extract_append_bytes (w x y z : Byte) :
    (z ++ y ++ x ++ w : BitVec (8 + 8 + 8 + 8)).extractLsb' 0 8 = w ∧ (z ++ y ++ x ++ w : BitVec (8 + 8 + 8 + 8)).extractLsb' 8 8 = x ∧
      (z ++ y ++ x ++ w : BitVec (8 + 8 + 8 + 8)).extractLsb' 16 8 = y ∧
      (z ++ y ++ x ++ w : BitVec (8 + 8 + 8 + 8)).extractLsb' 24 8 = z := by
  refine ⟨?_, ?_, ?_, ?_⟩ <;>
    (apply BitVec.eq_of_getLsbD_eq
     intro i hi
     simp only [BitVec.getLsbD_extractLsb', BitVec.getLsbD_append]
     interval_cases i <;> simp)

theorem append_extract_bytes (v : Word) :
    v.extractLsb' 24 8 ++ v.extractLsb' 16 8 ++ v.extractLsb' 8 8 ++ v.extractLsb' 0 8 = v := by
  apply BitVec.eq_of_getLsbD_eq
  intro i hi
  simp only [BitVec.getLsbD_extractLsb', BitVec.getLsbD_append]
  interval_cases i <;> simp

end Sys2Proof.Machine
end

