-- ==== Sys2Proof/Laws/Machine.lean ====
section
/-! SUPPORT. What each shared operation of the machine can do, said once: a completion, the dispatch, a host access, a step. Later
proofs cite these and do not unfold the operations. -/

namespace Sys2Proof.Machine

/-! ## Completion and dispatch -/

/-- The evaluation a command's completion makes (30_encoding.md R96). -/
def evalOf : Instr → Block → Except CmdError Block
  | .intEnc => evalIntEnc
  | .intDec => evalIntDec
  | .strEnc => evalStrEnc
  | .strDec => evalStrDec
  | .strUrlenc => evalStrUrlenc
  | .partEnc => evalPartEnc
  | .partDec => evalPartDec
  | .spartEnc => evalSpartEnc
  | .spartDec => evalSpartDec

/-- Every command is a completion with its own evaluation. -/
theorem exec_eq_completeWith (i : Instr) (s : State) : exec i s = completeWith (evalOf i) s := by
  cases i <;> rfl

/-- Every command answers a next state, in which only the block has changed, by its completion. -/
theorem exec_eq_next (i : Instr) (s : State) :
    exec i s = .next { s with block := s.block.complete (evalOf i s.block) } := exec_eq_completeWith i s

theorem complete_ok (b b' : Block) : b.complete (.ok b') = b'.succeed := rfl

theorem complete_error (b : Block) (e : CmdError) : b.complete (.error e) = b.raiseError e := rfl

@[simp] theorem complete_pending (b : Block) (r : Except CmdError Block) : (b.complete r).pending = none := by
  cases r <;> rfl

@[simp] theorem complete_busy (b : Block) (r : Except CmdError Block) : (b.complete r).status.busy = false := by
  cases r <;> rfl

@[simp] theorem complete_done (b : Block) (r : Except CmdError Block) : (b.complete r).status.done = true := by
  cases r <;> rfl

/-- The block the engine leaves when it completes the pending word `w` (10_state.md R45, 30_encoding.md R96). -/
def completedBlock (b : Block) (w : Word) : Block :=
  match decode w with
  | .ok i => b.complete (evalOf i b)
  | .error e => b.raiseError (illegalCommand e)

/-- The engine's step always answers a next state, in which only the block has changed. -/
theorem engineStep_eq_next (s : State) (w : Word) : engineStep s w = .next { s with block := completedBlock s.block w } := by
  unfold engineStep completedBlock
  cases decode w with
  | ok i => exact exec_eq_next i s
  | error e => rfl

/-! ## Host accesses -/

/-- What one host access can do: a bus error, a read that changes nothing, or an admitted write. -/
theorem busAccess_cases (s : State) (a : Access) :
    (admittedTransfer a = none ∧ busAccess s a = .error (.busError a)) ∨
    (∃ r, admittedTransfer a = some (.read r) ∧ busAccess s a = .ok (s, .data (readWord s.block r))) ∨
    (∃ r v, admittedTransfer a = some (.write r v) ∧ busAccess s a = .ok (s.writeReg r v, .written)) := by
  unfold busAccess
  match admittedTransfer a with
  | none => exact .inl ⟨rfl, rfl⟩
  | some (.read r) => exact .inr (.inl ⟨r, rfl, rfl⟩)
  | some (.write r v) => exact .inr (.inr ⟨r, v, rfl, rfl⟩)

/-- What an admitted write can do: write STATUS, be dropped, issue, or store. -/
theorem writeReg_cases (s : State) (r : RegWord) (v : Word) :
    (r = .status ∧ s.writeReg r v = { s with block := storeWord s.block v .status }) ∨
    (r ≠ .status ∧ s.block.pending.isSome = true ∧ s.writeReg r v = { s with block := s.block.dropWrite }) ∨
    (r = .cmd ∧ s.block.pending = none ∧ s.writeReg r v = s.issue v) ∨
    (r ≠ .status ∧ r ≠ .cmd ∧ s.block.pending = none ∧ s.writeReg r v = { s with block := storeWord s.block v r }) := by
  unfold State.writeReg
  by_cases h1 : r = .status
  · simp [h1]
  · cases hp : s.block.pending with
    | some w => simp [h1]
    | none =>
      by_cases h2 : r = .cmd
      · simp [h2]
      · simp [h1, h2]

/-! ## A step -/

/-- The engine's turn: the pending word completes. -/
theorem step_engine (s : State) (w : Word) (hp : s.block.pending = some w) (ht : s.engineTurn = true) :
    step s = .next { s with block := completedBlock s.block w } := by
  simp [step, stepAgents, hp, ht, engineStep_eq_next]

/-- The turn of the host and the platform: the next input. -/
theorem step_input (s : State) (h : s.block.pending = none ∨ s.engineTurn = false) : step s = inputStep s := by
  unfold step stepAgents
  split
  · rename_i w hp
    rcases h with h | h
    · simp [h] at hp
    · simp [h]
  · rfl

/-- What the next input can do: nothing (there is none), a reset, a host operation, or the refusal of a second host. -/
theorem inputStep_cases (s : State) :
    (s.inputs = [] ∧ inputStep s = .next s) ∨
    (∃ cut rest, s.inputs = .reset cut :: rest ∧ inputStep s = .next (({ s with inputs := rest }).applyReset cut)) ∨
    (∃ agent op rest, s.inputs = .host agent op :: rest ∧ s.otherHost agent = false ∧
      inputStep s = .next (hostStep { s with hostAgent := some agent } agent op rest)) ∨
    (∃ agent op rest, s.inputs = .host agent op :: rest ∧ s.otherHost agent = true ∧
      inputStep s = .refused (.secondHost agent)) := by
  unfold inputStep
  split
  · rename_i hi
    exact .inl ⟨hi, rfl⟩
  · rename_i cut rest hi
    exact .inr (.inl ⟨cut, rest, hi, rfl⟩)
  · rename_i agent op rest hi
    cases ho : s.otherHost agent with
    | true => exact .inr (.inr (.inr ⟨agent, op, rest, hi, ho, by simp⟩))
    | false => exact .inr (.inr (.inl ⟨agent, op, rest, hi, ho, by simp⟩))

/-- What one step can do: a completion of the pending word, or the next input. -/
theorem step_cases (s : State) :
    (∃ w, s.block.pending = some w ∧ s.engineTurn = true ∧ step s = .next { s with block := completedBlock s.block w }) ∨
    ((s.block.pending = none ∨ s.engineTurn = false) ∧ step s = inputStep s) := by
  cases hp : s.block.pending with
  | none => exact .inr ⟨.inl rfl, step_input s (.inl hp)⟩
  | some w =>
    cases ht : s.engineTurn with
    | true => exact .inl ⟨w, rfl, rfl, step_engine s w hp ht⟩
    | false => exact .inr ⟨.inr rfl, step_input s (.inr ht)⟩

/-! ## The host's turn -/

/-- A step in which the host or the platform moves. -/
theorem step_turn (s : State) (i : Input) (rest : List Input) (hi : s.inputs = i :: rest)
    (h : s.block.pending = none ∨ s.latLeft ≠ 0) : step s = inputStep s :=
  step_input s (h.imp_right fun hl => by simp [State.engineTurn, hi, hl])

/-- A step in which the one host makes its next operation (20_memory.md R75). -/
theorem step_host (s : State) (agent : Nat) (op : HostOp) (rest : List Input) (hi : s.inputs = .host agent op :: rest)
    (ho : s.otherHost agent = false) (h : s.block.pending = none ∨ s.latLeft ≠ 0) :
    step s = .next (hostStep { s with hostAgent := some agent } agent op rest) := by
  rw [step_turn s _ _ hi h, inputStep, hi]
  simp [ho]

/-- What the completion of a pending word can be: the success of its command, or one error. -/
theorem completedBlock_cases (b : Block) (w : Word) :
    (∃ i b', decode w = .ok i ∧ evalOf i b = .ok b' ∧ completedBlock b w = b'.succeed) ∨
    (∃ i e, decode w = .ok i ∧ evalOf i b = .error e ∧ completedBlock b w = b.raiseError e) ∨
    (∃ e, decode w = .error e ∧ completedBlock b w = b.raiseError (illegalCommand e)) := by
  unfold completedBlock
  cases decode w with
  | error e => exact .inr (.inr ⟨e, rfl, rfl⟩)
  | ok i =>
    cases hv : evalOf i b with
    | ok b' => exact .inl ⟨i, b', rfl, hv, by simp [hv, complete_ok]⟩
    | error e => exact .inr (.inl ⟨i, e, rfl, hv, by simp [hv, complete_error]⟩)

@[simp] theorem completedBlock_pending (b : Block) (w : Word) : (completedBlock b w).pending = none := by
  rcases completedBlock_cases b w with ⟨_, _, _, _, h⟩ | ⟨_, _, _, _, h⟩ | ⟨_, _, h⟩ <;> rw [h] <;> rfl

@[simp] theorem completedBlock_busy (b : Block) (w : Word) : (completedBlock b w).status.busy = false := by
  rcases completedBlock_cases b w with ⟨_, _, _, _, h⟩ | ⟨_, _, _, _, h⟩ | ⟨_, _, h⟩ <;> rw [h] <;> rfl

/-! ## What a step does to the block -/

/-- All that one step can do to the block, with what must have been so before. -/
inductive BlockChange (s t : State) : Prop where
  | same (h : t.block = s.block)
  | completed (w : Word) (hp : s.block.pending = some w) (ht : s.engineTurn = true)
      (h : t = { s with block := completedBlock s.block w })
  | reset (hi : ∃ cut rest, s.inputs = .reset cut :: rest) (h : t.block = Block.reset)
  | statusWrite (v : Word) (hi : ∃ agent rest, s.inputs = .host agent (.access (.write 0x00C (.word v))) :: rest)
      (h : t.block = storeWord s.block v .status)
  | dropped (r : RegWord) (v : Word) (hr : r ≠ .status) (hro : r.readOnly = false) (hp : s.block.pending.isSome = true)
      (hi : ∃ agent rest, s.inputs = .host agent (.access (.write r.accessOffset (.word v))) :: rest)
      (h : t.block = s.block.dropWrite)
  | issued (w : Word) (hp : s.block.pending = none)
      (hi : ∃ agent rest, s.inputs = .host agent (.access (.write 0x008 (.word w))) :: rest) (h : t.block = s.block.issue w)
  | stored (r : RegWord) (v : Word) (hr : r ≠ .status) (hc : r ≠ .cmd) (hro : r.readOnly = false) (hp : s.block.pending = none)
      (hi : ∃ agent rest, s.inputs = .host agent (.access (.write r.accessOffset (.word v))) :: rest)
      (h : t.block = storeWord s.block v r)

/-- Every step changes the block in one of the ways of `BlockChange`. -/
theorem step_blockChange (s t : State) (h : step s = .next t) : BlockChange s t := by
  rcases step_cases s with ⟨w, hp, ht, he⟩ | ⟨-, he⟩
  · rw [he, Host.Outcome.next.injEq] at h
    exact .completed w hp ht h.symm
  rw [he] at h
  rcases inputStep_cases s with ⟨hi, hn⟩ | ⟨cut, rest, hi, hn⟩ | ⟨agent, op, rest, hi, ho, hn⟩ | ⟨agent, op, rest, hi, ho, hn⟩
  · rw [hn, Host.Outcome.next.injEq] at h
    exact .same (by rw [h])
  · rw [hn, Host.Outcome.next.injEq] at h
    refine .reset ⟨cut, rest, hi⟩ ?_
    rw [← h]
    cases cut <;> rfl
  · rw [hn, Host.Outcome.next.injEq] at h
    cases op with
    | wait => exact .same (by rw [← h]; rfl)
    | access a =>
      simp only [hostStep, accessStep] at h
      rcases busAccess_cases (({ s with hostAgent := some agent } : State).takeAccess rest) a with
        ⟨ha, hb⟩ | ⟨r, ha, hb⟩ | ⟨r, v, ha, hb⟩
      · rw [hb] at h
        exact .same (by rw [← h]; rfl)
      · rw [hb] at h
        exact .same (by rw [← h]; rfl)
      · rw [hb] at h
        obtain ⟨rfl, hro⟩ := admittedTransfer_eq_write _ _ _ ha
        rcases writeReg_cases (({ s with hostAgent := some agent } : State).takeAccess rest) r v with
          ⟨hr, hw⟩ | ⟨hr, hp, hw⟩ | ⟨hr, hp, hw⟩ | ⟨hr, hc, hp, hw⟩
        · simp only [hw] at h
          subst hr
          exact .statusWrite v ⟨agent, rest, hi⟩ (by rw [← h]; rfl)
        · simp only [hw] at h
          exact .dropped r v hr hro hp ⟨agent, rest, hi⟩ (by rw [← h]; rfl)
        · simp only [hw] at h
          subst hr
          exact .issued v hp ⟨agent, rest, hi⟩ (by rw [← h]; rfl)
        · simp only [hw] at h
          exact .stored r v hr hc hro hp ⟨agent, rest, hi⟩ (by rw [← h]; rfl)
  · rw [hn] at h
    simp at h

/-! ## Runs -/

/-- The first step of a run. -/
theorem run_next (M : Host.Core) (k : Nat) (s t : M.State) (h : M.step s = .next t) : M.run (k + 1) s = M.run k t := by
  simp [Host.Core.run, h]

/-- A run cut in two. -/
theorem run_add (M : Host.Core) (k l : Nat) (s t : M.State) (h : M.run k s = .next t) : M.run (k + l) s = M.run l t := by
  induction k generalizing s with
  | zero =>
    simp only [Host.Core.run, Host.Outcome.next.injEq] at h
    rw [h, Nat.zero_add]
  | succ k ih =>
    rw [Nat.add_right_comm]
    simp only [Host.Core.run] at h ⊢
    split at h
    · rename_i s' hs
      exact ih s' h
    · simp at h
    · simp at h

end Sys2Proof.Machine
end

