-- ==== Sys2Proof/Laws/Text.lean ====
section
/-! SUPPORT. What the StringCodec's functions do, once for all (41_string.md R130 to R139). -/

namespace Sys2Proof.Machine

theorem inAlphabet_range (x : Nat) (h : inAlphabet x = true) : 0x21 ≤ x ∧ x ≤ 0x7A := by
  simp [inAlphabet] at h
  omega

@[simp] theorem charCode_length (ch : Byte) : (charCode ch).length = 7 := enc_length _ _

theorem val_charCode (ch : Byte) (h : inAlphabet ch.toNat = true) : val (charCode ch) = ch.toNat := by
  have := inAlphabet_range _ h
  exact val_enc _ _ (by change ch.toNat < 2 ^ 7; omega)

theorem codes_length (t : Text) : (t.flatMap charCode).length = 7 * t.length := by
  induction t with
  | nil => rfl
  | cons c t ih => simp [List.flatMap_cons, ih]; omega

/-- `senc(t, w)` has length exactly `w` (41_string.md R133). -/
theorem senc_length (t : Text) (w : Nat) (h : 7 * t.length ≤ w) : (senc t w).length = w := by
  simp [senc, Config.groupBits]; omega

theorem firstBadChar_eq_none (t : Text) : firstBadChar t = none ↔ ∀ ch ∈ t, inAlphabet ch.toNat = true := by
  simp [firstBadChar, List.findIdx?_eq_none_iff]

theorem firstBadChar_eq_some (t : Text) (j : Nat) : firstBadChar t = some j ↔
    ∃ h : j < t.length, inAlphabet t[j].toNat = false ∧ ∀ i (hi : i < j), inAlphabet (t[i]'(by omega)).toNat = true := by
  simp [firstBadChar, List.findIdx?_eq_some_iff_getElem]

/-- The bound on the number of groups does not matter once it covers the string. -/
theorem sdecLoop_bound (f : ErrField) (m n : Nat) (s : BitString) (g : Nat) (hm : s.length ≤ m) (hn : s.length ≤ n) :
    sdecLoop f m s g = sdecLoop f n s g := by
  induction m generalizing n s g with
  | zero =>
    have : s = [] := List.length_eq_zero_iff.mp (by omega)
    subst this
    cases n <;> simp [sdecLoop]
  | succ m ih =>
    cases n with
    | zero =>
      have : s = [] := List.length_eq_zero_iff.mp (by omega)
      subst this
      simp [sdecLoop]
    | succ n =>
      by_cases hs : s = []
      · simp [sdecLoop, hs]
      · have hpos := List.length_pos_iff.mpr hs
        simp only [sdecLoop]
        rw [ih n (s.drop Config.groupBits) (g + 1) (by simp [Config.groupBits]; omega) (by simp [Config.groupBits]; omega)]

/-- One turn of the loop of 41_string.md R135. -/
theorem sdecLoop_turn (f : ErrField) (s : BitString) (g : Nat) :
    sdecLoop f s.length s g =
      if s = [] then .ok []
      else if val (s.take 7) = 0 then .ok []
      else if s.length < 7 then .error ⟨.partialGroup, f, g⟩
      else if inAlphabet (val (s.take 7)) = false then .error ⟨.badGroup, f, g⟩
      else
        match sdecLoop f (s.drop 7).length (s.drop 7) (g + 1) with
        | .ok t => .ok (BitVec.ofNat 8 (val (s.take 7)) :: t)
        | .error e => .error e := by
  by_cases hs : s = []
  · simp [hs, sdecLoop]
  · obtain ⟨n, hn⟩ : ∃ n, s.length = n + 1 := ⟨s.length - 1, by have := List.length_pos_iff.mpr hs; omega⟩
    have hb := sdecLoop_bound f n (s.drop 7).length (s.drop 7) (g + 1) (by simp; omega) (by simp)
    rw [hn]
    simp only [sdecLoop, Config.groupBits, hb]
    have : ((s.take 7).length < 7) = (n + 1 < 7) := by simp [hn]; omega
    simp only [this]
    all_goals rfl

/-- The text of a loop that succeeds is over the alphabet and no longer than the groups read (41_string.md R135). -/
theorem sdecLoop_ok (f : ErrField) (n : Nat) (s : BitString) (g : Nat) (t : Text) (h : sdecLoop f n s g = .ok t) :
    7 * t.length ≤ s.length ∧ ∀ ch ∈ t, inAlphabet ch.toNat = true := by
  induction n generalizing s g t with
  | zero => simp [sdecLoop] at h; subst h; simp
  | succ n ih =>
    simp only [sdecLoop, Config.groupBits] at h
    split at h
    · simp at h; subst h; simp
    · split at h
      · simp at h; subst h; simp
      · split at h
        · simp at h
        · split at h
          · simp at h
          · rename_i hlen hal
            split at h
            · rename_i t' ht'
              have := ih _ _ _ ht'
              simp at h
              subst h
              simp at hlen hal this ⊢
              have hr := inAlphabet_range _ hal
              refine ⟨by omega, ?_, this.2⟩
              rw [Nat.mod_eq_of_lt (by omega)]
              exact hal
            · simp at h

/-- The errors of a loop: sub-cause 9 or 10, about the field given, at a group inside the string (41_string.md R135). -/
theorem sdecLoop_error (f : ErrField) (n : Nat) (s : BitString) (g : Nat) (e : CmdError) (h : sdecLoop f n s g = .error e) :
    (e.sub = .badGroup ∨ e.sub = .partialGroup) ∧ e.field = f ∧ g ≤ e.index ∧ 7 * (e.index - g) ≤ s.length := by
  induction n generalizing s g with
  | zero => simp [sdecLoop] at h
  | succ n ih =>
    simp only [sdecLoop, Config.groupBits] at h
    split at h
    · simp at h
    · split at h
      · simp at h
      · split at h
        · simp at h; subst h; simp
        · split at h
          · simp at h; subst h; simp
          · split at h
            · simp at h
            · rename_i hlen _ _ e' he'
              simp at h
              subst h
              have := ih _ _ he'
              simp at hlen this ⊢
              exact ⟨this.1, this.2.1, by omega, by omega⟩

theorem sdec_ok (s : BitString) (f : ErrField) (t : Text) (h : sdec s f = .ok t) :
    7 * t.length ≤ s.length ∧ ∀ ch ∈ t, inAlphabet ch.toNat = true := sdecLoop_ok _ _ _ _ _ h

theorem sdec_error (s : BitString) (f : ErrField) (e : CmdError) (h : sdec s f = .error e) :
    (e.sub = .badGroup ∨ e.sub = .partialGroup) ∧ e.field = f ∧ 7 * e.index ≤ s.length := by
  have := sdecLoop_error _ _ _ _ _ h
  simpa using this

theorem escapeChar_length (ch : Byte) : (escapeChar ch).length = if reservedCodes.contains ch.toNat then 3 else 1 := by
  unfold escapeChar; split <;> rfl

/-- The length of the URI form (41_string.md R137). -/
theorem uenc_length (t : Text) :
    (uenc t).length = t.length + 2 * (t.countP fun ch => reservedCodes.contains ch.toNat) := by
  induction t with
  | nil => rfl
  | cons c t ih =>
    simp only [uenc, List.flatMap_cons, List.length_append, List.length_cons, List.countP_cons, escapeChar_length] at ih ⊢
    rw [ih]
    split <;> simp <;> omega

theorem uenc_length_le (t : Text) : (uenc t).length ≤ 3 * t.length := by
  have := List.countP_le_length (p := fun ch : Byte => reservedCodes.contains ch.toNat) (l := t)
  rw [uenc_length]
  omega

@[simp] theorem padText_getElem (n : Nat) (t : Text) (j : Nat) (h : j < n) : (padText n t)[j] = t.getD j 0 := by
  simp [padText]

end Sys2Proof.Machine
end

