-- ==== Sys2Proof/Laws/Operands.lean ====
section
/-! SUPPORT. What each operand check and each commit block gives, in the numbers of Safety.lean: the digits of an integer field
(40_integer.md R111), the groups of a text field (41_string.md R134) and the groups a decode reads (R135). -/

namespace Sys2Proof.Machine

/-! ## Integers -/

/-- BUF and BLEN after an encode, as numbers. -/
theorem commitBits_eq (b : Block) (s : BitString) (n : Nat) :
    b.commitBits s n = { b with buf := BitVec.ofNat 256 (val s * 2 ^ (256 - n)), blen := BitVec.ofNat 9 n } := by
  rw [Block.commitBits, bufOfString_padded]

theorem encodeInt_eq (neg : Bool) (v w : Nat) (f : ErrField) :
    encodeInt neg v w f =
      if neg = true then .error ⟨.negative, f, 0⟩ else if 2 ^ w ≤ v then .error ⟨.tooWide, f, 0⟩ else .ok (enc v w) := by
  simp [encodeInt, bitlen_gt_iff]

theorem encodeIntField_eq (digits : BitVec 5) (neg : Bool) (v w : Nat) (f : ErrField) :
    encodeIntField digits neg v w f =
      if digits ≠ 0 ∧ neg = true then .error ⟨.negative, f, 0⟩
      else if 2 ^ w ≤ (if digits = 0 then 0 else v) then .error ⟨.tooWide, f, 0⟩
      else .ok (enc (if digits = 0 then 0 else v) w) := by
  unfold encodeIntField
  by_cases h : digits = 0
  · simp [h]
  · rw [if_neg h, if_neg h, encodeInt_eq]
    simp only [ne_eq, h, not_false_eq_true, true_and]

/-! ## Texts -/

theorem inputText_length (b : Block) (h : b.clen.toNat ≤ 36) : b.inputText.length = b.clen.toNat := by
  simp [Block.inputText]
  omega

theorem inputText_length_le (b : Block) : b.inputText.length ≤ 36 := by simp [Block.inputText]

theorem inputText_getElem (b : Block) (i : Nat) (hi : i < b.inputText.length) : b.inputText[i].toNat = b.charAt i := by
  have hl : i < b.cbuf.toList.length := by
    have := inputText_length_le b
    simp
    omega
  simp only [Block.inputText, List.getElem_take, Block.charAt]
  rw [List.getD_eq_getElem?_getD, List.getElem?_eq_getElem hl]
  rfl

/-- The number the codes of the first `m` characters spell. -/
theorem val_codes (b : Block) (m : Nat) (hm : m ≤ 36) (h : ∀ i < m, inAlphabet (b.charAt i) = true) :
    val ((b.cbuf.toList.take m).flatMap charCode) = b.textNumber m := by
  induction m with
  | zero => rfl
  | succ m ih =>
    have hl : m < b.cbuf.toList.length := by simp; omega
    rw [List.take_succ_eq_append_getElem hl, List.flatMap_append, val_append, ih (by omega) fun i hi => h i (by omega)]
    have hc : b.charAt m = (b.cbuf.toList[m]).toNat := by
      simp [Block.charAt, List.getD_eq_getElem?_getD, List.getElem?_eq_getElem hl]
    have := h m (by omega)
    rw [hc] at this
    simp only [List.flatMap_cons, List.flatMap_nil, List.append_nil, charCode_length, val_charCode _ this, Block.textNumber, hc]
    norm_num

theorem val_senc (t : Text) (w : Nat) : val (senc t w) = val (t.flatMap charCode) * 2 ^ (w - 7 * t.length) := by
  rw [senc, val_append, val_zeros, zeros_length, Nat.add_zero]

/-- The first character of the input text outside the alphabet, or none. -/
theorem firstBadChar_cases (b : Block) (h : b.clen.toNat ≤ 36) :
    (∃ j < b.clen.toNat, firstBadChar b.inputText = some j ∧ (∀ i < j, inAlphabet (b.charAt i) = true) ∧
      inAlphabet (b.charAt j) = false) ∨
    (firstBadChar b.inputText = none ∧ ∀ i < b.clen.toNat, inAlphabet (b.charAt i) = true) := by
  have hl := inputText_length b h
  cases hf : firstBadChar b.inputText with
  | none =>
    rw [firstBadChar_eq_none] at hf
    refine .inr ⟨rfl, fun i hi => ?_⟩
    rw [← inputText_getElem b i (by omega)]
    exact hf _ (List.getElem_mem _)
  | some j =>
    rw [firstBadChar_eq_some] at hf
    obtain ⟨hj, hb, ha⟩ := hf
    refine .inl ⟨j, by omega, rfl, fun i hi => ?_, ?_⟩
    · rw [← inputText_getElem b i (by omega)]
      exact ha i hi
    · rw [← inputText_getElem b j hj]
      exact hb

/-! ## The groups a decode reads -/

theorem slice_slice (s : BitString) (x n y z : Nat) (h : x + z ≤ n) : slice (slice s x n) y z = slice s (x + y) (x + z) := by
  simp only [slice, List.drop_take, List.drop_drop, List.take_take]
  congr 1
  omega

/-- Group `k` of a slice of BUF, as a number. -/
theorem val_group (buf : BitVec 256) (start n k : Nat) (h : start + n ≤ 256) (hk : 7 * k ≤ n) :
    val (((slice (bufString buf) start (start + n)).drop (7 * k)).take 7) = groupValue buf start n k := by
  have hl : (slice (bufString buf) start (start + n)).length = n := by
    rw [slice_length _ _ _ (by simp; omega)]
    omega
  have ht (s : BitString) : (s.drop (7 * k)).take 7 = slice s (7 * k) (min (7 * k + 7) s.length) := by
    apply List.ext_getElem
    · simp [slice]; omega
    · intro i h1 h2
      simp [slice]
  rw [ht, hl, slice_slice _ _ _ _ _ (by omega), val_slice_bufString _ _ _ (by omega) (by omega)]
  unfold groupValue
  congr 2
  omega

/-- What the loop of 41_string.md R135 gives from group `k` on, `group` being the values of the groups: it stops at the first group `p`
that is zero or absent, partial, or outside the alphabet. -/
theorem sdecLoop_groups (f : ErrField) (bits : BitString) (group : Nat → Nat)
    (hg : ∀ k, 7 * k ≤ bits.length → val ((bits.drop (7 * k)).take 7) = group k) (k : Nat) (hk : 7 * k ≤ bits.length) :
    ∃ p, k ≤ p ∧ (∀ j, k ≤ j → j < p → 7 * j + 7 ≤ bits.length ∧ inAlphabet (group j) = true) ∧
      if bits.length ≤ 7 * p ∨ group p = 0 then
        sdecLoop f (bits.drop (7 * k)).length (bits.drop (7 * k)) k =
          .ok ((List.range (p - k)).map fun j => BitVec.ofNat 8 (group (k + j)))
      else if bits.length < 7 * p + 7 then
        sdecLoop f (bits.drop (7 * k)).length (bits.drop (7 * k)) k = .error ⟨.partialGroup, f, p⟩
      else inAlphabet (group p) = false ∧
        sdecLoop f (bits.drop (7 * k)).length (bits.drop (7 * k)) k = .error ⟨.badGroup, f, p⟩ := by
  induction hr : bits.length - 7 * k using Nat.strong_induction_on generalizing k with
  | _ r ih =>
    have hnil : (bits.drop (7 * k) = []) = (bits.length ≤ 7 * k) := by simp
    have hlen : (bits.drop (7 * k)).length = bits.length - 7 * k := by simp
    rw [sdecLoop_turn, hg k hk]
    simp only [hnil, hlen]
    by_cases h1 : bits.length ≤ 7 * k
    · exact ⟨k, le_rfl, fun j _ _ => by omega, by simp [h1]⟩
    by_cases h2 : group k = 0
    · exact ⟨k, le_rfl, fun j _ _ => by omega, by simp [h2]⟩
    by_cases h3 : bits.length < 7 * k + 7
    · have h4 : bits.length - 7 * k < 7 := by omega
      exact ⟨k, le_rfl, fun j _ _ => by omega, by simp [h1, h2, h3, h4]⟩
    have h4 : ¬ bits.length - 7 * k < 7 := by omega
    cases ha : inAlphabet (group k) with
    | false => exact ⟨k, le_rfl, fun j _ _ => by omega, by simp [h1, h2, h3, h4, ha]⟩
    | true =>
      obtain ⟨p, hp, hgood, hres⟩ := ih (bits.length - 7 * (k + 1)) (by omega) (k + 1) (by omega) rfl
      have hdd : (bits.drop (7 * k)).drop 7 = bits.drop (7 * (k + 1)) := by rw [List.drop_drop]; rfl
      refine ⟨p, by omega, fun j hj1 hj2 => ?_, ?_⟩
      · by_cases hjk : j = k
        · subst hjk
          exact ⟨by omega, ha⟩
        · exact hgood j (by omega) hj2
      · simp only [h1, h2, h4, hdd, if_false, Bool.true_eq_false]
        split at hres
        · rename_i hc
          rw [if_pos hc, hres, show p - k = (p - (k + 1)) + 1 by omega, List.range_succ_eq_map]
          simp [Function.comp_def, Nat.add_assoc, Nat.add_comm 1]
        · rename_i hc
          rw [if_neg hc]
          split at hres
          · rename_i hd
            rw [if_pos hd, hres]
          · rename_i hd
            rw [if_neg hd]
            exact ⟨hres.1, by rw [hres.2]⟩

/-- What `sdec` of a slice of BUF gives (41_string.md R135). -/
theorem sdec_slice (f : ErrField) (buf : BitVec 256) (start n : Nat) (h : start + n ≤ 256) :
    ∃ p, (∀ k < p, 7 * k + 7 ≤ n ∧ inAlphabet (groupValue buf start n k) = true) ∧
      if n ≤ 7 * p ∨ groupValue buf start n p = 0 then
        sdec (slice (bufString buf) start (start + n)) f =
          .ok ((List.range p).map fun j => BitVec.ofNat 8 (groupValue buf start n j))
      else if n < 7 * p + 7 then sdec (slice (bufString buf) start (start + n)) f = .error ⟨.partialGroup, f, p⟩
      else inAlphabet (groupValue buf start n p) = false ∧
        sdec (slice (bufString buf) start (start + n)) f = .error ⟨.badGroup, f, p⟩ := by
  have hl : (slice (bufString buf) start (start + n)).length = n := by
    rw [slice_length _ _ _ (by simp; omega)]
    omega
  obtain ⟨p, -, hgood, hres⟩ := sdecLoop_groups f (slice (bufString buf) start (start + n)) (groupValue buf start n)
    (fun k hk => val_group buf start n k h (by omega)) 0 (by omega)
  rw [hl] at hres hgood
  exact ⟨p, fun k hk => hgood k (by omega) hk, by simpa [sdec, hl] using hres⟩

/-- CBUF after a decode that read `p` groups. -/
theorem padText_groups (buf : BitVec 256) (start n p : Nat) :
    padText Config.maxChars ((List.range p).map fun j => BitVec.ofNat 8 (groupValue buf start n j)) =
      groupText buf start n p := by
  unfold padText groupText
  congr 1
  funext j
  by_cases h : j.val < p <;> simp [h, List.getD_eq_getElem?_getD]

end Sys2Proof.Machine
end

