-- ==== Sys2Proof/Laws/PerInstr.lean ====
section
/-! SUPPORT. Statements about every command, one lemma per constructor. The family `CommandFormat` says how 30_encoding.md R92 lays a
command word out: SBZ is zero, bits [7:3] of OPC name the unit, and bit 0 is 1 exactly for the commands that decode. -/

namespace Sys2Proof.Laws.CommandFormat

/-- The unit of a command, bits [7:3] of its word (30_encoding.md R92): the IntegerCodec, the StringCodec, the PartitionCodec and the
StringPartitionCodec. -/
def unit : Instr → Nat
  | .intEnc => 2
  | .intDec => 2
  | .strEnc => 4
  | .strDec => 4
  | .strUrlenc => 4
  | .partEnc => 6
  | .partDec => 6
  | .spartEnc => 7
  | .spartDec => 7

/-- Whether a command decodes (30_encoding.md R92). -/
def decodes : Instr → Bool
  | .intEnc => false
  | .intDec => true
  | .strEnc => false
  | .strDec => true
  | .strUrlenc => false
  | .partEnc => false
  | .partDec => true
  | .spartEnc => false
  | .spartDec => true

/-- The word of a command keeps to the format. -/
def Statement (i : Instr) : Prop :=
  sbzField (encode i) = 0 ∧ (opcField (encode i)).toNat / 8 = unit i ∧ (encode i).getLsbD 0 = decodes i

theorem intEnc : Statement .intEnc := ⟨rfl, rfl, rfl⟩
theorem intDec : Statement .intDec := ⟨rfl, rfl, rfl⟩
theorem strEnc : Statement .strEnc := ⟨rfl, rfl, rfl⟩
theorem strDec : Statement .strDec := ⟨rfl, rfl, rfl⟩
theorem strUrlenc : Statement .strUrlenc := ⟨rfl, rfl, rfl⟩
theorem partEnc : Statement .partEnc := ⟨rfl, rfl, rfl⟩
theorem partDec : Statement .partDec := ⟨rfl, rfl, rfl⟩
theorem spartEnc : Statement .spartEnc := ⟨rfl, rfl, rfl⟩
theorem spartDec : Statement .spartDec := ⟨rfl, rfl, rfl⟩

end Sys2Proof.Laws.CommandFormat
end

