-- ==== Sys2Proof/Tests/Slice0.lean ====
section
/-! SUPPORT. The model's own tests. Expected results come from the vectors of 95_test_vectors.md, named in each docstring, or from the
rule named; V-PE04 and V-PE05 leave out their PV, which their expected words show to be 5 and 1. The theorems `witness_<Name>` show a
concrete state and operands that meet the hypotheses of the statement of that name. -/

namespace Sys2Proof.Tests

-- One theorem at a time: elaborating all of them at once starts more threads than a build may have.
set_option Elab.async false

open Sys2Proof.Machine

/-! ## Decoding and well-formedness -/

/-- 30_encoding.md R93: SBZ, then the unit and the operation of OPC. -/
theorem test_decode_intEnc : decode 0b00000000_00000000_00000000_0001_0000#32 = .ok .intEnc := rfl
theorem test_decode_intDec : decode 0b00000000_00000000_00000000_0001_0001#32 = .ok .intDec := rfl
theorem test_decode_strEnc : decode 0b00000000_00000000_00000000_0010_0000#32 = .ok .strEnc := rfl
theorem test_decode_strDec : decode 0b00000000_00000000_00000000_0010_0001#32 = .ok .strDec := rfl
theorem test_decode_strUrlenc : decode 0b00000000_00000000_00000000_0010_0010#32 = .ok .strUrlenc := rfl
theorem test_decode_partEnc : decode 0b00000000_00000000_00000000_0011_0000#32 = .ok .partEnc := rfl
theorem test_decode_partDec : decode 0b00000000_00000000_00000000_0011_0001#32 = .ok .partDec := rfl
theorem test_decode_spartEnc : decode 0b00000000_00000000_00000000_0011_1000#32 = .ok .spartEnc := rfl
theorem test_decode_spartDec : decode 0b00000000_00000000_00000000_0011_1001#32 = .ok .spartDec := rfl

/-- 60_exceptions.md R206: SBZ is checked before OPC; unassigned values of OPC at the edges of the table are none of the nine. -/
theorem test_decode_refuses :
    decode 0x00000110 = .error .sbzBits ∧ decode 0x80000011 = .error .sbzBits ∧ decode 0x00000000 = .error .badOpcode ∧
      decode 0x0000000F = .error .badOpcode ∧ decode 0x00000012 = .error .badOpcode ∧ decode 0x00000023 = .error .badOpcode ∧
      decode 0x00000032 = .error .badOpcode ∧ decode 0x0000003A = .error .badOpcode ∧ decode 0x000000FF = .error .badOpcode :=
  ⟨rfl, rfl, rfl, rfl, rfl, rfl, rfl, rfl, rfl⟩

/-- 30_encoding.md R90: a command word has 32 bits; one byte of it is a legal word with every bit above it 0. -/
theorem test_decodeTableWord :
    decodeTableWord 32 0x22 = some .strUrlenc ∧ decodeTableWord 8 0x31 = some .partDec ∧ decodeTableWord 32 0x122 = none := by
  decide +kernel

/-- The ranges of 30_encoding.md R100: one ill-formed line for each check. -/
theorem test_wellFormed_refuses :
    (HostLine.ldval .c (2 ^ 256)).wellFormed = false ∧ (HostLine.ldbits (zeros 257)).wellFormed = false ∧
      (HostLine.ldtext (List.replicate 37 0x41)).wellFormed = false ∧ (HostLine.ldpctl 8 0 0).wellFormed = false ∧
      (HostLine.ldpctl 0 32 0).wellFormed = false ∧ (HostLine.ldpctl 0 0 32).wellFormed = false := by
  decide +kernel

/-- The largest operands that 30_encoding.md R100 admits. -/
theorem test_wellFormed_accepts :
    (HostLine.ldval .d (2 ^ 256 - 1)).wellFormed = true ∧ (HostLine.ldbits (zeros 256)).wellFormed = true ∧
      (HostLine.ldtext (List.replicate 36 0x41)).wellFormed = true ∧ (HostLine.ldpctl 7 31 31).wellFormed = true := by
  decide +kernel

/-! ## Small states -/

/-- The reset block with the text `t` loaded. -/
def textBlock (t : Text) : Block := { Block.reset with cbuf := padText 36 t, clen := BitVec.ofNat 8 t.length }

/-- The reset block with `n` bits in BUF, the first 32 of them `w`. -/
def bitsBlock (w : BitVec 256) (n : BitVec 9) : Block := { Block.reset with buf := w <<< 224, blen := n }

/-- A machine around a block, with the inputs given. -/
def machine (b : Block) (inputs : List Input) : State :=
  { block := b, inputs := inputs, responses := [], hostAgent := none, latencies := [3], latLeft := 0, draws := 0 }

/-- The words of the window after the word `w` is issued and completes. -/
def after (b : Block) (w : Word) (rs : List RegWord) : List Word :=
  match step ((machine b []).issueNow w) with
  | .next t => rs.map (readWord t.block)
  | _ => []

/-- What the host sees of one access, and words of the window after it. -/
def access (b : Block) (a : Access) (rs : List RegWord) : Option Response × List Word :=
  match step { machine b [.host 0 (.access a)] with latLeft := 1 } with
  | .next t => (t.responses.head?, rs.map (readWord t.block))
  | _ => (none, [])

/-- INT_ENC of 5 in 8 bits, ready to be issued. -/
def intBlock : Block := { Block.reset with widthC := 8, valC := 5 }

/-- A machine with INT_ENC of `intBlock` pending and two more accesses before its completion. -/
def busy (inputs : List Input) : State := { machine (intBlock.issue 0x10) inputs with hostAgent := some 0, latLeft := 2 }

/-! ## INT_ENC and INT_DEC: each clause at a boundary -/

/-- V-IE11, V-IE13, V-IE12, V-IE14, V-IE07, V-IE03, V-IE10, V-IE02. -/
theorem witness_IntEncEncodes :
    after { Block.reset with widthC := 257 } 0x10 [.status, .errinfo] = [0x16, 0x14] ∧
      after { Block.reset with widthC := 300, vneg := ⟨true, false⟩ } 0x10 [.status, .errinfo] = [0x16, 0x14] ∧
      after { Block.reset with widthC := 8, vneg := ⟨true, false⟩ } 0x10 [.status, .errinfo] = [0x16, 0x11] ∧
      after { Block.reset with widthC := 4, valC := 300, vneg := ⟨true, false⟩ } 0x10 [.status, .errinfo] = [0x16, 0x11] ∧
      after { Block.reset with widthC := 8, valC := 256 } 0x10 [.status, .errinfo] = [0x16, 0x12] ∧
      after { Block.reset with valC := 1 } 0x10 [.status, .errinfo] = [0x16, 0x12] ∧
      after { Block.reset with widthC := 256, valC := BitVec.allOnes 256 } 0x10 [.status, .blen, .buf 0, .buf 7]
        = [2, 256, 0xFFFFFFFF, 0xFFFFFFFF] ∧
      after Block.reset 0x10 [.status, .blen, .buf 0] = [2, 0, 0] := by
  decide +kernel

/-- V-IE15 (the tail is cleared) and V-IE08 (a field that crosses a word). -/
theorem test_intEnc :
    after { intBlock with valC := 0x34, buf := BitVec.allOnes 256, blen := 256 } 0x10 [.status, .blen, .buf 0, .buf 1, .buf 7]
        = [2, 8, 0x34000000, 0, 0] ∧
      after { Block.reset with widthC := 40, valC := 1 } 0x10 [.status, .blen, .buf 0, .buf 1] = [2, 40, 0, 0x01000000] := by
  decide +kernel

/-- V-ID07, V-ID04, V-ID02. -/
theorem witness_IntDecDecodes :
    after { bitsBlock 0 257 with valC := 99 } 0x11 [.status, .errinfo, .valC 0] = [0x16, 0x06, 99] ∧
      after { Block.reset with buf := BitVec.allOnes 256, blen := 256 } 0x11 [.status, .valC 0, .valC 7]
        = [2, 0xFFFFFFFF, 0xFFFFFFFF] ∧
      after Block.reset 0x11 [.status, .valC 0] = [2, 0] := by
  decide +kernel

/-- V-ID06 (bits past BLEN are ignored, NEG_C is cleared) and V-ID08. -/
theorem test_intDec :
    after { Block.reset with buf := BitVec.allOnes 256, blen := 4, valC := 99, vneg := ⟨true, true⟩ } 0x11
        [.status, .valC 0, .valC 1, .vneg] = [2, 0xF, 0, 2] ∧
      after { Block.reset with buf := 0xFFFFFFFFFF#256 <<< 216, blen := 40 } 0x11 [.status, .valC 0, .valC 1, .valC 2]
        = [2, 0xFFFFFFFF, 0xFF, 0] := by
  decide +kernel

/-! ## STR_ENC, STR_DEC and STR_URLENC -/

/-- V-SE19, V-SE18, V-SE09, V-SE13, V-SE11, V-SE17, V-SE03, V-SE16, V-SE04. -/
theorem witness_StrEncEncodes :
    after { textBlock [0x41] with widthC := 257 } 0x20 [.status, .errinfo] = [0x16, 0x14] ∧
      after { Block.reset with widthC := 256, clen := 37 } 0x20 [.status, .errinfo] = [0x16, 0x07] ∧
      after { textBlock [0x41, 0x42, 0x23] with widthC := 7 } 0x20 [.status, .errinfo] = [0x26, 0x218] ∧
      after { textBlock [0x7B] with widthC := 7 } 0x20 [.status, .errinfo] = [0x26, 0x18] ∧
      after { textBlock [0xC1] with widthC := 7 } 0x20 [.status, .errinfo] = [0x26, 0x18] ∧
      after { textBlock (List.replicate 36 0x7A) with widthC := 251 } 0x20 [.status, .errinfo] = [0x16, 0x13] ∧
      after { textBlock [0x41] with widthC := 6 } 0x20 [.status, .errinfo] = [0x16, 0x13] ∧
      after { textBlock (List.replicate 36 0x7A) with widthC := 252 } 0x20 [.status, .blen, .buf 0, .buf 7]
        = [2, 252, 0xF5EBD7AF, 0xF5EBD7A0] ∧
      after Block.reset 0x20 [.status, .blen, .buf 0] = [2, 0, 0] := by
  decide +kernel

/-- V-SE06 and V-SE05. -/
theorem test_strEnc :
    after { textBlock [0x61, 0x2F, 0x62] with widthC := 28 } 0x20 [.status, .blen, .buf 0, .buf 1] = [2, 28, 0xC2BF1000, 0] ∧
      after { Block.reset with widthC := 14, buf := BitVec.allOnes 256 } 0x20 [.status, .blen, .buf 0] = [2, 14, 0] := by
  decide +kernel

/-- V-SD14, V-SD03, V-SD08, V-SD02, V-SD07, V-SD09, V-SD05, V-SD06. -/
theorem witness_StrDecDecodes :
    after (bitsBlock 0 257) 0x21 [.status, .errinfo] = [0x16, 0x06] ∧
      after (bitsBlock 0x82021000 21) 0x21 [.status, .clen, .cbuf 0] = [2, 1, 0x41] ∧
      after (bitsBlock 0x82000000 11) 0x21 [.status, .clen, .cbuf 0] = [2, 1, 0x41] ∧
      after Block.reset 0x21 [.status, .clen] = [2, 0] ∧
      after (bitsBlock 0x82200000 11) 0x21 [.status, .errinfo] = [0x26, 0x11A] ∧
      after (bitsBlock 0xA0000000 3) 0x21 [.status, .errinfo] = [0x26, 0x1A] ∧
      after (bitsBlock 0x46000000 7) 0x21 [.status, .errinfo] = [0x26, 0x19] ∧
      after (bitsBlock 0x82040000 14) 0x21 [.status, .errinfo] = [0x26, 0x119] := by
  decide +kernel

/-- V-SD15 (the tail of CBUF is cleared) and V-SD13 (36 groups and a zero partial group). -/
theorem test_strDec :
    after { bitsBlock 0xC2BF1000 28 with cbuf := padText 36 [0x7A, 0x7A], clen := 2 } 0x21 [.status, .clen, .cbuf 0, .cbuf 1]
        = [2, 3, 0x00622F61, 0] ∧
      after { Block.reset with
          buf := 0xF5EBD7AF_5EBD7AF5_EBD7AF5E_BD7AF5EB_D7AF5EBD_7AF5EBD7_AF5EBD7A_F5EBD7A0#256, blen := 256 } 0x21
        [.status, .clen, .cbuf 0, .cbuf 8] = [2, 36, 0x7A7A7A7A, 0x7A7A7A7A] := by
  decide +kernel

/-- V-SU08, V-SU09, V-SU06, V-SU07, V-SU02. -/
theorem witness_StrUrlencRenders :
    after { Block.reset with clen := 37 } 0x22 [.status, .errinfo] = [0x16, 0x07] ∧
      after (textBlock [0x3F, 0x23]) 0x22 [.status, .errinfo] = [0x26, 0x118] ∧
      after (textBlock [0x61, 0x20, 0x62]) 0x22 [.status, .errinfo] = [0x26, 0x118] ∧
      after (textBlock (List.replicate 36 0x25)) 0x22 [.status, .ulen, .ubuf 0, .ubuf 26] = [2, 108, 0x25353225, 0x35322535] ∧
      after Block.reset 0x22 [.status, .ulen, .ubuf 0] = [2, 0, 0] := by
  decide +kernel

/-- V-SU01 and V-SU04. -/
theorem test_strUrlenc :
    after (textBlock [0x61, 0x2F, 0x62]) 0x22 [.status, .ulen, .ubuf 0, .ubuf 1, .ubuf 2] = [2, 5, 0x46322561, 0x62, 0] ∧
      after (textBlock [0x22, 0x25, 0x26, 0x2F, 0x3C, 0x3E, 0x3F]) 0x22 [.ulen, .ubuf 0, .ubuf 1, .ubuf 2, .ubuf 3, .ubuf 4, .ubuf 5]
        = [21, 0x25323225, 0x32253532, 0x46322536, 0x25433325, 0x33254533, 0x46] := by
  decide +kernel

/-! ## PART_ENC and PART_DEC -/

/-- The operands of V-PE06 to V-PE09. -/
def partBlock : Block := { Block.reset with pctl := ⟨0, 1, 1⟩, valC := 1, widthC := 4, valD := 1, widthD := 4 }

/-- V-PE10, V-PE08 with NEG_C for NEG_D, V-PE06, V-PE12, V-PE09, V-PE08, V-PE07, V-PE11, V-PE04 with PV 5, V-PE05 with PV 1. -/
theorem witness_PartEncEncodes :
    after { partBlock with widthC := 127, widthD := 127 } 0x30 [.status, .errinfo] = [0x16, 0x04] ∧
      after { partBlock with vneg := ⟨true, true⟩ } 0x30 [.status, .errinfo] = [0x16, 0x11] ∧
      after { partBlock with valC := 16 } 0x30 [.status, .errinfo] = [0x16, 0x12] ∧
      after { partBlock with widthC := 0 } 0x30 [.status, .errinfo] = [0x16, 0x12] ∧
      after { partBlock with valC := 16, vneg := ⟨false, true⟩ } 0x30 [.status, .errinfo] = [0x16, 0x12] ∧
      after { partBlock with vneg := ⟨false, true⟩ } 0x30 [.status, .errinfo] = [0x16, 0x21] ∧
      after { partBlock with valD := 16 } 0x30 [.status, .errinfo] = [0x16, 0x22] ∧
      after { partBlock with
          pctl := ⟨7, 1, 1⟩, widthC := 126, valC := BitVec.ofNat 256 (2 ^ 126 - 1), widthD := 127,
          valD := BitVec.ofNat 256 (2 ^ 127 - 1) } 0x30 [.status, .blen, .buf 0, .buf 7] = [2, 256, 0xFFFFFFFF, 0xFFFFFFFF] ∧
      after { partBlock with pctl := ⟨5, 0, 1⟩, valC := BitVec.allOnes 256, vneg := ⟨true, false⟩, valD := 3 } 0x30
        [.status, .blen, .buf 0] = [2, 11, 0xA0600000] ∧
      after { partBlock with pctl := ⟨1, 1, 0⟩, valC := 3, valD := BitVec.allOnes 256, vneg := ⟨false, true⟩ } 0x30
        [.status, .blen, .buf 0] = [2, 11, 0x26000000] := by
  decide +kernel

/-- V-PE02 (the GIAI-96 example W1 of the source) and V-PE13. -/
theorem test_partEnc :
    after { partBlock with pctl := ⟨6, 6, 1⟩, widthC := 20, widthD := 62 } 0x30 [.status, .blen, .buf 0, .buf 1, .buf 2]
        = [2, 85, 0xC0000200, 0, 0x00000800] ∧
      after { partBlock with pctl := ⟨3, 1, 1⟩, valC := 123456789, widthC := 30, valD := 999, widthD := 10 } 0x30
        [.status, .blen, .buf 0, .buf 1] = [2, 43, 0x63ADE68A, 0xFCE00000] := by
  decide +kernel

/-- The tag of V-PD02, 0x341800004000000000000001. -/
def tagBlock : Block :=
  { Block.reset with buf := 0x341800004000000000000001#256 <<< 160, blen := 96, offset := 14, widthC := 20, widthD := 62 }

/-- V-PD04, V-PD03, V-PD02, V-PD05. -/
theorem witness_PartDecDecodes :
    after { tagBlock with blen := 300 } 0x31 [.status, .errinfo] = [0x16, 0x06] ∧
      after { tagBlock with widthD := 63 } 0x31 [.status, .errinfo] = [0x16, 0x05] ∧
      after tagBlock 0x31 [.status, .valC 0, .valD 0] = [2, 1, 1] ∧
      after { bitsBlock 0xA0000000 3 with offset := 3, valC := 9, valD := 9, vneg := ⟨true, true⟩ } 0x31
        [.status, .valC 0, .valD 0, .vneg] = [2, 0, 0, 0] := by
  decide +kernel

/-- V-PD06 and V-PD07. -/
theorem test_partDec :
    after { bitsBlock 0x62600000 11 with offset := 3, widthC := 4, widthD := 4 } 0x31 [.status, .valC 0, .valD 0] = [2, 1, 3] ∧
      after { bitsBlock 0x62600000 11 with widthC := 4, widthD := 4 } 0x31 [.status, .valC 0, .valD 0] = [2, 6, 2] := by
  decide +kernel

/-! ## SPART_ENC and SPART_DEC -/

/-- The operands of V-TE04 to V-TE07, with the text `t`. -/
def spartBlock (t : Text) : Block := { textBlock t with pctl := ⟨0, 1, 1⟩, valC := 1, widthC := 4, widthD := 20 }

/-- V-TE09, V-TE05, V-TE06, V-TE07, V-TE03 with the operands of V-TE04, V-TE04, V-TE08, V-TE02. -/
theorem witness_SpartEncEncodes :
    after { spartBlock [] with widthC := 100, widthD := 154 } 0x38 [.status, .errinfo] = [0x16, 0x04] ∧
      after { spartBlock [] with clen := 37 } 0x38 [.status, .errinfo] = [0x16, 0x07] ∧
      after { spartBlock [] with clen := 37, pctl := ⟨0, 1, 0⟩ } 0x38 [.status, .errinfo] = [0x16, 0x07] ∧
      after { spartBlock [0x23] with valC := 32, widthD := 7 } 0x38 [.status, .errinfo] = [0x16, 0x12] ∧
      after { spartBlock [0x41] with vneg := ⟨true, false⟩ } 0x38 [.status, .errinfo] = [0x16, 0x11] ∧
      after (spartBlock [0x58, 0x23]) 0x38 [.status, .errinfo] = [0x26, 0x128] ∧
      after (spartBlock [0x41, 0x42, 0x43]) 0x38 [.status, .errinfo] = [0x16, 0x23] ∧
      after { spartBlock [0x41, 0x42] with widthD := 14 } 0x38 [.status, .blen, .buf 0] = [2, 21, 0x03061000] ∧
      after { spartBlock [0x23] with pctl := ⟨6, 6, 0⟩, widthC := 20, widthD := 168 } 0x38 [.status, .blen, .buf 0, .buf 1]
        = [2, 191, 0xC0000200, 0] := by
  decide +kernel

/-- V-TE01 and V-TE10. -/
theorem test_spartEnc :
    after { spartBlock [0x58] with pctl := ⟨6, 6, 1⟩, widthC := 20, widthD := 168 } 0x38 [.status, .blen, .buf 0, .buf 1]
        = [2, 191, 0xC0000360, 0] ∧
      after { spartBlock (List.replicate 21 0x7A) with widthC := 40, widthD := 148 } 0x38 [.blen, .buf 0, .buf 1, .buf 2, .buf 5]
        = [191, 0, 0x003EBD7A, 0xF5EBD7AF, 0xBD7AF5E8] := by
  decide +kernel

/-- The slice of V-TD03 and V-TD04, its first bits `w`. -/
def sliceBlock (w : BitVec 256) (wd n : BitVec 9) : Block := { bitsBlock w n with offset := 3, widthC := 4, widthD := wd }

/-- V-TD01 with BLEN 257, V-TD05, V-TD02, V-TD06, V-TD04, V-TD03. -/
theorem witness_SpartDecDecodes :
    after (sliceBlock 0 0 257) 0x39 [.status, .errinfo] = [0x16, 0x06] ∧
      after (sliceBlock 0 14 14) 0x39 [.status, .errinfo] = [0x16, 0x05] ∧
      after (sliceBlock 0x03061000 14 21) 0x39 [.status, .valC 0, .clen, .cbuf 0] = [2, 1, 2, 0x4241] ∧
      after { sliceBlock 0x0A000000 0 7 with cbuf := padText 36 [0x7A, 0x7A] } 0x39 [.status, .valC 0, .clen, .cbuf 0]
        = [2, 5, 0, 0] ∧
      after { sliceBlock 0x03068000 10 17 with valC := 9 } 0x39 [.status, .errinfo, .valC 0] = [0x26, 0x12A, 9] ∧
      after (sliceBlock 0x03051800 14 21) 0x39 [.status, .errinfo] = [0x26, 0x129] := by
  decide +kernel

/-- V-TD01; VAL_D and NEG_D are kept (42_partition.md R170). -/
theorem test_spartDec :
    after { sliceBlock 0xC0000360 168 191 with widthC := 20, valC := 9, valD := 9, vneg := ⟨true, true⟩ } 0x39
        [.status, .valC 0, .clen, .cbuf 0, .valD 0, .vneg] = [2, 1, 1, 0x58, 9, 2] := by
  decide +kernel

/-! ## Illegal words, the window, the busy window and reset -/

/-- V-IL05, V-IL06, V-IL01, V-IL03, V-IL04; the word stays in CMD; 0x39 is the last legal word. -/
theorem witness_IllegalWordsReport :
    after intBlock 0x100 [.status, .errinfo, .cmd] = [0x36, 0x0C, 0x100] ∧
      after intBlock 0xFFFFFFFF [.status, .errinfo, .blen, .cmd] = [0x36, 0x0C, 0, 0xFFFFFFFF] ∧
      after intBlock 0 [.status, .errinfo, .blen] = [0x36, 0x0B, 0] ∧ after intBlock 0x3A [.status, .errinfo] = [0x36, 0x0B] ∧
      after intBlock 0xFF [.status, .errinfo] = [0x36, 0x0B] ∧ after intBlock 0x39 [.status, .errinfo] = [0x16, 0x05] ∧
      ((machine intBlock []).issueNow 0x100).block.pending = some 0x100 := by
  decide +kernel

/-- V-BU03, V-BU04, V-BU05, V-BU06, V-BU07: accesses that are not admitted. -/
theorem test_bus_errors :
    access Block.reset (.write 0x000 (.word 0)) [.id] = (some .busError, [0x45504301]) ∧
      (access Block.reset (.write 0x030 (.word 0)) []).1 = some .busError ∧
      (access Block.reset (.write 0x300 (.word 0)) []).1 = some .busError ∧
      (access Block.reset (.read 0x034 .word) []).1 = some .busError ∧
      (access Block.reset (.read 0x120 .word) []).1 = some .busError ∧
      (access Block.reset (.read 0x224 .word) []).1 = some .busError ∧
      (access Block.reset (.read 0x36C .word) []).1 = some .busError ∧
      (access Block.reset (.read 0xFFC .word) []).1 = some .busError ∧
      (access Block.reset (.read 0x000 .byte) []).1 = some .busError ∧
      (access Block.reset (.write 0x014 (.half 8)) []).1 = some .busError ∧
      access Block.reset (.write 0x016 (.word 8)) [.widthC] = (some .busError, [0]) := by
  decide +kernel

/-- V-BU01, V-BU02, V-BU08 to V-BU12, V-BU18: reads, and the reserved bits of a write. -/
theorem test_bus_words :
    access Block.reset (.read 0x000 .word) [] = (some (.data 0x45504301), []) ∧
      access Block.reset (.read 0x004 .word) [] = (some (.data 0x00240100), []) ∧
      access Block.reset (.write 0x014 (.word 0xFFFFFFFF)) [.widthC] = (some .written, [0x1FF]) ∧
      access Block.reset (.write 0x02C (.word 0xFFFFFFFF)) [.clen] = (some .written, [0xFF]) ∧
      access Block.reset (.write 0x020 (.word 0xFFFFFFFF)) [.pctl] = (some .written, [0x001F1F07]) ∧
      access Block.reset (.write 0x024 (.word 0xFFFFFFFF)) [.vneg] = (some .written, [3]) ∧
      access Block.reset (.write 0x00C (.word 0xFFFFFFFF)) [.status] = (some .written, [0]) ∧
      access Block.reset (.write 0x04C (.word 0x12345678)) [.valC 3, .valC 0] = (some .written, [0x12345678, 0]) ∧
      access Block.reset (.write 0x100 (.word 0x80000001)) [.buf 0, .buf 7] = (some .written, [0x80000001, 0]) := by
  decide +kernel

/-- V-BU13 to V-BU17: an issue, a dropped write, a STATUS write and a read while the command is pending. -/
theorem test_busy_window :
    access intBlock (.write 0x008 (.word 0x10)) [.status, .cmd] = (some .written, [1, 0x10]) ∧
      access (intBlock.issue 0x10) (.write 0x014 (.word 3)) [.status, .widthC] = (some .written, [0x101, 8]) ∧
      access (intBlock.issue 0x10) (.write 0x008 (.word 0x11)) [.status, .cmd] = (some .written, [0x101, 0x10]) ∧
      access (intBlock.issue 0x10).dropWrite (.write 0x00C (.word 0x100)) [.status] = (some .written, [1]) ∧
      access (intBlock.issue 0x10) (.read 0x028 .word) [.status] = (some (.data 0), [1]) ∧
      after intBlock.dropWrite 0x10 [.status] = [0x102] := by
  decide +kernel

/-- V-RS02: a reset before the completion; the command never completes. -/
theorem test_reset_abandons :
    (match step (busy [.reset none]) with
      | .next t => decide (t.block = Block.reset)
      | _ => false) = true := by
  decide +kernel

/-! ## Witnesses of the statements' hypotheses -/

/-- The character `A` alone, with a width of 7. -/
def oneChar : Block := { textBlock [0x41] with widthC := 7, pctl := ⟨5, 1, 1⟩, widthD := 7, valC := 127 }

theorem witness_LegalWordsAreTheNine : decode 0x39 = .ok .spartDec ∧ Instr.wellFormed .spartDec = true := ⟨rfl, rfl⟩

theorem witness_StepRunsDecodedCommand :
    let s := (machine intBlock []).issueNow 0x10
    s.block.pending = some 0x10 ∧ s.latLeft = 0 ∧ s.inputs = [] ∧ Instr.wellFormed .intEnc = true ∧ decode 0x10 = .ok .intEnc :=
  ⟨rfl, rfl, rfl, rfl, rfl⟩

/-- Each encode command, at the largest operands that fit. -/
theorem witness_EncodersSucceedWhenOperandsFit :
    (let b := { Block.reset with widthC := 256, valC := BitVec.allOnes 256 };
      b.widthC.toNat ≤ 256 ∧ b.vneg.negC = false ∧ b.valC.toNat < 2 ^ b.widthC.toNat) ∧
    (let b := { textBlock (List.replicate 36 0x7A) with widthC := 252 };
      b.widthC.toNat ≤ 256 ∧ b.clen.toNat ≤ 36 ∧ (∀ i < b.clen.toNat, inAlphabet (b.charAt i) = true) ∧
        7 * b.clen.toNat ≤ b.widthC.toNat) ∧
    (let b := { partBlock with
        widthC := 126, valC := BitVec.ofNat 256 (2 ^ 126 - 1), widthD := 127, valD := BitVec.ofNat 256 (2 ^ 127 - 1) };
      3 + b.widthC.toNat + b.widthD.toNat ≤ 256 ∧ b.vneg = ⟨false, false⟩ ∧ b.valC.toNat < 2 ^ b.widthC.toNat ∧
        b.valD.toNat < 2 ^ b.widthD.toNat) ∧
    (let b := { partBlock with pctl := ⟨0, 0, 0⟩, vneg := ⟨true, true⟩ };
      b.pctl.cdig = 0 ∧ b.pctl.ddig = 0 ∧ 3 + b.widthC.toNat + b.widthD.toNat ≤ 256 ∧ b.clen.toNat ≤ 36) ∧
    (let b := oneChar;
      b.valC.toNat < 2 ^ b.widthC.toNat ∧ b.clen.toNat ≤ 36 ∧ (∀ i < b.clen.toNat, inAlphabet (b.charAt i) = true) ∧
        7 * b.clen.toNat ≤ b.widthD.toNat ∧ 3 + b.widthC.toNat + b.widthD.toNat ≤ 256) := by
  decide +kernel

/-- Each decode command: a whole string of groups, and one ended by a zero group. -/
theorem witness_DecodersSucceedOnGoodInput :
    (let b := sliceBlock 0x03061000 14 21;
      b.blen.toNat ≤ 256 ∧ b.offset.toNat + b.widthC.toNat + b.widthD.toNat ≤ b.blen.toNat ∧
        7 * 2 = b.widthD.toNat ∧ ∀ k < 2, inAlphabet (groupValue b.buf 7 14 k) = true) ∧
    (let b := bitsBlock 0x82000000 256;
      b.blen.toNat ≤ 256 ∧ 7 * 1 ≤ b.blen.toNat ∧ groupValue b.buf 0 256 1 = 0 ∧
        ∀ k < 1, inAlphabet (groupValue b.buf 0 256 k) = true) := by
  decide +kernel

theorem witness_IntegerRoundTrip :
    intBlock.widthC.toNat ≤ 256 ∧ intBlock.valC.toNat < 2 ^ intBlock.widthC.toNat ∧ intBlock.vneg.negC = false ∧
      (bitsBlock 0x34000000 8).blen.toNat ≤ 256 ∧
      ({ bitsBlock 0x34000000 8 with widthC := 8 } : Block).widthC = (bitsBlock 0x34000000 8).blen := by
  decide +kernel

theorem witness_TextRoundTrip :
    (∀ ch ∈ ([] : Text), inAlphabet ch.toNat = true) ∧ (∀ ch ∈ ([0x21, 0x7A] : Text), inAlphabet ch.toNat = true) ∧ 7 * ([0x21, 0x7A] : Text).length ≤ 14 ∧
      oneChar.widthC.toNat ≤ 256 ∧ oneChar.clen.toNat ≤ 36 ∧ 7 * oneChar.clen.toNat ≤ oneChar.widthC.toNat ∧
      ∀ i < oneChar.clen.toNat, inAlphabet (oneChar.charAt i) = true := by
  decide +kernel

theorem witness_PartitionRoundTrip :
    let b := { partBlock with offset := 3 }
    3 + b.widthC.toNat + b.widthD.toNat ≤ 256 ∧ b.offset = 3 ∧ b.valC.toNat < 2 ^ b.widthC.toNat ∧
      b.valD.toNat < 2 ^ b.widthD.toNat ∧ b.vneg = { negC := false, negD := false } := by
  decide +kernel

theorem witness_StringPartitionRoundTrip :
    let b := { oneChar with offset := 3 }
    3 + b.widthC.toNat + b.widthD.toNat ≤ 256 ∧ b.offset = 3 ∧ b.valC.toNat < 2 ^ b.widthC.toNat ∧ b.vneg.negC = false ∧
      b.clen.toNat ≤ 36 ∧ 7 * b.clen.toNat ≤ b.widthD.toNat ∧ ∀ i < b.clen.toNat, inAlphabet (b.charAt i) = true := by
  decide +kernel

/-- Two blocks that agree on what INT_ENC reads and on nothing else it could use; one state fails, the other succeeds. -/
theorem witness_ReadsAndWritesTheirColumns :
    agreeOnReads .intEnc intBlock { intBlock with valD := 1, buf := 7, blen := 9 } ∧
      (∃ t, exec .intEnc (machine intBlock []) = .next t ∧ t.block.status.err = false) ∧
      (∃ t, exec .intEnc (machine { intBlock with valC := 256 } []) = .next t ∧ t.block.status.err = true) :=
  ⟨⟨rfl, rfl, rfl⟩, ⟨_, rfl, rfl⟩, ⟨_, rfl, rfl⟩⟩

theorem witness_StatusFlagsOfEveryCommand :
    (∃ t, exec .strDec (machine Block.reset []) = .next t) ∧
      (let s := machine intBlock [.host 0 (.access (.write 0x008 (.word 0x10)))];
        s.block.pending = none ∧ s.hostTurn 0 (.write 0x008 (.word 0x10)) []) :=
  ⟨⟨_, rfl⟩, rfl, rfl, rfl, .inl rfl⟩

theorem witness_FailureWritesOnlyTheReport :
    ∃ t, exec .intEnc (machine { intBlock with valC := 256 } []) = .next t ∧ t.block.status.err = true := ⟨_, rfl, rfl⟩

theorem witness_CommandsReportTheirOwnSubCauses :
    ∃ t, exec .strEnc (machine (textBlock [0x23]) []) = .next t ∧ t.block.errinfo.sub = 8 := ⟨_, rfl, rfl⟩

/-- V-ID06's block: the bits past BLEN differ. -/
theorem witness_DecodersIgnoreBitsPastBlen :
    Instr.intDec ∈ [Instr.intDec, .strDec, .partDec, .spartDec] ∧
      (∀ j < (bitsBlock 0xF0000000 4).blen.toNat, (BitVec.allOnes 256).getMsbD j = (bitsBlock 0xF0000000 4).buf.getMsbD j) ∧
      ∃ t, exec .intDec (machine (bitsBlock 0xF0000000 4) []) = .next t :=
  ⟨by decide, by decide +kernel, _, rfl⟩

theorem witness_EncodersIgnoreCharactersPastClen :
    Instr.strEnc ∈ [Instr.strEnc, .strUrlenc, .spartEnc] ∧
      (∀ j : Fin 36, j.val < oneChar.clen.toNat → (padText 36 [0x41, 0x23])[j] = oneChar.cbuf[j]) ∧
      ∃ t, exec .strEnc (machine oneChar []) = .next t :=
  ⟨by decide, by decide +kernel, _, rfl⟩

theorem witness_ForcedFieldsIgnoreTheirOperands :
    let b := { oneChar with pctl := ⟨5, 0, 0⟩ }
    Instr.spartEnc ∈ [Instr.partEnc, .spartEnc] ∧ b.pctl.cdig = 0 ∧ b.pctl.ddig = 0 ∧
      (∃ t, exec .partEnc (machine b []) = .next t) ∧ ∃ t, exec .spartEnc (machine b []) = .next t :=
  ⟨by decide, rfl, rfl, ⟨_, rfl⟩, _, rfl⟩

theorem witness_StringVariantLeavesValDAlone :
    Instr.spartDec ∈ [Instr.spartEnc, .spartDec] ∧ ∃ t, exec .spartDec (machine (sliceBlock 0x03061000 14 21) []) = .next t :=
  ⟨by decide, _, rfl⟩

theorem witness_UriFormIsUnambiguous :
    (∀ ch ∈ ([0x61, 0x2F] : Text), inAlphabet ch.toNat = true) ∧ uenc [0x61, 0x2F] = [0x61, 0x25, 0x32, 0x46] := by
  decide +kernel

/-- 10_state.md R21: the first and the last register of one word, and a writable one between them, at their offsets. -/
theorem witness_AdmittedAccesses :
    admittedTransfer (.read 0x000 .word) = some (.read .id) ∧ admittedTransfer (.read 0x030 .word) = some (.read .ulen) ∧
      admittedTransfer (.write 0x018 (.word 7)) = some (.write .widthD 7) ∧ admittedTransfer (.write 0x030 (.word 7)) = none := by
  decide +kernel

theorem witness_BusErrorChangesNothing :
    (busy [.host 0 (.access (.write 0x030 (.word 0)))]).hostTurn 0 (.write 0x030 (.word 0)) [] ∧
      Access.admittedByRule (.write 0x030 (.word 0)) = false ∧ Access.admittedByRule (.read 0x36C .word) = false ∧
      Access.admittedByRule (.read 0x368 .word) = true :=
  ⟨⟨rfl, rfl, .inr (by decide)⟩, by decide +kernel, by decide +kernel, by decide +kernel⟩

theorem witness_ReadsHaveNoSideEffect :
    (busy [.host 0 (.access (.read 0x368 .word))]).hostTurn 0 (.read (RegWord.ubuf 26).accessOffset .word) [] :=
  ⟨rfl, rfl, .inr (by decide)⟩

theorem witness_WriteThenReadBack :
    let s := machine intBlock [.host 0 (.access (.write 0x220 (.word 0x42)))]
    s.block.pending = none ∧ (RegWord.cbuf 8).readOnly = false ∧ RegWord.cbuf 8 ≠ .cmd ∧ RegWord.cbuf 8 ≠ .status ∧
      s.hostTurn 0 (.write (RegWord.cbuf 8).accessOffset (.word 0x42)) [] :=
  ⟨rfl, rfl, by decide, by decide, rfl, rfl, .inl rfl⟩

theorem witness_CmdWriteIssues :
    let s := machine intBlock [.host 0 (.access (.write 0x008 (.word 0xFFFFFFFF)))]
    s.block.pending = none ∧ s.hostTurn 0 (.write 0x008 (.word 0xFFFFFFFF)) [] := ⟨rfl, rfl, rfl, .inl rfl⟩

theorem witness_BusyWriteIsDropped :
    let s := busy [.host 0 (.access (.write 0x008 (.word 0x11)))]
    s.block.pending = some 0x10 ∧ RegWord.cmd.readOnly = false ∧ RegWord.cmd ≠ .status ∧
      s.hostTurn 0 (.write RegWord.cmd.accessOffset (.word 0x11)) [] :=
  ⟨rfl, rfl, by decide, rfl, rfl, .inr (by decide)⟩

theorem witness_StatusWriteChangesOnlyColl :
    (busy [.host 0 (.access (.write 0x00C (.word 0x100)))]).hostTurn 0 (.write 0x00C (.word 0x100)) [] :=
  ⟨rfl, rfl, .inr (by decide)⟩

/-- The first and the last bit of BUF, and the first and last character of each text buffer. -/
theorem witness_BufBitOrder :
    (bufString (bitsBlock 0x80000000 1).buf)[0]? = some true ∧ (bufString 1)[255]? = some true ∧
      readWord { Block.reset with buf := 1 } (.buf 7) = 1 := by
  decide +kernel

theorem witness_CharacterByteOrder :
    readWord (textBlock (List.replicate 35 0 ++ [0x7A])) (.cbuf 8) = 0x7A000000 ∧ readWord (textBlock [0x41]) (.cbuf 0) = 0x41 := by
  decide +kernel

/-- Each pseudo-instruction that loads, at its largest operands, on an idle block. -/
theorem witness_LoadPseudoInstructionsLoad :
    (∀ line ∈ [HostLine.ldval .c (2 ^ 256 - 1), .ldval .d 0, .ldbits (zeros 256), .ldtext (List.replicate 36 0x41), .ldpctl 7 31 31],
      line.wellFormed = true) ∧
    (let s := machine intBlock (hostInputs 0 [.ldpctl 7 31 31] ++ []);
      s.block.pending = none ∧ s.otherHost 0 = false ∧ s.inputs = hostInputs 0 [.ldpctl 7 31 31] ++ []) :=
  ⟨by decide +kernel, rfl, rfl, rfl⟩

theorem witness_ResetAbandonsThePendingCommand :
    let s := busy [.reset (some (.read 0x00C .word))]
    s.inputs = .reset (some (.read 0x00C .word)) :: [] ∧ s.block.pending = some 0x10 ∧ s.latLeft ≠ 0 := ⟨rfl, rfl, by decide⟩

/-- The idle block with INT_ENC's operands meets the invariant. -/
theorem idle_inv : intBlock.Inv where
  busy_iff_pending := rfl
  done_not_busy := by intro h; cases h
  err_done := by intro h; cases h
  err_iff_code := by decide
  report_legal := .inl ⟨rfl, rfl⟩
  cmd_pending := by intro w h; cases h
  ulen_le := by decide
  ubuf_tail := by intro j _; revert j; decide +kernel

/-- A block with INT_ENC pending meets the invariant. -/
theorem busy_inv (inputs : List Input) : (busy inputs).Inv where
  busy_iff_pending := rfl
  done_not_busy := by intro h; cases h
  err_done := by intro h; cases h
  err_iff_code := by simp [busy, machine, Block.issue, issuedStatus]
  report_legal := .inl ⟨rfl, rfl⟩
  cmd_pending := by intro w h; cases h; rfl
  ulen_le := idle_inv.ulen_le
  ubuf_tail := idle_inv.ubuf_tail

theorem witness_EveryStepKeepsTheInvariant : (busy []).Inv ∧ ∃ t, step (busy []) = .next t := ⟨busy_inv [], _, rfl⟩

/-- COLL cleared by a write of STATUS and by a reset, and set by a dropped write. -/
theorem witness_CollIsSticky :
    (∃ t, step { busy [.host 0 (.access (.write 0x00C (.word 0x100)))] with block := (intBlock.issue 0x10).dropWrite } = .next t ∧
      t.block.status.coll = false) ∧
    (∃ t, step { busy [.reset none] with block := (intBlock.issue 0x10).dropWrite } = .next t ∧ t.block.status.coll = false) ∧
    (∃ t, step (busy [.host 0 (.access (.write 0x014 (.word 3)))]) = .next t ∧ t.block.status.coll = true) :=
  ⟨⟨_, rfl, by decide +kernel⟩, ⟨_, rfl, by decide +kernel⟩, ⟨_, rfl, by decide +kernel⟩⟩

theorem witness_OnlyACmdWriteStartsACommand :
    let s := machine intBlock [.host 0 (.access (.write 0x008 (.word 0x10)))]
    s.block.pending ≠ some 0x10 ∧ ∃ t, step s = .next t ∧ t.block.pending = some 0x10 :=
  ⟨by decide, _, rfl, by decide +kernel⟩

/-- UBUF written by STR_URLENC, and cleared by a reset. -/
theorem witness_OnlyUrlencWritesUbuf :
    (∃ t, step ((machine (textBlock [0x41]) []).issueNow 0x22) = .next t ∧ t.block.ulen = 1) ∧
    (∃ t, step (machine { Block.reset with ulen := 1 } [.reset none]) = .next t ∧ t.block.ulen = 0) :=
  ⟨⟨_, rfl, by decide +kernel⟩, ⟨_, rfl, by decide +kernel⟩⟩

/-- WIDTH_C written by the host, and cleared by a reset. -/
theorem witness_OnlyTheHostWritesOperandFields :
    (∃ t, step (machine Block.reset [.host 0 (.access (.write 0x014 (.word 8)))]) = .next t ∧ t.block.widthC = 8) ∧
    (∃ t, step (machine intBlock [.reset none]) = .next t ∧ t.block.widthC = 0) :=
  ⟨⟨_, rfl, by decide +kernel⟩, ⟨_, rfl, by decide +kernel⟩⟩

theorem witness_OperandsFrozenWhilePending :
    let s := busy [.host 0 (.access (.write 0x014 (.word 3)))]
    s.block.pending = some 0x10 ∧ ∃ t, step s = .next t ∧ t.block.pending = some 0x10 := ⟨rfl, _, rfl, by decide +kernel⟩

/-- A poll with a command pending, in a state that meets the invariant. -/
theorem witness_StatusPollTellsCompletion :
    let s := busy [.host 0 (.access (.read 0x00C .word))]
    s.Inv ∧ s.hostTurn 0 (.read 0x00C .word) [] := ⟨busy_inv _, rfl, rfl, .inr (by decide)⟩

theorem witness_SecondHostIsRefused :
    let s := busy [.host 1 (.access (.read 0x00C .word))]
    s.hostAgent = some 0 ∧ (1 : Nat) ≠ 0 ∧ s.inputs = .host 1 (.access (.read 0x00C .word)) :: [] ∧ s.latLeft ≠ 0 :=
  ⟨rfl, by decide, rfl, by decide⟩

theorem witness_IdleBlockKeepsItsRegisters : (machine intBlock []).block.pending = none ∧ (machine intBlock []).inputs = [] :=
  ⟨rfl, rfl⟩

theorem witness_WaitLoopEnds :
    let s := busy [.host 0 .wait]
    s.block.pending = some 0x10 ∧ s.block.status.busy = true ∧ s.otherHost 0 = false ∧ s.inputs = .host 0 .wait :: [] :=
  ⟨rfl, rfl, rfl, rfl⟩

/-- A program that issues INT_ENC, clears COLL, waits and writes, under two values of LAT. -/
theorem witness_EndStateIndependentOfLatency :
    let program := hostInputs 0 [.issue .intEnc, .wr .status 0x100, .wait, .wr .widthC 3]
    let s := machine intBlock program
    let s' := { machine intBlock program with latencies := [0] }
    s.block = s'.block ∧ s.inputs = s'.inputs ∧ s.hostAgent = s'.hostAgent ∧ s.block.pending = none ∧ s.block.Inv ∧
      s.otherHost 0 = false ∧ oneHost 0 s.inputs = true ∧ keepsBusyWindow false s.inputs = true ∧ s.latencies ≠ s'.latencies :=
  ⟨rfl, rfl, rfl, rfl, idle_inv, rfl, by decide +kernel, by decide +kernel, by decide⟩

end Sys2Proof.Tests
end

section
/-! SUPPORT. The columns of 10_state.md R46. `takeWrites` says what a command makes of a block: the evaluation on any block that agrees on
the "reads" column is the same error or the same results, put into that block's "writes" column. -/

namespace Sys2Proof.Machine

/-- The block `b` with the registers of the "writes" column of a command taken from `r` (10_state.md R46). -/
def takeWrites (i : Instr) (r b : Block) : Block :=
  match i with
  | .intEnc | .strEnc | .partEnc | .spartEnc => { b with buf := r.buf, blen := r.blen }
  | .intDec => { b with valC := r.valC, vneg := { b.vneg with negC := r.vneg.negC } }
  | .strDec => { b with cbuf := r.cbuf, clen := r.clen }
  | .strUrlenc => { b with ubuf := r.ubuf, ulen := r.ulen }
  | .partDec => { b with valC := r.valC, valD := r.valD, vneg := r.vneg }
  | .spartDec =>
    { b with valC := r.valC, vneg := { b.vneg with negC := r.vneg.negC }, cbuf := r.cbuf, clen := r.clen }

/-! ## The two columns -/

theorem agreeOnReads_refl (i : Instr) (b : Block) : agreeOnReads i b b := by
  cases i <;> simp only [agreeOnReads, and_self]

theorem agreeOnWrites_takeWrites (i : Instr) (r b b' : Block) :
    agreeOnWrites i (takeWrites i r b).succeed (takeWrites i r b').succeed := by
  cases i <;> simp [agreeOnWrites, takeWrites]

theorem agreeOnWrites_raiseError (i : Instr) (b : Block) (e : CmdError) : agreeOnWrites i (b.raiseError e) b := by
  cases i <;> simp [agreeOnWrites]

theorem keepsUnwritten_takeWrites (i : Instr) (r b : Block) : keepsUnwritten i (takeWrites i r b).succeed b := by
  cases i <;> rfl

theorem keepsUnwritten_raiseError (i : Instr) (b : Block) (e : CmdError) : keepsUnwritten i (b.raiseError e) b := by
  cases i <;> rfl

/-! ## The evaluation of each command from its "reads" column -/

section
variable {b b' : Block}

theorem inputBits_congr (hn : b.blen = b'.blen) (hs : b.buf = b'.buf) : b.inputBits = b'.inputBits := by
  rw [Block.inputBits, Block.inputBits, hn, hs]

theorem inputText_congr (hm : b.clen = b'.clen) (ht : b.cbuf = b'.cbuf) : b.inputText = b'.inputText := by
  rw [Block.inputText, Block.inputText, hm, ht]

theorem evalIntEnc_congr (h : agreeOnReads .intEnc b b') :
    evalIntEnc b' = (evalIntEnc b).map (takeWrites .intEnc · b') := by
  obtain ⟨hw, hneg, hv⟩ := h
  simp only [evalIntEnc, hw, hneg, hv]
  split
  · rfl
  · cases encodeInt b'.vneg.negC b'.valC.toNat b'.widthC.toNat .c <;> rfl

theorem evalIntDec_congr (h : agreeOnReads .intDec b b') :
    evalIntDec b' = (evalIntDec b).map (takeWrites .intDec · b') := by
  obtain ⟨hn, hs⟩ := h
  simp only [evalIntDec, inputBits_congr hn hs, hn]
  split <;> rfl

theorem evalStrEnc_congr (h : agreeOnReads .strEnc b b') :
    evalStrEnc b' = (evalStrEnc b).map (takeWrites .strEnc · b') := by
  obtain ⟨hw, hm, ht⟩ := h
  simp only [evalStrEnc, inputText_congr hm ht, hw, hm]
  split
  · rfl
  · split
    · rfl
    · cases encodeText b'.inputText b'.widthC.toNat .c <;> rfl

theorem evalStrDec_congr (h : agreeOnReads .strDec b b') :
    evalStrDec b' = (evalStrDec b).map (takeWrites .strDec · b') := by
  obtain ⟨hn, hs⟩ := h
  simp only [evalStrDec, inputBits_congr hn hs, hn]
  split
  · rfl
  · cases sdec b'.inputBits .c <;> rfl

theorem evalStrUrlenc_congr (h : agreeOnReads .strUrlenc b b') :
    evalStrUrlenc b' = (evalStrUrlenc b).map (takeWrites .strUrlenc · b') := by
  obtain ⟨hm, ht⟩ := h
  simp only [evalStrUrlenc, inputText_congr hm ht, hm]
  split
  · rfl
  · cases firstBadChar b'.inputText <;> rfl

theorem evalPartEnc_congr (h : agreeOnReads .partEnc b b') :
    evalPartEnc b' = (evalPartEnc b).map (takeWrites .partEnc · b') := by
  obtain ⟨hwc, hwd, hp, hneg, hvc, hvd⟩ := h
  simp only [evalPartEnc, hwc, hwd, hp, hneg, hvc, hvd]
  split
  · rfl
  · cases encodeIntField b'.pctl.cdig b'.vneg.negC b'.valC.toNat b'.widthC.toNat .c with
    | error e => rfl
    | ok c => cases encodeIntField b'.pctl.ddig b'.vneg.negD b'.valD.toNat b'.widthD.toNat .d <;> rfl

theorem evalPartDec_congr (h : agreeOnReads .partDec b b') :
    evalPartDec b' = (evalPartDec b).map (takeWrites .partDec · b') := by
  obtain ⟨hn, hs, ho, hwc, hwd⟩ := h
  simp only [evalPartDec, hn, hs, ho, hwc, hwd]
  split
  · rfl
  · split <;> rfl

theorem evalSpartEnc_congr (h : agreeOnReads .spartEnc b b') :
    evalSpartEnc b' = (evalSpartEnc b).map (takeWrites .spartEnc · b') := by
  obtain ⟨hwc, hwd, hp, hneg, hvc, hm, ht⟩ := h
  simp only [evalSpartEnc, inputText_congr hm ht, hwc, hwd, hp, hneg, hvc, hm]
  split
  · rfl
  · split
    · rfl
    · cases encodeIntField b'.pctl.cdig b'.vneg.negC b'.valC.toNat b'.widthC.toNat .c with
      | error e => rfl
      | ok c => cases encodeTextField b'.pctl.ddig b'.inputText b'.widthD.toNat .d <;> rfl

theorem evalSpartDec_congr (h : agreeOnReads .spartDec b b') :
    evalSpartDec b' = (evalSpartDec b).map (takeWrites .spartDec · b') := by
  obtain ⟨hn, hs, ho, hwc, hwd⟩ := h
  simp only [evalSpartDec, hn, hs, ho, hwc, hwd]
  split
  · rfl
  · split
    · rfl
    · cases sdec (slice (bufString b'.buf) (b'.offset.toNat + b'.widthC.toNat)
          (b'.offset.toNat + b'.widthC.toNat + b'.widthD.toNat)) .d <;> rfl

/-- A command's evaluation is a function of its "reads" column: on two blocks that agree there it gives the same error, or the same
results in the "writes" column of either block. -/
theorem evalOf_congr (i : Instr) (h : agreeOnReads i b b') : evalOf i b' = (evalOf i b).map (takeWrites i · b') := by
  cases i with
  | intEnc => exact evalIntEnc_congr h
  | intDec => exact evalIntDec_congr h
  | strEnc => exact evalStrEnc_congr h
  | strDec => exact evalStrDec_congr h
  | strUrlenc => exact evalStrUrlenc_congr h
  | partEnc => exact evalPartEnc_congr h
  | partDec => exact evalPartDec_congr h
  | spartEnc => exact evalSpartEnc_congr h
  | spartDec => exact evalSpartDec_congr h

/-- Two completions of a command on blocks that agree on its "reads" column raise the same error, or succeed with the same results. -/
theorem complete_cases_of_agreeOnReads (i : Instr) (h : agreeOnReads i b b') :
    (∃ e, b.complete (evalOf i b) = b.raiseError e ∧ b'.complete (evalOf i b') = b'.raiseError e) ∨
    (∃ r, b.complete (evalOf i b) = (takeWrites i r b).succeed ∧ b'.complete (evalOf i b') = (takeWrites i r b').succeed) := by
  have hself := evalOf_congr i (agreeOnReads_refl i b)
  rw [evalOf_congr i h]
  cases hr : evalOf i b with
  | error e => exact .inl ⟨e, rfl, rfl⟩
  | ok r =>
    have hframe : r = takeWrites i r b := Except.ok.inj (by rw [hr] at hself; exact hself)
    exact .inr ⟨r, congrArg Block.succeed hframe, rfl⟩

end

/-- A completion of a command raises an error or puts results into its "writes" column. -/
theorem complete_cases (i : Instr) (b : Block) :
    (∃ e, b.complete (evalOf i b) = b.raiseError e) ∨ (∃ r, b.complete (evalOf i b) = (takeWrites i r b).succeed) :=
  (complete_cases_of_agreeOnReads i (agreeOnReads_refl i b)).imp (fun ⟨e, he, _⟩ => ⟨e, he⟩) fun ⟨r, hr, _⟩ => ⟨r, hr⟩

theorem complete_keepsUnwritten (i : Instr) (b : Block) : keepsUnwritten i (b.complete (evalOf i b)) b := by
  obtain ⟨e, he⟩ | ⟨r, hr⟩ := complete_cases i b
  · rw [he]; exact keepsUnwritten_raiseError i b e
  · rw [hr]; exact keepsUnwritten_takeWrites i r b

theorem complete_err_agreeOnWrites (i : Instr) (b : Block) (h : (b.complete (evalOf i b)).status.err = true) :
    agreeOnWrites i (b.complete (evalOf i b)) b := by
  obtain ⟨e, he⟩ | ⟨r, hr⟩ := complete_cases i b
  · rw [he]; exact agreeOnWrites_raiseError i b e
  · rw [hr] at h; exact absurd h Bool.false_ne_true

/-- Settles O20: the frame and the failing case are facts about one completion, the dependence on the "reads" column compares the
completions of two blocks that agree on it. -/
theorem readsAndWritesTheirColumns : Obligations.ReadsAndWritesTheirColumns := by
  intro i s s'
  refine ⟨_, _, exec_eq_next i s, exec_eq_next i s', complete_keepsUnwritten i s.block, complete_err_agreeOnWrites i s.block, ?_⟩
  intro h
  obtain ⟨e, he, he'⟩ | ⟨r, hr, hr'⟩ := complete_cases_of_agreeOnReads i h
  · simp [he, he']
  · simp [hr, hr', agreeOnWrites_takeWrites]

end Sys2Proof.Machine
end

section
/-! SUPPORT. The fields of a word of the window (10_state.md R21, R43): a register of one word is its fields, each placed at its bits. -/

namespace Sys2Proof.Machine

/-! ## The constant words -/

theorem readWord_id (b : Block) : readWord b .id = 0x45504301 := rfl

/-- BUF_BITS stands in the low half of PARAM and MAX_CHARS above it (10_state.md R23). -/
theorem readWord_param (b : Block) : readWord b .param = 0x00240100 := rfl

/-- Settles O43: the two constants, and the capacities as the bits of PARAM. -/
theorem idAndParamAreConstant : Obligations.IdAndParamAreConstant := by
  intro b
  rw [readWord_param]
  exact ⟨readWord_id b, rfl, rfl, rfl, rfl⟩

/-! ## A field in its word -/

/-- A field of a word of the window, placed at bit `k` with every other bit 0 (10_state.md R43). -/
def fieldAt {n : Nat} (x : BitVec n) (k : Nat) : Word := x.zeroExtend 32 <<< k

section
variable {n : Nat} (x : BitVec n)

theorem getLsbD_fieldAt (k i : Nat) :
    (fieldAt x k).getLsbD i = (decide (i < 32) && decide (k ≤ i) && x.getLsbD (i - k)) := by
  simp only [fieldAt, BitVec.truncate_eq_setWidth, BitVec.getLsbD_shiftLeft, BitVec.getLsbD_setWidth]
  by_cases hi : i < 32
  · have hik : i - k < 32 := by omega
    simp [hi, hik, ← decide_not]
  · simp [hi]

theorem extractLsb'_fieldAt_same (k : Nat) (h : k + n ≤ 32) : (fieldAt x k).extractLsb' k n = x := by
  apply BitVec.eq_of_getLsbD_eq
  intro i hi
  rw [BitVec.getLsbD_extractLsb', getLsbD_fieldAt]
  have hki : k + i < 32 := by omega
  simp [hi, hki]

theorem extractLsb'_fieldAt_other (k j m : Nat) (h : k + n ≤ j ∨ j + m ≤ k) : (fieldAt x k).extractLsb' j m = 0 := by
  apply BitVec.eq_of_getLsbD_eq
  intro i hi
  rw [BitVec.getLsbD_extractLsb', getLsbD_fieldAt]
  obtain h | h := h
  · simp [BitVec.getLsbD_of_ge x (j + i - k) (by omega)]
  · simp [show ¬ k ≤ j + i by omega]

/-- A field is 0 under a mask that is 0 at all of the field's bits. -/
theorem fieldAt_and_eq_zero (k : Nat) (m : Word) (h : fieldAt (BitVec.allOnes n) k &&& m = 0) : fieldAt x k &&& m = 0 := by
  have hx : fieldAt x k &&& fieldAt (BitVec.allOnes n) k = fieldAt x k := by
    simp only [fieldAt, ← BitVec.shiftLeft_and_distrib, BitVec.truncate_eq_setWidth, ← BitVec.setWidth_and, BitVec.and_allOnes]
  rw [← hx, BitVec.and_assoc, h]
  exact BitVec.and_zero

end

theorem or_and_eq_zero_iff (x y m : Word) : (x ||| y) &&& m = 0 ↔ x &&& m = 0 ∧ y &&& m = 0 := by
  rw [BitVec.and_or_distrib_right]
  exact BitVec.or_eq_zero_iff

/-- A mask that is 1 at all of a field's bits does not change what a write takes for the field. -/
theorem extractLsb'_and_mask {k n : Nat} (v m : Word) (h : m.extractLsb' k n = BitVec.allOnes n) :
    (v &&& m).extractLsb' k n = v.extractLsb' k n := by
  rw [BitVec.extractLsb'_and, h, BitVec.and_allOnes]

/-! ## The words that are held by fields -/

theorem zeroExtend_eq_fieldAt {n : Nat} (x : BitVec n) : x.zeroExtend 32 = fieldAt x 0 := (BitVec.shiftLeft_zero _).symm

theorem Status.toWord_eq (s : Status) :
    s.toWord = fieldAt (BitVec.ofBool s.coll) 8 ||| fieldAt s.errcode 4 ||| fieldAt (BitVec.ofBool s.err) 2
      ||| fieldAt (BitVec.ofBool s.done) 1 ||| fieldAt (BitVec.ofBool s.busy) 0 := by
  rw [Status.toWord, zeroExtend_eq_fieldAt (BitVec.ofBool s.busy)]; rfl

theorem ErrInfo.toWord_eq (e : ErrInfo) : e.toWord = fieldAt e.index 8 ||| fieldAt e.field 4 ||| fieldAt e.sub 0 := by
  rw [ErrInfo.toWord, zeroExtend_eq_fieldAt e.sub]; rfl

theorem Pctl.toWord_eq (p : Pctl) : p.toWord = fieldAt p.ddig 16 ||| fieldAt p.cdig 8 ||| fieldAt p.pv 0 := by
  rw [Pctl.toWord, zeroExtend_eq_fieldAt p.pv]; rfl

theorem Vneg.toWord_eq (v : Vneg) : v.toWord = fieldAt (BitVec.ofBool v.negD) 1 ||| fieldAt (BitVec.ofBool v.negC) 0 := by
  rw [Vneg.toWord, zeroExtend_eq_fieldAt (BitVec.ofBool v.negC)]; rfl

/-- The fields of STATUS stand at the bits of 10_state.md R25. -/
theorem Status.toWord_fields (s : Status) :
    s.toWord.getLsbD 0 = s.busy ∧ s.toWord.getLsbD 1 = s.done ∧ s.toWord.getLsbD 2 = s.err ∧
      s.toWord.extractLsb' 4 4 = s.errcode ∧ s.toWord.getLsbD 8 = s.coll := by
  simp only [Status.toWord_eq, BitVec.getLsbD_or, getLsbD_fieldAt, BitVec.getLsbD_ofBool]
  simp [BitVec.extractLsb'_or, extractLsb'_fieldAt_same, extractLsb'_fieldAt_other]

/-- The fields of ERRINFO stand at the bits of 10_state.md R27. -/
theorem ErrInfo.toWord_fields (e : ErrInfo) :
    e.toWord.extractLsb' 0 4 = e.sub ∧ e.toWord.extractLsb' 4 2 = e.field ∧ e.toWord.extractLsb' 8 8 = e.index := by
  simp [ErrInfo.toWord_eq, BitVec.extractLsb'_or, extractLsb'_fieldAt_same, extractLsb'_fieldAt_other]

/-- The fields of PCTL stand at the bits of 10_state.md R31. -/
theorem Pctl.toWord_fields (p : Pctl) :
    p.toWord.extractLsb' 0 3 = p.pv ∧ p.toWord.extractLsb' 8 5 = p.cdig ∧ p.toWord.extractLsb' 16 5 = p.ddig := by
  simp [Pctl.toWord_eq, BitVec.extractLsb'_or, extractLsb'_fieldAt_same, extractLsb'_fieldAt_other]

/-- The fields of VNEG stand at the bits of 10_state.md R32. -/
theorem Vneg.toWord_fields (v : Vneg) : v.toWord.getLsbD 0 = v.negC ∧ v.toWord.getLsbD 1 = v.negD := by
  simp only [Vneg.toWord_eq, BitVec.getLsbD_or, getLsbD_fieldAt, BitVec.getLsbD_ofBool]
  simp

/-- The one field of a width, offset or length register stands at bit 0 (10_state.md R21). -/
theorem extractLsb'_zeroExtend {n : Nat} (x : BitVec n) (h : n ≤ 32) : (x.zeroExtend 32).extractLsb' 0 n = x := by
  rw [zeroExtend_eq_fieldAt, extractLsb'_fieldAt_same x 0 (by omega)]

/-! ## Reserved bits (10_state.md R43) -/

/-- The bits that 10_state.md R21 shows as 0 read as zero. -/
theorem readWord_reserved (b : Block) (r : RegWord) : readWord b r &&& ~~~r.shownBits = 0 := by
  cases r with
  | id => rw [readWord_id]; decide
  | param => rw [readWord_param]; decide
  | status | errinfo | pctl | vneg =>
    simp only [readWord, Status.toWord_eq, ErrInfo.toWord_eq, Pctl.toWord_eq, Vneg.toWord_eq, or_and_eq_zero_iff]
    and_intros <;> exact fieldAt_and_eq_zero _ _ _ (by decide)
  | widthC | widthD | offset | blen | clen | ulen =>
    rw [readWord, zeroExtend_eq_fieldAt]
    exact fieldAt_and_eq_zero _ _ _ (by decide)
  | cmd | valC | valD | buf | cbuf | ubuf => simp [RegWord.shownBits]

/-- A written word acts on the block only through its writable bits. -/
theorem storeWord_and_writableBits (b : Block) (v : Word) (r : RegWord) :
    storeWord b (v &&& r.writableBits) r = storeWord b v r := by
  cases r with
  | id | param | cmd | errinfo | ulen | ubuf => rfl
  | status => simp [storeWord, writeStatus, RegWord.writableBits]
  | pctl =>
    simp only [storeWord]
    rw [extractLsb'_and_mask v _ rfl, extractLsb'_and_mask v _ rfl, extractLsb'_and_mask v _ rfl]
  | vneg => simp [storeWord, RegWord.writableBits]
  | widthC | widthD | offset | blen | clen =>
    simp only [storeWord]
    rw [extractLsb'_and_mask v _ rfl]
  | valC | valD | buf | cbuf =>
    exact congrArg (storeWord b · _) BitVec.and_allOnes

/-- Settles O35: the reserved bits are `readWord_reserved` and `storeWord_and_writableBits`, the place of each field is the
`toWord_fields` of its register, and the fields a write takes are those `storeWord` names. -/
theorem reservedBitsReadZeroAndIgnoreWrites : Obligations.ReservedBitsReadZeroAndIgnoreWrites := by
  refine ⟨fun b r v => ⟨readWord_reserved b r, (storeWord_and_writableBits b v r).symm, rfl⟩, fun b => ?_, fun b v => ?_⟩
  · obtain ⟨hbusy, hdone, herr, hcode, hcoll⟩ := b.status.toWord_fields
    obtain ⟨hsub, hfield, hindex⟩ := b.errinfo.toWord_fields
    obtain ⟨hpv, hcdig, hddig⟩ := b.pctl.toWord_fields
    obtain ⟨hnegC, hnegD⟩ := b.vneg.toWord_fields
    exact ⟨hbusy, hdone, herr, hcode, hcoll, hsub, hfield, hindex, hpv, hcdig, hddig, hnegC, hnegD, rfl,
      extractLsb'_zeroExtend _ (by decide), extractLsb'_zeroExtend _ (by decide), extractLsb'_zeroExtend _ (by decide),
      extractLsb'_zeroExtend _ (by decide), extractLsb'_zeroExtend _ (by decide), extractLsb'_zeroExtend _ (by decide)⟩
  · exact ⟨rfl, rfl, rfl, rfl, rfl, rfl, rfl, rfl⟩

end Sys2Proof.Machine
end

section
/-! SUPPORT. The words of the window in the numbers of 20_memory.md: which offsets are mapped (R61) and in what order the words of a buffer
hold its bits and characters (R64 to R66). -/

namespace Sys2Proof.Machine

/-! ## The registers of one word (10_state.md R21) -/

/-- The offsets at which R21 places a register of one word, each with its register. -/
def oneWordRegisters : List (BitVec 12 × RegWord) :=
  [(0x000, .id), (0x004, .param), (0x008, .cmd), (0x00C, .status), (0x010, .errinfo), (0x014, .widthC), (0x018, .widthD),
    (0x01C, .offset), (0x020, .pctl), (0x024, .vneg), (0x028, .blen), (0x02C, .clen), (0x030, .ulen)]

theorem oneWordRegisters_spec : ∀ p ∈ oneWordRegisters,
    p.2.accessOffset = p.1 ∧ (p.2.readOnly = true ↔ p.2 ∈ [RegWord.id, .param, .errinfo, .ulen]) := by decide

theorem byteOffset_oneWordRegisters : ∀ k : Fin 13, oneWordRegisters[k].2.byteOffset = 4 * k.val := by decide

/-! ## The mapped offsets (20_memory.md R61) -/

theorem mappedOffset_iff (off : Nat) : mappedOffset off = true ↔
    off % 4 = 0 ∧ (off ≤ 0x030 ∨ 0x040 ≤ off ∧ off ≤ 0x07C ∨ 0x100 ≤ off ∧ off ≤ 0x11C ∨ 0x200 ≤ off ∧ off ≤ 0x220 ∨
      0x300 ≤ off ∧ off ≤ 0x368) := by
  simp [mappedOffset, or_assoc]

theorem readOnlyOffset_iff (off : Nat) : readOnlyOffset off = true ↔
    off = 0x000 ∨ off = 0x004 ∨ off = 0x010 ∨ off = 0x030 ∨ 0x300 ≤ off ∧ off ≤ 0x368 := by
  simp [readOnlyOffset, or_assoc]

@[simp] theorem mappedOffset_byteOffset (r : RegWord) : mappedOffset r.byteOffset = true := by
  cases r with
  | valC k | valD k | buf k | cbuf k | ubuf k => rw [mappedOffset_iff, RegWord.byteOffset]; omega
  | _ => rfl

@[simp] theorem readOnlyOffset_byteOffset (r : RegWord) : readOnlyOffset r.byteOffset = r.readOnly := by
  cases r with
  | valC k | valD k | buf k | cbuf k | ubuf k =>
    rw [Bool.eq_iff_iff, readOnlyOffset_iff]
    simp only [RegWord.byteOffset, RegWord.readOnly, Bool.false_eq_true, iff_true, iff_false]
    omega
  | _ => rfl

/-- A mapped offset is the offset of a word of the window: of a register of one word up to 0x030, past that of a word of the buffer whose
range it is in. -/
theorem exists_byteOffset_of_mapped (off : Nat) (h : mappedOffset off = true) : ∃ r : RegWord, off = r.byteOffset := by
  obtain ⟨haligned, hlow | hval | hbuf | hcbuf | hubuf⟩ := (mappedOffset_iff off).mp h
  · have hword := byteOffset_oneWordRegisters ⟨off / 4, by omega⟩
    exact ⟨_, by rw [hword]; dsimp only; omega⟩
  · by_cases hd : off < 0x060
    · exact ⟨.valC ⟨(off - 0x040) / 4, by omega⟩, by dsimp only [RegWord.byteOffset]; omega⟩
    · exact ⟨.valD ⟨(off - 0x060) / 4, by omega⟩, by dsimp only [RegWord.byteOffset]; omega⟩
  · exact ⟨.buf ⟨(off - 0x100) / 4, by omega⟩, by dsimp only [RegWord.byteOffset]; omega⟩
  · exact ⟨.cbuf ⟨(off - 0x200) / 4, by omega⟩, by dsimp only [RegWord.byteOffset]; omega⟩
  · exact ⟨.ubuf ⟨(off - 0x300) / 4, by omega⟩, by dsimp only [RegWord.byteOffset]; omega⟩

theorem isSome_regWordAt (off : Nat) : (regWordAt off).isSome = mappedOffset off := by
  rw [Bool.eq_iff_iff, Option.isSome_iff_exists]
  simp only [regWordAt_eq_some]
  constructor
  · rintro ⟨r, rfl⟩
    exact mappedOffset_byteOffset r
  · exact exists_byteOffset_of_mapped off

/-- The model admits the accesses that R61 lists. -/
theorem isSome_admittedTransfer (a : Access) : (admittedTransfer a).isSome = a.admittedByRule := by
  match a with
  | .read off .word => rw [admittedTransfer, Option.isSome_map, isSome_regWordAt]; rfl
  | .read _ .byte | .read _ .half | .write _ (.byte _) | .write _ (.half _) => rfl
  | .write off (.word v) =>
    have hmapped := isSome_regWordAt off.toNat
    cases hr : regWordAt off.toNat with
    | none =>
      rw [hr] at hmapped
      simp [admittedTransfer, Access.admittedByRule, hr, ← hmapped]
    | some r =>
      obtain rfl : off = r.accessOffset := BitVec.eq_of_toNat_eq (by simpa using regWordAt_sound _ _ hr)
      rw [admittedTransfer_write]
      cases hro : r.readOnly <;> simp [Access.admittedByRule, hro]

/-- Settles O32: `isSome_admittedTransfer` for the accesses, `oneWordRegisters_spec` with the access by name for the registers. -/
theorem admittedAccesses : Obligations.AdmittedAccesses := by
  refine ⟨isSome_admittedTransfer, fun off r h => ?_⟩
  obtain ⟨hoff, hro⟩ := oneWordRegisters_spec (off, r) h
  obtain rfl : r.accessOffset = off := hoff
  refine ⟨rfl, admittedTransfer_read r, fun v => ?_⟩
  simp only [admittedTransfer_write, hro]

/-! ## The order of bits and characters (20_memory.md R64 to R66) -/

theorem valueWord_toNat (v : BitVec 256) (k : Fin 8) : (valueWord v k).toNat = v.toNat / 2 ^ (32 * k.val) % 2 ^ 32 := by
  rw [valueWord, BitVec.extractLsb'_toNat, Nat.shiftRight_eq_div_pow]

theorem bufWord_toNat (v : BitVec 256) (k : Fin 8) :
    (bufWord v k).toNat = val (slice (bufString v) (32 * k.val) (32 * k.val + 32)) := by
  have hlow : 256 - (32 * k.val + 32) = 224 - 32 * k.val := by omega
  rw [val_slice_bufString _ _ _ (by omega) (by omega), bufWord, BitVec.extractLsb'_toNat, Nat.shiftRight_eq_div_pow, hlow,
    Nat.add_sub_cancel_left]

theorem bufWord_getLsbD (v : BitVec 256) (k : Fin 8) (i : Nat) (h : i < 32) :
    (bufWord v k).getLsbD i = v.getLsbD (224 - 32 * k.val + i) := by
  simp [bufWord, h]

theorem bufString_getElem? (v : BitVec 256) (i : Nat) (h : i < 256) : (bufString v)[i]? = some (v.getLsbD (255 - i)) := by
  rw [List.getElem?_eq_getElem (by simpa using h)]
  exact congrArg some (enc_getElem _ _ _ _)

/-- Byte `i` of word `k` of a text buffer is character `4k + i`, 0x00 past the end of the buffer. -/
theorem textWord_extractLsb' {n : Nat} (t : Vector Byte n) (k i : Nat) (h : i < 4) :
    (textWord t k).extractLsb' (8 * i) 8 = t.toList.getD (4 * k + i) 0 := by
  obtain ⟨h0, h1, h2, h3⟩ := extract_append_bytes (t.toList.getD (4 * k) 0) (t.toList.getD (4 * k + 1) 0)
    (t.toList.getD (4 * k + 2) 0) (t.toList.getD (4 * k + 3) 0)
  match i with
  | 0 => exact h0
  | 1 => exact h1
  | 2 => exact h2
  | 3 => exact h3

theorem textWord_char {n : Nat} (t : Vector Byte n) (j : Nat) (h : j < n) :
    (textWord t (j / 4)).extractLsb' (8 * (j % 4)) 8 = t[j] := by
  rw [textWord_extractLsb' _ _ _ (Nat.mod_lt _ (by decide)), Nat.div_add_mod]
  simp [h]

/-- Settles O41, by `valueWord_toNat` for each of the two value registers. -/
theorem valueWordOrder : Obligations.ValueWordOrder :=
  fun b k => ⟨rfl, valueWord_toNat b.valC k, rfl, valueWord_toNat b.valD k⟩

/-- Settles O40: bit `i` of the string is bit `255 - i` of the register, and so is bit `31 - i mod 32` of word `i div 32`. -/
theorem bufBitOrder : Obligations.BufBitOrder := by
  refine ⟨fun b i h => ⟨?_, rfl⟩, fun b k => bufWord_toNat b.buf k⟩
  have hpos : 255 - i = 224 - 32 * (i / 32) + (31 - i % 32) := by omega
  rw [bufString_getElem? _ _ h, readWord, bufWord_getLsbD _ _ _ (by omega), hpos]

/-- Settles O42, by `textWord_char` for each of the two text buffers. -/
theorem characterByteOrder : Obligations.CharacterByteOrder :=
  fun b => ⟨fun j h => ⟨textWord_char b.cbuf j h, rfl⟩, fun j h => ⟨textWord_char b.ubuf j h, rfl⟩⟩

end Sys2Proof.Machine
end

section
/-! SUPPORT. The decoder, once for all (30_encoding.md R90 to R96): a word is its two fields, each legal word is the word of one command, and
what the decoder answers on any word. -/

namespace Sys2Proof

/-! ## The two fields of a word (30_encoding.md R90) -/

theorem sbzField_append_opcField (w : Word) : sbzField w ++ opcField w = w := by
  have hfields : sbzField w ++ opcField w = w.extractLsb' 0 32 := BitVec.extractLsb'_append_extractLsb'_eq_extractLsb' rfl
  rw [hfields, BitVec.extractLsb'_eq_self]

theorem word_eq_of_fields_eq {w v : Word} (hs : sbzField w = sbzField v) (ho : opcField w = opcField v) : w = v := by
  rw [← sbzField_append_opcField w, hs, ho, sbzField_append_opcField]

theorem sbzField_eq_zero_iff (w : Word) : sbzField w = 0 ↔ w >>> 8 = 0 := by
  have hs : (sbzField w).toNat = w.toNat / 2 ^ 8 % 2 ^ 24 := by
    rw [sbzField, BitVec.extractLsb'_toNat, Nat.shiftRight_eq_div_pow]
  have hw : (w >>> 8).toNat = w.toNat / 2 ^ 8 := by
    rw [BitVec.toNat_ushiftRight, Nat.shiftRight_eq_div_pow]
  rw [← BitVec.toNat_inj, ← BitVec.toNat_inj, hs, hw]
  change _ = 0 ↔ _ = 0
  omega

/-! ## The nine commands and their words (30_encoding.md R93) -/

/-- The commands, in the order of R93's table. -/
def commands : List Instr := [.intEnc, .intDec, .strEnc, .strDec, .strUrlenc, .partEnc, .partDec, .spartEnc, .spartDec]

@[simp] theorem mem_commands (i : Instr) : i ∈ commands := by cases i <;> decide

theorem mem_map_encode_prod (w : Word) (i : Instr) : (w, i) ∈ commands.map (fun j => (encode j, j)) ↔ encode i = w := by
  simp

theorem mem_map_encode_toNat (w : Word) : w.toNat ∈ commands.map (fun j => (encode j).toNat) ↔ ∃ i, encode i = w := by
  simp [BitVec.toNat_inj]

/-- No command word has a bit above OPC (30_encoding.md R92). -/
@[simp] theorem sbzField_encode (i : Instr) : sbzField (encode i) = 0 := by cases i <;> rfl

/-- The opcode map has the OPC of each command's word, and nothing else. -/
theorem lookup_opcodeMap_eq_some_iff (o : BitVec 8) (i : Instr) : opcodeMap.lookup o = some i ↔ opcField (encode i) = o := by
  constructor
  · intro h
    obtain ⟨l₁, l₂, hmap, -⟩ := List.lookup_eq_some_iff.mp h
    have hrow : (o, i) ∈ opcodeMap := by simp [hmap]
    have hrows : ∀ row ∈ opcodeMap, opcField (encode row.2) = row.1 := by decide
    exact hrows _ hrow
  · rintro rfl
    cases i <;> rfl

/-! ## What the decoder answers (30_encoding.md R96) -/

theorem decode_of_sbzField_ne_zero {w : Word} (h : sbzField w ≠ 0) : decode w = .error .sbzBits := if_pos h

theorem decode_of_sbzField_eq_zero {w : Word} (h : sbzField w = 0) :
    decode w = (opcodeMap.lookup (opcField w)).elim (.error .badOpcode) .ok := by
  rw [decode, if_neg (not_not_intro h)]
  cases opcodeMap.lookup (opcField w) <;> rfl

/-- The decoder and the encoder agree: a word decodes to a command exactly when it is the command's word. -/
theorem decode_eq_ok_iff (w : Word) (i : Instr) : decode w = .ok i ↔ encode i = w := by
  by_cases hs : sbzField w = 0
  · have hdecode : decode w = .ok i ↔ opcodeMap.lookup (opcField w) = some i := by
      rw [decode_of_sbzField_eq_zero hs]
      cases opcodeMap.lookup (opcField w) <;> simp
    rw [hdecode, lookup_opcodeMap_eq_some_iff]
    exact ⟨fun ho => word_eq_of_fields_eq ((sbzField_encode i).trans hs.symm) ho, congrArg opcField⟩
  · rw [decode_of_sbzField_ne_zero hs]
    refine iff_of_false nofun ?_
    rintro rfl
    exact hs (sbzField_encode i)

theorem decode_encode (i : Instr) : decode (encode i) = .ok i := (decode_eq_ok_iff _ i).mpr rfl

/-- A word with no bit above OPC that is the word of no command (30_encoding.md R94). -/
theorem decode_of_ne_encode {w : Word} (hs : sbzField w = 0) (hw : ¬ ∃ i, encode i = w) : decode w = .error .badOpcode := by
  rw [decode_of_sbzField_eq_zero hs]
  cases ho : opcodeMap.lookup (opcField w) with
  | none => rfl
  | some i =>
    have hdecode : decode w = .ok i := by rw [decode_of_sbzField_eq_zero hs, ho]; rfl
    exact absurd ⟨i, (decode_eq_ok_iff w i).mp hdecode⟩ hw

/-- Settles O1: R93's table is `commands` with the word of each, and the three clauses are the two directions of `decode_eq_ok_iff`. -/
theorem legalWordsAreTheNine : Obligations.LegalWordsAreTheNine :=
  ⟨fun w i => (decode_eq_ok_iff w i).trans (mem_map_encode_prod w i).symm, fun i _ => decode_encode i,
    fun w i => (decode_eq_ok_iff w i).mp⟩

namespace Machine

/-! ## The completion of a word, by what it decodes to (60_exceptions.md R206) -/

theorem engineStep_of_decode_ok (s : State) {w : Word} {i : Instr} (h : decode w = .ok i) : engineStep s w = exec i s := by
  rw [engineStep_eq_next, exec_eq_next, completedBlock, h]

theorem engineStep_of_decode_error (s : State) {w : Word} {e : DecodeError} (h : decode w = .error e) :
    engineStep s w = .next { s with block := s.block.raiseError (illegalCommand e) } := by
  rw [engineStep_eq_next, completedBlock, h]

/-- Settles O4: the three cases are the decoder's three answers. -/
theorem illegalWordsReport : Obligations.IllegalWordsReport := by
  intro s w
  split_ifs with hshift hlegal
  · have hs : sbzField w ≠ 0 := (sbzField_eq_zero_iff w).not.mpr hshift
    exact engineStep_of_decode_error s (decode_of_sbzField_ne_zero hs)
  · obtain ⟨i, rfl⟩ := (mem_map_encode_toNat w).mp hlegal
    exact ⟨i, decode_encode i, engineStep_of_decode_ok s (decode_encode i)⟩
  · have hs : sbzField w = 0 := (sbzField_eq_zero_iff w).mpr (not_not.mp hshift)
    have hw : ¬ ∃ i, encode i = w := (mem_map_encode_toNat w).not.mp hlegal
    exact engineStep_of_decode_error s (decode_of_ne_encode hs hw)

end Machine
end Sys2Proof
end

section
/-! SUPPORT. The IntegerCodec commands (40_integer.md R111 to R113): what a completion does once its evaluation is known, the input string
of a block that an encode has written, and each of the two commands by the cases of its rule. -/

namespace Sys2Proof.Machine

/-! ## A completion, from what its evaluation gives -/

section
variable {i : Instr} {s : State}

theorem exec_of_evalOf_ok {b' : Block} (h : evalOf i s.block = .ok b') : exec i s = .next { s with block := b'.succeeded } := by
  rw [exec_eq_next, h]; rfl

/-- A raised error as the numbers of the report (60_exceptions.md R202, R203). -/
theorem exec_of_evalOf_error {e : CmdError} (h : evalOf i s.block = .error e) :
    exec i s = .next
      { s with block := s.block.failedWith e.sub.errcode e.sub.number e.field.number e.index } := by
  rw [exec_eq_next, h]; rfl

end

/-! ## The input string of a decode (10_state.md R35) -/

theorem inputBits_length (b : Block) (h : b.blen.toNat ≤ 256) : b.inputBits.length = b.blen.toNat :=
  slice_length _ _ _ (by rwa [bufString_length])

theorem val_inputBits (b : Block) (h : b.blen.toNat ≤ 256) : val b.inputBits = b.buf.toNat / 2 ^ (256 - b.blen.toNat) := by
  have hlt : b.buf.toNat / 2 ^ (256 - b.blen.toNat) < 2 ^ b.blen.toNat := by
    rw [Nat.div_lt_iff_lt_mul (Nat.two_pow_pos _), ← pow_add, Nat.add_sub_cancel' h]
    exact b.buf.isLt
  rw [Block.inputBits, val_slice_bufString _ _ _ (Nat.zero_le _) h, Nat.sub_zero, Nat.mod_eq_of_lt hlt]

theorem val_inputBits_lt (b : Block) (h : b.blen.toNat ≤ 256) : val b.inputBits < 2 ^ b.blen.toNat :=
  inputBits_length b h ▸ val_lt b.inputBits

/-- A decode that follows an encode reads back the string the encode wrote. -/
theorem inputBits_commitBits (b : Block) (bits : BitString) (n : Nat) (hlen : bits.length = n) (hn : n ≤ 256) :
    (b.commitBits bits n).inputBits = bits := by
  have hfull : (bits ++ zeros (Config.bufBits - n)).length = 256 := by
    rw [List.length_append, zeros_length, hlen, Nat.add_sub_cancel' hn]
  have hblen : (BitVec.ofNat 9 n).toNat = n := Nat.mod_eq_of_lt (by omega)
  rw [Block.inputBits, Block.commitBits_buf, Block.commitBits_blen, bufString_bufOfString _ hfull, hblen]
  exact List.take_left' hlen

/-! ## INT_ENC (40_integer.md R111) -/

theorem evalIntEnc_eq (b : Block) :
    evalIntEnc b =
      if 256 < b.widthC.toNat then .error ⟨.widthRange, .c, 0⟩
      else if b.vneg.negC = true then .error ⟨.negative, .c, 0⟩
      else if 2 ^ b.widthC.toNat ≤ b.valC.toNat then .error ⟨.tooWide, .c, 0⟩
      else .ok (b.commitBits (enc b.valC.toNat b.widthC.toNat) b.widthC.toNat) := by
  rw [evalIntEnc, encodeInt_eq]
  split_ifs <;> rfl

/-- INT_ENC on operands that pass its three checks. -/
theorem exec_intEnc_of_fits (s : State) (hw : s.block.widthC.toNat ≤ 256) (hneg : s.block.vneg.negC = false)
    (hv : s.block.valC.toNat < 2 ^ s.block.widthC.toNat) :
    exec .intEnc s = .next { s with
      block := (s.block.commitBits (enc s.block.valC.toNat s.block.widthC.toNat) s.block.widthC.toNat).succeeded } :=
  exec_of_evalOf_ok (by
    rw [evalOf, evalIntEnc_eq, if_neg (Nat.not_lt.mpr hw), if_neg (Bool.eq_false_iff.mp hneg), if_neg (Nat.not_le.mpr hv)])

/-- The digits of VAL_C in WIDTH_C bits, as the number BUF holds. -/
theorem commitBits_enc_valC (b : Block) (hv : b.valC.toNat < 2 ^ b.widthC.toNat) :
    b.commitBits (enc b.valC.toNat b.widthC.toNat) b.widthC.toNat =
      { b with buf := BitVec.ofNat 256 (b.valC.toNat * 2 ^ (256 - b.widthC.toNat)), blen := b.widthC } := by
  rw [commitBits_eq, val_enc _ _ hv, BitVec.ofNat_toNat, BitVec.setWidth_eq]

/-- Settles O5: the three errors and the success are the four cases of `evalIntEnc_eq`. -/
theorem intEncEncodes : Obligations.IntEncEncodes := by
  refine ⟨decode_encode .intEnc, fun s => ?_⟩
  dsimp only
  split_ifs with hw hneg hv
  · exact exec_of_evalOf_error (by rw [evalOf, evalIntEnc_eq, if_pos hw])
  · exact exec_of_evalOf_error (by rw [evalOf, evalIntEnc_eq, if_neg hw, if_pos hneg])
  · exact exec_of_evalOf_error (by rw [evalOf, evalIntEnc_eq, if_neg hw, if_neg hneg, if_pos hv])
  · have hfits : s.block.valC.toNat < 2 ^ s.block.widthC.toNat := Nat.not_le.mp hv
    rw [← commitBits_enc_valC s.block hfits]
    exact exec_intEnc_of_fits s (Nat.not_lt.mp hw) (Bool.eq_false_iff.mpr hneg) hfits

/-! ## INT_DEC (40_integer.md R112) -/

theorem exec_intDec_of_blen_gt (s : State) (hn : 256 < s.block.blen.toNat) :
    exec .intDec s = .next { s with block := s.block.failedWith 1 6 0 0 } :=
  exec_of_evalOf_error (i := .intDec) (if_pos hn)

theorem exec_intDec_of_blen_le (s : State) (hn : s.block.blen.toNat ≤ 256) :
    exec .intDec s = .next { s with block := (s.block.commitValC (val s.block.inputBits)).succeeded } :=
  exec_of_evalOf_ok (i := .intDec) (if_neg (Nat.not_lt.mpr hn))

/-- Settles O6: the error or the success, by the one check of INT_DEC; `val_inputBits` gives the number the bits spell. -/
theorem intDecDecodes : Obligations.IntDecDecodes := by
  refine ⟨decode_encode .intDec, fun s => ?_⟩
  dsimp only
  split_ifs with hn
  · exact exec_intDec_of_blen_gt s hn
  · rw [← val_inputBits s.block (Nat.not_lt.mp hn)]
    exact exec_intDec_of_blen_le s (Nat.not_lt.mp hn)

/-! ## The two commands undo each other (40_integer.md R113) -/

/-- INT_DEC after INT_ENC: the string read back is the one written, and its value is VAL_C. -/
theorem intDec_after_intEnc (s : State) (hw : s.block.widthC.toNat ≤ 256)
    (hv : s.block.valC.toNat < 2 ^ s.block.widthC.toNat) (hneg : s.block.vneg.negC = false) :
    ∃ t u, exec .intEnc s = .next t ∧ exec .intDec t = .next u ∧
      u.block.valC = s.block.valC ∧ u.block.vneg.negC = false ∧ u.block.blen = s.block.widthC := by
  have henc := exec_intEnc_of_fits s hw hneg hv
  set b := (s.block.commitBits (enc s.block.valC.toNat s.block.widthC.toNat) s.block.widthC.toNat).succeeded with hb
  have hblen : b.blen = s.block.widthC := by rw [hb, commitBits_enc_valC s.block hv]; rfl
  have hbits : b.inputBits = enc s.block.valC.toNat s.block.widthC.toNat :=
    inputBits_commitBits s.block _ _ (enc_length _ _) hw
  have hdec := exec_intDec_of_blen_le { s with block := b } (hblen.symm ▸ hw)
  refine ⟨_, _, henc, hdec, ?_, rfl, hblen⟩
  change BitVec.ofNat 256 (val b.inputBits) = s.block.valC
  rw [hbits, val_enc _ _ hv, BitVec.ofNat_toNat, BitVec.setWidth_eq]

/-- INT_ENC after INT_DEC: the digits of the value that was read are the string itself (00_scope.md R9, R10). -/
theorem intEnc_after_intDec (s : State) (hn : s.block.blen.toNat ≤ 256) (hw : s.block.widthC = s.block.blen) :
    ∃ t u, exec .intDec s = .next t ∧ exec .intEnc t = .next u ∧
      u.block.blen = s.block.blen ∧ u.block.inputBits = s.block.inputBits := by
  have hdec := exec_intDec_of_blen_le s hn
  set b := (s.block.commitValC (val s.block.inputBits)).succeeded
  have hwidth : b.widthC.toNat = s.block.blen.toNat := congrArg BitVec.toNat hw
  have hlt := val_inputBits_lt s.block hn
  have hval : b.valC.toNat = val s.block.inputBits := Nat.mod_eq_of_lt (hlt.trans_le (Nat.pow_le_pow_right Nat.two_pos hn))
  have hdigits : enc b.valC.toNat b.widthC.toNat = s.block.inputBits := by
    rw [hval, hwidth, ← inputBits_length s.block hn, enc_val]
  have hfits : b.valC.toNat < 2 ^ b.widthC.toNat := by rwa [hval, hwidth]
  have henc := exec_intEnc_of_fits { s with block := b } (hwidth.trans_le hn) rfl hfits
  refine ⟨_, _, hdec, henc, ?_, ?_⟩
  · exact (congrArg Block.blen (commitBits_enc_valC b hfits)).trans hw
  · exact (inputBits_commitBits b _ _ (enc_length _ _) (hwidth.trans_le hn)).trans hdigits

/-- Settles O16, one lemma for each order of the two commands; BUF[0..BLEN) is the input string of the block. -/
theorem integerRoundTrip : Obligations.IntegerRoundTrip := by
  refine ⟨intDec_after_intEnc, fun s hn hw => ?_⟩
  obtain ⟨t, u, hdec, henc, hblen, hbits⟩ := intEnc_after_intDec s hn hw
  rw [Block.inputBits, hblen] at hbits
  exact ⟨t, u, hdec, henc, hblen, hbits⟩

end Sys2Proof.Machine
end

section
/-! SUPPORT. The StringCodec commands (41_string.md R130 to R139): the alphabet and the escapes against the written ones, each of the three
commands by the cases of its rule, and what a decode gives back of an encode. -/

namespace Sys2Proof.Machine

/-! ## The alphabet (41_string.md R130) -/

theorem inAlphabet_iff (x : Nat) : inAlphabet x = true ↔ 0x21 ≤ x ∧ x ≤ 0x7A ∧ x ∉ excludedCodes := by
  simp [inAlphabet, and_assoc]

/-- The written alphabet is in ascending order, so it is what `inAlphabet` leaves of the values up to 0x7A. -/
theorem alphabetText_codes : alphabetText.toList.map Char.toNat = (List.range 0x7B).filter inAlphabet := by rfl

/-- Settles O29: `alphabetText_codes`, and no value beyond 0x7A is in the alphabet. -/
theorem alphabetIsTheWrittenOne : Obligations.AlphabetIsTheWrittenOne := by
  refine ⟨fun x => ?_, rfl, inAlphabet_iff⟩
  rw [alphabetText_codes, List.mem_filter, List.mem_range]
  exact ⟨fun h => ⟨Nat.lt_succ_of_le (inAlphabet_range x h).2, h⟩, And.right⟩

/-! ## The escapes (41_string.md R132) -/

theorem escapeChar_eq_uriChar_of_reserved : ∀ x ∈ reservedCodes, escapeChar (BitVec.ofNat 8 x) = uriChar (BitVec.ofNat 8 x) := by
  decide

theorem escapeChar_of_not_reserved {ch : Byte} (h : ch.toNat ∉ reservedCodes) : escapeChar ch = [ch] :=
  if_neg (List.contains_iff_mem.not.mpr h)

theorem uriChar_of_not_reserved {ch : Byte} (h : ch.toNat ∉ reservedCodes) : uriChar ch = [ch] := by
  simp only [reservedCodes, List.mem_cons, List.not_mem_nil, or_false, not_or] at h
  simp [uriChar, ← BitVec.toNat_inj, h]

/-- Settles O30: the seven reserved characters one by one, and any other, which both sides keep. -/
theorem escapesAreTheWrittenOnes : Obligations.EscapesAreTheWrittenOnes := by
  intro ch
  by_cases h : ch.toNat ∈ reservedCodes
  · simpa using escapeChar_eq_uriChar_of_reserved ch.toNat h
  · rw [escapeChar_of_not_reserved h, uriChar_of_not_reserved h]

theorem uenc_eq_flatMap_uriChar (t : Text) : uenc t = t.flatMap uriChar := by
  rw [uenc, funext escapesAreTheWrittenOnes]

/-! ## STR_ENC (41_string.md R134) -/

section
variable {t : Text} {w : Nat} {f : ErrField}

theorem encodeText_of_firstBadChar {j : Nat} (h : firstBadChar t = some j) : encodeText t w f = .error ⟨.badChar, f, j⟩ := by
  rw [encodeText, h]

theorem encodeText_of_tooLong (h : firstBadChar t = none) (hlen : w < 7 * t.length) :
    encodeText t w f = .error ⟨.tooLong, f, 0⟩ := by
  rw [encodeText, h]; exact if_pos hlen

theorem encodeText_of_fits (h : firstBadChar t = none) (hlen : 7 * t.length ≤ w) : encodeText t w f = .ok (senc t w) := by
  rw [encodeText, h]; exact if_neg (Nat.not_lt.mpr hlen)

end

section
variable {b : Block}

/-- STR_ENC after its two range checks: the encoding of the text, put into BUF and BLEN. -/
theorem evalStrEnc_of_inRange (hw : b.widthC.toNat ≤ 256) (hm : b.clen.toNat ≤ 36) :
    evalStrEnc b = (encodeText b.inputText b.widthC.toNat .c).map (b.commitBits · b.widthC.toNat) := by
  rw [evalStrEnc, if_neg (Nat.not_lt.mpr hw), if_neg (Nat.not_lt.mpr hm)]
  cases encodeText b.inputText b.widthC.toNat .c <;> rfl

/-- The codes of the input text at the left end of BUF, as the number BUF holds. -/
theorem commitBits_senc_inputText (hm : b.clen.toNat ≤ 36) (hlen : 7 * b.clen.toNat ≤ b.widthC.toNat) (hw : b.widthC.toNat ≤ 256)
    (ha : ∀ i < b.clen.toNat, inAlphabet (b.charAt i) = true) :
    b.commitBits (senc b.inputText b.widthC.toNat) b.widthC.toNat =
      { b with buf := BitVec.ofNat 256 (b.textNumber b.clen.toNat * 2 ^ (256 - 7 * b.clen.toNat)), blen := b.widthC } := by
  have hval : val (b.inputText.flatMap charCode) = b.textNumber b.clen.toNat := val_codes b _ hm ha
  have hexp : b.widthC.toNat - 7 * b.clen.toNat + (256 - b.widthC.toNat) = 256 - 7 * b.clen.toNat := by omega
  rw [commitBits_eq, val_senc, inputText_length b hm, hval, mul_assoc, ← pow_add, hexp, BitVec.ofNat_toNat, BitVec.setWidth_eq]

end

section
variable (s : State)

/-- STR_ENC on a text that its checks let pass. -/
theorem exec_strEnc_of_fits (hw : s.block.widthC.toNat ≤ 256) (hm : s.block.clen.toNat ≤ 36)
    (hbad : firstBadChar s.block.inputText = none) (hlen : 7 * s.block.clen.toNat ≤ s.block.widthC.toNat) :
    exec .strEnc s = .next { s with
      block := (s.block.commitBits (senc s.block.inputText s.block.widthC.toNat) s.block.widthC.toNat).succeeded } := by
  rw [← inputText_length s.block hm] at hlen
  exact exec_of_evalOf_ok (by rw [evalOf, evalStrEnc_of_inRange hw hm, encodeText_of_fits hbad hlen]; rfl)

/-- STR_ENC when only the text itself is in error. -/
theorem exec_strEnc_of_encodeText_error {e : CmdError} (hw : s.block.widthC.toNat ≤ 256) (hm : s.block.clen.toNat ≤ 36)
    (he : encodeText s.block.inputText s.block.widthC.toNat .c = .error e) :
    exec .strEnc s = .next { s with block := s.block.failedWith e.sub.errcode e.sub.number e.field.number e.index } :=
  exec_of_evalOf_error (by rw [evalOf, evalStrEnc_of_inRange hw hm, he]; rfl)

end

/-- Settles O7: past the two range checks, `firstBadChar_cases` tells a first bad character from a text over the alphabet. -/
theorem strEncEncodes : Obligations.StrEncEncodes := by
  refine ⟨decode_encode .strEnc, fun s => ?_⟩
  dsimp only
  by_cases hw : 256 < s.block.widthC.toNat
  · rw [if_pos hw]
    exact exec_of_evalOf_error (i := .strEnc) (if_pos hw)
  by_cases hm : 36 < s.block.clen.toNat
  · rw [if_neg hw, if_pos hm]
    exact exec_of_evalOf_error (i := .strEnc) ((if_neg hw).trans (if_pos hm))
  rw [if_neg hw, if_neg hm]
  rw [Nat.not_lt] at hw hm
  obtain ⟨j, hj, hbad, hbefore, hat⟩ | ⟨hbad, ha⟩ := firstBadChar_cases s.block hm
  · exact .inl ⟨j, hj, hbefore, hat, exec_strEnc_of_encodeText_error s hw hm (encodeText_of_firstBadChar hbad)⟩
  · refine .inr ⟨ha, ?_⟩
    split_ifs with hlen
    · rw [← inputText_length s.block hm] at hlen
      exact exec_strEnc_of_encodeText_error s hw hm (encodeText_of_tooLong hbad hlen)
    · rw [Nat.not_lt] at hlen
      rw [← commitBits_senc_inputText hm hlen hw ha]
      exact exec_strEnc_of_fits s hw hm hbad hlen

/-! ## STR_DEC (41_string.md R135, R136) -/

/-- STR_DEC after its range check: the text the input string spells, put into CBUF and CLEN. -/
theorem evalStrDec_of_inRange {b : Block} (hn : b.blen.toNat ≤ 256) :
    evalStrDec b = (sdec b.inputBits .c).map b.commitText := by
  rw [evalStrDec, if_neg (Nat.not_lt.mpr hn)]
  cases sdec b.inputBits .c <;> rfl

section
variable (s : State)

theorem exec_strDec_of_sdec_ok {t : Text} (hn : s.block.blen.toNat ≤ 256) (ht : sdec s.block.inputBits .c = .ok t) :
    exec .strDec s = .next { s with block := (s.block.commitText t).succeeded } :=
  exec_of_evalOf_ok (by rw [evalOf, evalStrDec_of_inRange hn, ht]; rfl)

theorem exec_strDec_of_sdec_error {e : CmdError} (hn : s.block.blen.toNat ≤ 256) (he : sdec s.block.inputBits .c = .error e) :
    exec .strDec s = .next { s with block := s.block.failedWith e.sub.errcode e.sub.number e.field.number e.index } :=
  exec_of_evalOf_error (by rw [evalOf, evalStrDec_of_inRange hn, he]; rfl)

end

theorem commitText_groups (b : Block) (buf : BitVec 256) (start n p : Nat) :
    b.commitText ((List.range p).map fun j => BitVec.ofNat 8 (groupValue buf start n j)) =
      { b with cbuf := groupText buf start n p, clen := BitVec.ofNat 8 p } := by
  rw [Block.commitText, padText_groups, List.length_map, List.length_range]

/-- Settles O8: the endings of the loop are the cases of `sdec_slice` at bit 0 of BUF. -/
theorem strDecDecodes : Obligations.StrDecDecodes := by
  refine ⟨decode_encode .strDec, fun s => ?_⟩
  dsimp only
  split_ifs with hn
  · exact exec_of_evalOf_error (i := .strDec) (if_pos hn)
  rw [Nat.not_lt] at hn
  obtain ⟨p, hgood, hres⟩ := sdec_slice .c s.block.buf 0 s.block.blen.toNat (by omega)
  rw [Nat.zero_add, ← Block.inputBits] at hres
  refine ⟨p, hgood, ?_⟩
  split_ifs at hres ⊢ with hend hpartial
  · rw [← commitText_groups]
    exact exec_strDec_of_sdec_ok s hn hres
  · exact exec_strDec_of_sdec_error s hn hres
  · exact ⟨hres.1, exec_strDec_of_sdec_error s hn hres.2⟩

/-! ## STR_URLENC (41_string.md R138) -/

section
variable (s : State)

theorem exec_strUrlenc_of_firstBadChar {j : Nat} (hm : s.block.clen.toNat ≤ 36) (hbad : firstBadChar s.block.inputText = some j) :
    exec .strUrlenc s = .next { s with block := s.block.failedWith 2 8 1 j } :=
  exec_of_evalOf_error (e := ⟨.badChar, .c, j⟩) (by rw [evalOf, evalStrUrlenc, if_neg (Nat.not_lt.mpr hm), hbad])

theorem exec_strUrlenc_of_inAlphabet (hm : s.block.clen.toNat ≤ 36) (hbad : firstBadChar s.block.inputText = none) :
    exec .strUrlenc s = .next { s with block := (s.block.commitUri (uenc s.block.inputText)).succeeded } :=
  exec_of_evalOf_ok (by rw [evalOf, evalStrUrlenc, if_neg (Nat.not_lt.mpr hm), hbad])

end

/-- Settles O9: `firstBadChar_cases` as for STR_ENC; a text of 36 characters has a URI form of at most 108. -/
theorem strUrlencRenders : Obligations.StrUrlencRenders := by
  refine ⟨decode_encode .strUrlenc, fun s => ?_⟩
  dsimp only
  split_ifs with hm
  · exact exec_of_evalOf_error (i := .strUrlenc) (if_pos hm)
  rw [Nat.not_lt] at hm
  obtain ⟨j, hj, hbad, hbefore, hat⟩ | ⟨hbad, ha⟩ := firstBadChar_cases s.block hm
  · exact .inl ⟨j, hj, hbefore, hat, exec_strUrlenc_of_firstBadChar s hm hbad⟩
  · have hlen : (uenc s.block.inputText).length ≤ 108 := by
      have := uenc_length_le s.block.inputText
      have := inputText_length_le s.block
      omega
    rw [← Block.inputText, ← uenc_eq_flatMap_uriChar]
    exact .inr ⟨ha, hlen, exec_strUrlenc_of_inAlphabet s hm hbad⟩

/-! ## What a decode gives back of an encode (41_string.md R139) -/

/-- The groups of a text are its codes, one for each character. -/
theorem drop_codes (t : Text) (k : Nat) : (t.flatMap charCode).drop (7 * k) = (t.drop k).flatMap charCode := by
  induction k generalizing t with
  | zero => rfl
  | succ k ih =>
    cases t with
    | nil => simp
    | cons ch t =>
      rw [List.flatMap_cons, List.drop_succ_cons, ← ih t, show 7 * (k + 1) = (charCode ch).length + 7 * k by simp; omega,
        List.drop_length_add_append]

/-- Group `k` of an encoded text is the code of its character `k`. -/
theorem slice_senc_group (t : Text) (w k : Nat) (hk : k < t.length) :
    slice (senc t w) (7 * k) (7 * k + 7) = charCode t[k] := by
  have hle : 7 * k ≤ (t.flatMap charCode).length := by rw [codes_length]; omega
  rw [slice, senc, List.drop_append_of_le_length hle, drop_codes, List.drop_eq_getElem_cons hk, List.flatMap_cons, List.append_assoc]
  exact List.take_left' (by rw [charCode_length]; omega)

/-- A loop that starts at a zero group, a zero partial group or the end of the string reads no text. -/
theorem sdecLoop_of_zero_group (f : ErrField) {s : BitString} (g : Nat) (h : val (s.take 7) = 0) :
    sdecLoop f s.length s g = .ok [] := by
  rw [sdecLoop_turn, if_pos h, ite_self]

/-- A loop that starts at the codes of a text reads that text and goes on after it. -/
theorem sdecLoop_codes_append (f : ErrField) {t : Text} {rest : BitString} (g : Nat)
    (ha : ∀ ch ∈ t, inAlphabet ch.toNat = true) (hrest : val (rest.take 7) = 0) :
    sdecLoop f (t.flatMap charCode ++ rest).length (t.flatMap charCode ++ rest) g = .ok t := by
  induction t generalizing g with
  | nil => exact sdecLoop_of_zero_group f g hrest
  | cons ch t ih =>
    have hch : inAlphabet ch.toNat = true := ha ch List.mem_cons_self
    have hgood : ¬ inAlphabet ch.toNat = false := by simp [hch]
    have hpos : ch.toNat ≠ 0 := by have := (inAlphabet_range _ hch).1; omega
    set tail := t.flatMap charCode ++ rest
    have hsplit : (ch :: t).flatMap charCode ++ rest = charCode ch ++ tail := by rw [List.flatMap_cons, List.append_assoc]
    have htake : (charCode ch ++ tail).take 7 = charCode ch := List.take_left' (charCode_length ch)
    have hdrop : (charCode ch ++ tail).drop 7 = tail := List.drop_left' (charCode_length ch)
    have hlen : ¬ (charCode ch ++ tail).length < 7 := by simp
    have hne : charCode ch ++ tail ≠ [] := fun h => hlen (by rw [h]; decide)
    rw [hsplit, sdecLoop_turn, htake, hdrop, val_charCode ch hch, if_neg hne, if_neg hpos, if_neg hlen,
      if_neg hgood, ih (g + 1) fun c hc => ha c (List.mem_cons_of_mem _ hc)]
    simp

/-- `sdec(senc(t, w), f) = t` (41_string.md R139). -/
theorem sdec_senc (f : ErrField) {t : Text} {w : Nat} (ha : ∀ ch ∈ t, inAlphabet ch.toNat = true) : sdec (senc t w) f = .ok t :=
  sdecLoop_codes_append f 0 ha (by rw [zeros, List.take_replicate]; exact val_zeros _)

/-- Whatever follows the first zero group is discarded (41_string.md R135, R139). -/
theorem sdec_senc_append (f : ErrField) {t : Text} (dropped : BitString) (ha : ∀ ch ∈ t, inAlphabet ch.toNat = true) :
    sdec (senc t (7 * t.length + 7) ++ dropped) f = .ok t := by
  have hrest : val ((zeros 7 ++ dropped).take 7) = 0 := by rw [List.take_left' (zeros_length 7), val_zeros]
  rw [senc, List.append_assoc, Nat.add_sub_cancel_left]
  exact sdecLoop_codes_append f 0 ha hrest

/-- The characters of a padded text before its padding are the text. -/
theorem take_padText (n : Nat) (t : Text) (h : t.length ≤ n) : (padText n t).toList.take t.length = t := by
  apply List.ext_getElem
  · simpa using h
  · intro i h1 h2
    simp [h2]

theorem firstBadChar_inputText_eq_none {b : Block} (hm : b.clen.toNat ≤ 36)
    (ha : ∀ i < b.clen.toNat, inAlphabet (b.charAt i) = true) : firstBadChar b.inputText = none := by
  obtain ⟨j, hj, -, -, hat⟩ | ⟨hbad, -⟩ := firstBadChar_cases b hm
  · exact absurd (ha j hj) (by simp [hat])
  · exact hbad

/-- STR_DEC after STR_ENC: the string read back is the one written, and it spells the text. -/
theorem strDec_after_strEnc (s : State) (hw : s.block.widthC.toNat ≤ 256) (hm : s.block.clen.toNat ≤ 36)
    (hlen : 7 * s.block.clen.toNat ≤ s.block.widthC.toNat) (hbad : firstBadChar s.block.inputText = none) :
    ∃ t u, exec .strEnc s = .next t ∧ exec .strDec t = .next u ∧ u.block.clen = s.block.clen ∧
      u.block.cbuf.toList.take s.block.clen.toNat = s.block.inputText := by
  have htext := inputText_length s.block hm
  have henc := exec_strEnc_of_fits s hw hm hbad hlen
  set b := (s.block.commitBits (senc s.block.inputText s.block.widthC.toNat) s.block.widthC.toNat).succeeded
  have hblen : b.blen.toNat ≤ 256 := (Nat.mod_le _ _).trans hw
  have hbits : b.inputBits = senc s.block.inputText s.block.widthC.toNat :=
    inputBits_commitBits s.block _ _ (senc_length _ _ (htext.symm ▸ hlen)) hw
  have hdec := exec_strDec_of_sdec_ok { s with block := b } hblen
    (hbits ▸ sdec_senc .c ((firstBadChar_eq_none _).mp hbad))
  refine ⟨_, _, henc, hdec, ?_, ?_⟩
  · change BitVec.ofNat 8 s.block.inputText.length = s.block.clen
    rw [htext, BitVec.ofNat_toNat, BitVec.setWidth_eq]
  · change (padText Config.maxChars s.block.inputText).toList.take s.block.clen.toNat = s.block.inputText
    rw [← htext]
    exact take_padText _ _ (inputText_length_le s.block)

/-- STR_ENC after STR_DEC when the first group is zero: the text read is empty, so the string written is all zeros, whatever followed that
group. -/
theorem strEnc_after_strDec_of_zero_group (s : State) (hn : s.block.blen.toNat ≤ 256) (hw : s.block.widthC = s.block.blen)
    (hzero : val (s.block.inputBits.take 7) = 0) :
    ∃ t u, exec .strDec s = .next t ∧ exec .strEnc t = .next u ∧ t.block.status.err = false ∧ u.block.status.err = false ∧
      u.block.blen = s.block.blen ∧ u.block.inputBits = zeros s.block.blen.toNat := by
  have hdec := exec_strDec_of_sdec_ok s hn (sdecLoop_of_zero_group .c 0 hzero)
  set b := (s.block.commitText []).succeeded
  have hwidth : b.widthC.toNat = s.block.blen.toNat := congrArg BitVec.toNat hw
  have henc := exec_strEnc_of_fits { s with block := b } (hwidth.trans_le hn) (Nat.zero_le 36) rfl (Nat.zero_le _)
  refine ⟨_, _, hdec, henc, rfl, rfl, ?_, ?_⟩
  · change BitVec.ofNat 9 b.widthC.toNat = s.block.blen
    rw [hwidth, BitVec.ofNat_toNat, BitVec.setWidth_eq]
  · rw [← hwidth]
    exact inputBits_commitBits b _ _ (zeros_length _) (hwidth.trans_le hn)

/-- A string of 8 bits, a zero group and a 1 after it, with WIDTH_C set to write 8 bits back. -/
def bitAfterZeroGroup : State :=
  { State.reset with block := { Block.reset with buf := BitVec.ofNat 256 (2 ^ 248), blen := 8, widthC := 8 } }

theorem inputBits_bitAfterZeroGroup : bitAfterZeroGroup.block.inputBits = zeros 7 ++ [true] := by decide

/-- Settles O17: the groups are codes of the alphabet, `sdec_senc` and `strDec_after_strEnc` are the round trip, `sdec_senc_append` says
what is discarded, and `bitAfterZeroGroup` is a string that the other order does not restore. -/
theorem textRoundTrip : Obligations.TextRoundTrip := by
  refine ⟨fun t w f ha _ => ⟨fun k hk => ?_, sdec_senc f ha⟩, fun s hw hm hlen ha => ?_,
    fun t dropped f ha => sdec_senc_append f dropped ha, ?_⟩
  · have hch : inAlphabet t[k].toNat = true := ha _ (List.getElem_mem hk)
    rw [slice_senc_group t w k hk, val_charCode _ hch]
    exact (inAlphabet_range _ hch).1
  · exact strDec_after_strEnc s hw hm hlen (firstBadChar_inputText_eq_none hm ha)
  · have hzero : val (bitAfterZeroGroup.block.inputBits.take 7) = 0 := by rw [inputBits_bitAfterZeroGroup]; rfl
    obtain ⟨t, u, hdec, henc, hterr, huerr, hblen, hbits⟩ :=
      strEnc_after_strDec_of_zero_group bitAfterZeroGroup (by decide) rfl hzero
    refine ⟨bitAfterZeroGroup, t, u, by decide, rfl, hdec, henc, hterr, huerr, hblen, ?_⟩
    rw [Block.inputBits, hblen] at hbits
    rw [hbits, ← Block.inputBits, inputBits_bitAfterZeroGroup]
    decide

end Sys2Proof.Machine
end

section
/-! SUPPORT. The PartitionCodec and StringPartitionCodec commands (42_partition.md R160 to R173): the values a field is encoded from once
the forcing of R162 is done, the string of a partition-coded field, each of the four commands by the cases of its rule, and what a decode
gives back of an encode. -/

namespace Sys2Proof.Machine

/-! ## The operands after forcing (42_partition.md R162) -/

/-- The value of the c field: 0 when its declared digit count is 0. -/
def Block.cValue (b : Block) : Nat := if b.pctl.cdig = 0 then 0 else b.valC.toNat

/-- The value of the integer d field: 0 when its declared digit count is 0. -/
def Block.dValue (b : Block) : Nat := if b.pctl.ddig = 0 then 0 else b.valD.toNat

/-- The number of characters of the text d field: 0 when its declared digit count is 0. -/
def Block.dChars (b : Block) : Nat := if b.pctl.ddig = 0 then 0 else b.clen.toNat

/-- The text of the text d field. -/
def Block.dText (b : Block) : Text := b.cbuf.toList.take b.dChars

theorem forced_le (digits : BitVec 5) (v : Nat) : (if digits = 0 then 0 else v) ≤ v := by
  split_ifs
  · exact Nat.zero_le v
  · exact le_rfl

theorem ofNat_forced (digits : BitVec 5) (v : BitVec 256) :
    BitVec.ofNat 256 (if digits = 0 then 0 else v.toNat) = if digits = 0 then 0 else v := by
  split_ifs
  · rfl
  · rw [BitVec.ofNat_toNat, BitVec.setWidth_eq]

section
variable (b : Block)

theorem cValue_le : b.cValue ≤ b.valC.toNat := forced_le _ _

theorem dValue_le : b.dValue ≤ b.valD.toNat := forced_le _ _

theorem dChars_le : b.dChars ≤ b.clen.toNat := forced_le _ _

theorem dText_eq : b.dText = if b.pctl.ddig = 0 then [] else b.cbuf.toList.take b.clen.toNat := by
  rw [Block.dText, Block.dChars]
  split_ifs <;> rfl

end

theorem dText_length {b : Block} (hm : b.clen.toNat ≤ 36) : b.dText.length = b.dChars := by
  have := dChars_le b
  simp only [Block.dText, List.length_take, Vector.length_toList]
  omega

/-- Forcing a text field is encoding the empty text. -/
theorem encodeTextField_eq (digits : BitVec 5) (t : Text) (w : Nat) (f : ErrField) :
    encodeTextField digits t w f = encodeText (if digits = 0 then [] else t) w f := by
  rw [encodeTextField]
  split_ifs
  · exact (encodeText_of_fits rfl (Nat.zero_le w)).symm
  · rfl

/-- The first character of the text d field outside the alphabet, or none: a forced field has none. -/
theorem firstBadChar_dText_cases (b : Block) (hm : b.clen.toNat ≤ 36) :
    (∃ j < b.dChars, firstBadChar b.dText = some j ∧ (∀ i < j, inAlphabet (b.charAt i) = true) ∧
      inAlphabet (b.charAt j) = false) ∨
    (firstBadChar b.dText = none ∧ ∀ i < b.dChars, inAlphabet (b.charAt i) = true) := by
  rw [Block.dText, Block.dChars]
  split_ifs with hd
  · exact .inr ⟨rfl, fun i hi => absurd hi (Nat.not_lt_zero i)⟩
  · exact firstBadChar_cases b hm

/-! ## The string of a partition-coded field (42_partition.md R160, R163) -/

/-- PV in 3 bits, the c field, and the d field given. -/
def Block.fieldBits (b : Block) (d : BitString) : BitString :=
  enc b.pctl.pv.toNat Config.partitionBits ++ enc b.cValue b.widthC.toNat ++ d

section
variable (b : Block)

theorem fieldBits_length (d : BitString) : (b.fieldBits d).length = 3 + b.widthC.toNat + d.length := by
  simp only [Block.fieldBits, List.length_append, enc_length]

theorem fieldBits_append (d e : BitString) : b.fieldBits (d ++ e) = b.fieldBits d ++ e := by
  simp only [Block.fieldBits, List.append_assoc]

theorem val_fieldBits (hc : b.cValue < 2 ^ b.widthC.toNat) (d : BitString) :
    val (b.fieldBits d) = (b.pctl.pv.toNat * 2 ^ b.widthC.toNat + b.cValue) * 2 ^ d.length + val d := by
  rw [Block.fieldBits, val_append, val_append, val_enc _ _ b.pctl.pv.isLt, val_enc _ _ hc, enc_length]

end

/-! ## PART_ENC (42_partition.md R161) -/

theorem evalPartEnc_eq (b : Block) :
    evalPartEnc b =
      if 256 < 3 + b.widthC.toNat + b.widthD.toNat then .error ⟨.widthRange, .whole, 0⟩
      else if b.pctl.cdig ≠ 0 ∧ b.vneg.negC = true then .error ⟨.negative, .c, 0⟩
      else if 2 ^ b.widthC.toNat ≤ b.cValue then .error ⟨.tooWide, .c, 0⟩
      else if b.pctl.ddig ≠ 0 ∧ b.vneg.negD = true then .error ⟨.negative, .d, 0⟩
      else if 2 ^ b.widthD.toNat ≤ b.dValue then .error ⟨.tooWide, .d, 0⟩
      else .ok (b.commitBits (b.fieldBits (enc b.dValue b.widthD.toNat)) (3 + b.widthC.toNat + b.widthD.toNat)) := by
  rw [evalPartEnc, encodeIntField_eq, encodeIntField_eq, ← Block.cValue, ← Block.dValue]
  split_ifs <;> rfl

/-- PV and the two integer fields, as the number BUF holds. -/
theorem commitBits_intFields {b : Block} (hc : b.cValue < 2 ^ b.widthC.toNat) (hd : b.dValue < 2 ^ b.widthD.toNat) (n : Nat) :
    b.commitBits (b.fieldBits (enc b.dValue b.widthD.toNat)) n =
      { b with
        buf := BitVec.ofNat 256
          (((b.pctl.pv.toNat * 2 ^ b.widthC.toNat + b.cValue) * 2 ^ b.widthD.toNat + b.dValue) * 2 ^ (256 - n))
        blen := BitVec.ofNat 9 n } := by
  rw [commitBits_eq, val_fieldBits b hc, val_enc _ _ hd, enc_length]

/-- Settles O10: the five errors and the success are the six cases of `evalPartEnc_eq`. -/
theorem partEncEncodes : Obligations.PartEncEncodes := by
  refine ⟨decode_encode .partEnc, fun s => ?_⟩
  dsimp only
  rw [← Block.cValue, ← Block.dValue]
  have heval : evalOf .partEnc s.block = _ := evalPartEnc_eq s.block
  split_ifs at heval ⊢ with hw hnegC hc hnegD hd
  · exact exec_of_evalOf_error heval
  · exact exec_of_evalOf_error heval
  · exact exec_of_evalOf_error heval
  · exact exec_of_evalOf_error heval
  · exact exec_of_evalOf_error heval
  · rw [← commitBits_intFields (Nat.not_le.mp hc) (Nat.not_le.mp hd)]
    exact exec_of_evalOf_ok heval

/-! ## SPART_ENC (42_partition.md R171) -/

theorem evalSpartEnc_eq (b : Block) :
    evalSpartEnc b =
      if 256 < 3 + b.widthC.toNat + b.widthD.toNat then .error ⟨.widthRange, .whole, 0⟩
      else if 36 < b.clen.toNat then .error ⟨.clenRange, .whole, 0⟩
      else if b.pctl.cdig ≠ 0 ∧ b.vneg.negC = true then .error ⟨.negative, .c, 0⟩
      else if 2 ^ b.widthC.toNat ≤ b.cValue then .error ⟨.tooWide, .c, 0⟩
      else (encodeText b.dText b.widthD.toNat .d).map fun d =>
        b.commitBits (b.fieldBits d) (3 + b.widthC.toNat + b.widthD.toNat) := by
  rw [evalSpartEnc, encodeIntField_eq, encodeTextField_eq, Block.inputText, ← dText_eq, ← Block.cValue]
  split_ifs
  · rfl
  · rfl
  · rfl
  · rfl
  · cases encodeText b.dText b.widthD.toNat .d <;> rfl

/-- The number the codes of the text d field spell. -/
theorem val_dText_codes {b : Block} (hm : b.clen.toNat ≤ 36) (ha : ∀ i < b.dChars, inAlphabet (b.charAt i) = true) :
    val (b.dText.flatMap charCode) = b.textNumber b.dChars :=
  val_codes b _ ((dChars_le b).trans hm) ha

/-- PV, the c field and the groups of the text, as the number BUF holds. -/
theorem commitBits_textField {b : Block} (hw : 3 + b.widthC.toNat + b.widthD.toNat ≤ 256) (hm : b.clen.toNat ≤ 36)
    (hc : b.cValue < 2 ^ b.widthC.toNat) (ha : ∀ i < b.dChars, inAlphabet (b.charAt i) = true)
    (hlen : 7 * b.dChars ≤ b.widthD.toNat) :
    b.commitBits (b.fieldBits (senc b.dText b.widthD.toNat)) (3 + b.widthC.toNat + b.widthD.toNat) =
      { b with
        buf := BitVec.ofNat 256
          (((b.pctl.pv.toNat * 2 ^ b.widthC.toNat + b.cValue) * 2 ^ (7 * b.dChars) + b.textNumber b.dChars) *
            2 ^ (256 - (3 + b.widthC.toNat + 7 * b.dChars)))
        blen := BitVec.ofNat 9 (3 + b.widthC.toNat + b.widthD.toNat) } := by
  have hpad : b.widthD.toNat - 7 * b.dChars + (256 - (3 + b.widthC.toNat + b.widthD.toNat)) =
      256 - (3 + b.widthC.toNat + 7 * b.dChars) := by omega
  rw [commitBits_eq, senc, fieldBits_append, val_append, val_zeros, zeros_length, Nat.add_zero, val_fieldBits b hc,
    codes_length, val_dText_codes hm ha, dText_length hm, mul_assoc, ← pow_add, hpad]

/-- Settles O12: the first errors are the cases of `evalSpartEnc_eq`; after them `firstBadChar_dText_cases` tells a first bad character
from a text over the alphabet. -/
theorem spartEncEncodes : Obligations.SpartEncEncodes := by
  refine ⟨decode_encode .spartEnc, fun s => ?_⟩
  dsimp only
  rw [← Block.cValue, ← Block.dChars]
  have heval : evalOf .spartEnc s.block = _ := evalSpartEnc_eq s.block
  split_ifs at heval with hw hm hnegC hc
  · rw [if_pos hw]
    exact exec_of_evalOf_error heval
  · rw [if_neg hw, if_pos hm]
    exact exec_of_evalOf_error heval
  · rw [if_neg hw, if_neg hm, if_pos hnegC]
    exact exec_of_evalOf_error heval
  · rw [if_neg hw, if_neg hm, if_neg hnegC, if_pos hc]
    exact exec_of_evalOf_error heval
  rw [if_neg hw, if_neg hm, if_neg hnegC, if_neg hc]
  rw [Nat.not_lt] at hw hm
  obtain ⟨j, hj, hbad, hbefore, hat⟩ | ⟨hbad, ha⟩ := firstBadChar_dText_cases s.block hm
  · rw [encodeText_of_firstBadChar hbad] at heval
    exact .inl ⟨j, hj, hbefore, hat, exec_of_evalOf_error heval⟩
  refine .inr ⟨ha, ?_⟩
  split_ifs with hlen
  · rw [encodeText_of_tooLong hbad (dText_length hm ▸ hlen)] at heval
    exact exec_of_evalOf_error heval
  · rw [Nat.not_lt] at hlen
    rw [encodeText_of_fits hbad (dText_length hm ▸ hlen)] at heval
    rw [← commitBits_textField hw hm (Nat.not_le.mp hc) ha hlen]
    exact exec_of_evalOf_ok heval

/-! ## The two fields a decode reads (42_partition.md R164) -/

/-- The WIDTH_C bits of BUF from bit OFFSET on. -/
def Block.cBits (b : Block) : BitString :=
  slice (bufString b.buf) b.offset.toNat (b.offset.toNat + b.widthC.toNat)

/-- The WIDTH_D bits of BUF after the c field. -/
def Block.dBits (b : Block) : BitString :=
  slice (bufString b.buf) (b.offset.toNat + b.widthC.toNat) (b.offset.toNat + b.widthC.toNat + b.widthD.toNat)

theorem val_cBits {b : Block} (h : b.offset.toNat + b.widthC.toNat ≤ 256) :
    val b.cBits = b.buf.toNat / 2 ^ (256 - (b.offset.toNat + b.widthC.toNat)) % 2 ^ b.widthC.toNat := by
  rw [Block.cBits, val_slice_bufString _ _ _ (Nat.le_add_right _ _) h, Nat.add_sub_cancel_left]

theorem val_dBits {b : Block} (h : b.offset.toNat + b.widthC.toNat + b.widthD.toNat ≤ 256) :
    val b.dBits =
      b.buf.toNat / 2 ^ (256 - (b.offset.toNat + b.widthC.toNat + b.widthD.toNat)) % 2 ^ b.widthD.toNat := by
  rw [Block.dBits, val_slice_bufString _ _ _ (Nat.le_add_right _ _) h, Nat.add_sub_cancel_left]

/-! ## PART_DEC (42_partition.md R165) -/

theorem evalPartDec_eq (b : Block) :
    evalPartDec b =
      if 256 < b.blen.toNat then .error ⟨.blenRange, .whole, 0⟩
      else if b.blen.toNat < b.offset.toNat + b.widthC.toNat + b.widthD.toNat then .error ⟨.sliceRange, .whole, 0⟩
      else .ok ((b.commitValC (val b.cBits)).commitValD (val b.dBits)) := rfl

/-- Settles O11: the two errors and the success are the three cases of `evalPartDec_eq`; `val_cBits` and `val_dBits` give the numbers. -/
theorem partDecDecodes : Obligations.PartDecDecodes := by
  refine ⟨decode_encode .partDec, fun s => ?_⟩
  dsimp only
  have heval : evalOf .partDec s.block = _ := evalPartDec_eq s.block
  split_ifs at heval ⊢ with hn hfit
  · exact exec_of_evalOf_error heval
  · exact exec_of_evalOf_error heval
  · rw [← val_cBits (by omega), ← val_dBits (by omega)]
    exact exec_of_evalOf_ok heval

/-! ## SPART_DEC (42_partition.md R172) -/

theorem evalSpartDec_eq (b : Block) :
    evalSpartDec b =
      if 256 < b.blen.toNat then .error ⟨.blenRange, .whole, 0⟩
      else if b.blen.toNat < b.offset.toNat + b.widthC.toNat + b.widthD.toNat then .error ⟨.sliceRange, .whole, 0⟩
      else (sdec b.dBits .d).map (b.commitValC (val b.cBits)).commitText := by
  unfold evalSpartDec
  dsimp only
  rw [← Block.cBits, ← Block.dBits]
  split_ifs
  · rfl
  · rfl
  · cases sdec b.dBits .d <;> rfl

/-- Settles O13: the two range errors are cases of `evalSpartDec_eq`; the endings of the loop are those of `sdec_slice` at the d field. -/
theorem spartDecDecodes : Obligations.SpartDecDecodes := by
  refine ⟨decode_encode .spartDec, fun s => ?_⟩
  dsimp only
  have heval : evalOf .spartDec s.block = _ := evalSpartDec_eq s.block
  split_ifs at heval ⊢ with hn hfit
  · exact exec_of_evalOf_error heval
  · exact exec_of_evalOf_error heval
  obtain ⟨p, hgood, hres⟩ :=
    sdec_slice .d s.block.buf (s.block.offset.toNat + s.block.widthC.toNat) s.block.widthD.toNat (by omega)
  rw [← Block.dBits] at hres
  refine ⟨p, hgood, ?_⟩
  split_ifs at hres ⊢ with hend hpartial
  · rw [hres] at heval
    rw [exec_of_evalOf_ok heval, commitText_groups, val_cBits (by omega)]
    rfl
  · rw [hres] at heval
    exact exec_of_evalOf_error heval
  · rw [hres.2] at heval
    exact ⟨hres.1, exec_of_evalOf_error heval⟩

/-! ## The fields of a string that an encode wrote (42_partition.md R166, R173) -/

/-- A part of a string is the slice of BUF at its place, once the string is committed. -/
theorem slice_commitBits (b : Block) {bits pre mid post : BitString} {n : Nat} (hbits : bits = pre ++ mid ++ post)
    (hlen : bits.length = n) (hn : n ≤ 256) :
    slice (bufString (b.commitBits bits n).buf) pre.length (pre.length + mid.length) = mid := by
  have hfull : (bits ++ zeros (Config.bufBits - n)).length = 256 := by
    rw [List.length_append, zeros_length, hlen, Nat.add_sub_cancel' hn]
  rw [Block.commitBits_buf, bufString_bufOfString _ hfull, hbits, slice, List.append_assoc, List.append_assoc,
    List.drop_left, Nat.add_sub_cancel_left, List.take_left]

/-- The block after the success of an encode whose d field is the string `d`. -/
def Block.encoded (b : Block) (d : BitString) : Block :=
  (b.commitBits (b.fieldBits d) (3 + b.widthC.toNat + b.widthD.toNat)).succeeded

section
variable {b : Block} {d : BitString}

theorem encoded_blen (hw : 3 + b.widthC.toNat + b.widthD.toNat ≤ 256) :
    (b.encoded d).blen.toNat = 3 + b.widthC.toNat + b.widthD.toNat :=
  Nat.mod_eq_of_lt (by omega)

theorem slice_encoded (hd : d.length = b.widthD.toNat) (hw : 3 + b.widthC.toNat + b.widthD.toNat ≤ 256)
    {pre mid post : BitString} (hbits : b.fieldBits d = pre ++ mid ++ post) :
    slice (bufString (b.encoded d).buf) pre.length (pre.length + mid.length) = mid :=
  slice_commitBits b hbits (by rw [fieldBits_length, hd]) hw

theorem pvBits_encoded (hd : d.length = b.widthD.toNat) (hw : 3 + b.widthC.toNat + b.widthD.toNat ≤ 256) :
    slice (bufString (b.encoded d).buf) 0 3 = enc b.pctl.pv.toNat 3 := by
  have h := slice_encoded hd hw (pre := []) (by rw [Block.fieldBits, List.append_assoc, List.nil_append])
  rwa [enc_length] at h

theorem cBits_encoded (hd : d.length = b.widthD.toNat) (hw : 3 + b.widthC.toNat + b.widthD.toNat ≤ 256) (ho : b.offset = 3) :
    (b.encoded d).cBits = enc b.cValue b.widthC.toNat := by
  have h := slice_encoded hd hw rfl
  rw [enc_length, enc_length] at h
  have hoff : (b.encoded d).offset.toNat = 3 := congrArg BitVec.toNat ho
  rw [Block.cBits, hoff]
  exact h

theorem dBits_encoded (hd : d.length = b.widthD.toNat) (hw : 3 + b.widthC.toNat + b.widthD.toNat ≤ 256) (ho : b.offset = 3) :
    (b.encoded d).dBits = d := by
  have h := slice_encoded hd hw (post := []) (List.append_nil _).symm
  rw [List.length_append, enc_length, enc_length, hd] at h
  have hoff : (b.encoded d).offset.toNat = 3 := congrArg BitVec.toNat ho
  rw [Block.dBits, hoff]
  exact h

end

/-- PV is in bits [31:29] of BUF word 0: the first three bits of the string (20_memory.md R64). -/
theorem pvBits_readWord (b : Block) :
    ((readWord b (.buf 0)).extractLsb' 29 3).toNat = val (slice (bufString b.buf) 0 3) := by
  rw [BitVec.extractLsb'_toNat, readWord, bufWord_toNat, val_slice_bufString _ _ _ (by decide) (by decide),
    val_slice_bufString _ _ _ (by decide) (by decide), Nat.shiftRight_eq_div_pow]
  simp only [Fin.val_zero]
  omega

/-! ## The commands on operands that fit, and back -/

theorem exec_partEnc_of_fits (s : State) (hw : 3 + s.block.widthC.toNat + s.block.widthD.toNat ≤ 256)
    (hneg : s.block.vneg = { negC := false, negD := false }) (hc : s.block.cValue < 2 ^ s.block.widthC.toNat)
    (hd : s.block.dValue < 2 ^ s.block.widthD.toNat) :
    exec .partEnc s = .next { s with block := s.block.encoded (enc s.block.dValue s.block.widthD.toNat) } :=
  exec_of_evalOf_ok (by
    rw [evalOf, evalPartEnc_eq, if_neg (Nat.not_lt.mpr hw), if_neg (by simp [hneg]), if_neg (Nat.not_le.mpr hc),
      if_neg (by simp [hneg]), if_neg (Nat.not_le.mpr hd)])

theorem exec_spartEnc_of_fits (s : State) (hw : 3 + s.block.widthC.toNat + s.block.widthD.toNat ≤ 256)
    (hm : s.block.clen.toNat ≤ 36) (hneg : s.block.vneg.negC = false) (hc : s.block.cValue < 2 ^ s.block.widthC.toNat)
    (hbad : firstBadChar s.block.dText = none) (hlen : 7 * s.block.dChars ≤ s.block.widthD.toNat) :
    exec .spartEnc s = .next { s with block := s.block.encoded (senc s.block.dText s.block.widthD.toNat) } :=
  exec_of_evalOf_ok (by
    rw [evalOf, evalSpartEnc_eq, if_neg (Nat.not_lt.mpr hw), if_neg (Nat.not_lt.mpr hm), if_neg (by simp [hneg]),
      if_neg (Nat.not_le.mpr hc), encodeText_of_fits hbad (dText_length hm ▸ hlen)]
    rfl)

section
variable (s : State)

theorem exec_partDec_of_fits (hn : s.block.blen.toNat ≤ 256)
    (hfit : s.block.offset.toNat + s.block.widthC.toNat + s.block.widthD.toNat ≤ s.block.blen.toNat) :
    exec .partDec s = .next { s with
      block := ((s.block.commitValC (val s.block.cBits)).commitValD (val s.block.dBits)).succeeded } :=
  exec_of_evalOf_ok (by rw [evalOf, evalPartDec_eq, if_neg (Nat.not_lt.mpr hn), if_neg (Nat.not_lt.mpr hfit)])

theorem exec_spartDec_of_sdec_ok {t : Text} (hn : s.block.blen.toNat ≤ 256)
    (hfit : s.block.offset.toNat + s.block.widthC.toNat + s.block.widthD.toNat ≤ s.block.blen.toNat)
    (ht : sdec s.block.dBits .d = .ok t) :
    exec .spartDec s = .next { s with block := ((s.block.commitValC (val s.block.cBits)).commitText t).succeeded } :=
  exec_of_evalOf_ok (by rw [evalOf, evalSpartDec_eq, if_neg (Nat.not_lt.mpr hn), if_neg (Nat.not_lt.mpr hfit), ht]; rfl)

end

/-- The slices a decode with OFFSET 3 asks for lie in the string an encode wrote. -/
theorem encoded_fits {b : Block} (hw : 3 + b.widthC.toNat + b.widthD.toNat ≤ 256) (ho : b.offset = 3) (d : BitString) :
    (b.encoded d).offset.toNat + (b.encoded d).widthC.toNat + (b.encoded d).widthD.toNat ≤ (b.encoded d).blen.toNat := by
  have hoff : (b.encoded d).offset.toNat = 3 := congrArg BitVec.toNat ho
  rw [encoded_blen hw, hoff]
  exact le_rfl

/-- Settles O18: the two fields and PV are slices of the string PART_ENC wrote, by `cBits_encoded`, `dBits_encoded` and `pvBits_encoded`. -/
theorem partitionRoundTrip : Obligations.PartitionRoundTrip := by
  intro s
  dsimp only
  intro hw ho hvc hvd hneg
  have hc := (cValue_le s.block).trans_lt hvc
  have hd := (dValue_le s.block).trans_lt hvd
  have hlen : (enc s.block.dValue s.block.widthD.toNat).length = s.block.widthD.toNat := enc_length _ _
  have hpv := congrArg val (pvBits_encoded hlen hw)
  rw [val_enc _ _ s.block.pctl.pv.isLt] at hpv
  have hdec := exec_partDec_of_fits { s with block := s.block.encoded (enc s.block.dValue s.block.widthD.toNat) }
    ((encoded_blen hw).trans_le hw) (encoded_fits hw ho _)
  dsimp only at hdec
  rw [cBits_encoded hlen hw ho, dBits_encoded hlen hw ho, val_enc _ _ hc, val_enc _ _ hd] at hdec
  exact ⟨_, _, exec_partEnc_of_fits s hw hneg hc hd, hdec, ofNat_forced _ _, ofNat_forced _ _, hpv,
    BitVec.eq_of_toNat_eq ((pvBits_readWord _).trans hpv)⟩

theorem firstBadChar_dText_eq_none {b : Block} (hm : b.clen.toNat ≤ 36)
    (ha : ∀ i < b.clen.toNat, inAlphabet (b.charAt i) = true) : firstBadChar b.dText = none := by
  obtain ⟨j, hj, -, -, hat⟩ | ⟨hbad, -⟩ := firstBadChar_dText_cases b hm
  · exact absurd (ha j (hj.trans_le (dChars_le b))) (by simp [hat])
  · exact hbad

/-- The characters of CBUF before CLEN after a decode that committed a text. -/
theorem take_clen_commitText (b : Block) {t : Text} (h : t.length ≤ 36) :
    (b.commitText t).cbuf.toList.take (b.commitText t).clen.toNat = t := by
  have hclen : (b.commitText t).clen.toNat = t.length := Nat.mod_eq_of_lt (by omega)
  rw [hclen]
  exact take_padText _ _ h

/-- Settles O19: the c field and the groups of the text are slices of the string SPART_ENC wrote, and `sdec_senc` gives the text back. -/
theorem stringPartitionRoundTrip : Obligations.StringPartitionRoundTrip := by
  intro s
  dsimp only
  intro hw ho hvc hneg hm hfit ha
  have hc := (cValue_le s.block).trans_lt hvc
  have hbad := firstBadChar_dText_eq_none hm ha
  have hchars := dChars_le s.block
  have htext := dText_length hm
  have hlen : (senc s.block.dText s.block.widthD.toNat).length = s.block.widthD.toNat := senc_length _ _ (by omega)
  have hdec := exec_spartDec_of_sdec_ok { s with block := s.block.encoded (senc s.block.dText s.block.widthD.toNat) }
    ((encoded_blen hw).trans_le hw) (encoded_fits hw ho _)
    ((dBits_encoded hlen hw ho).symm ▸ sdec_senc .d ((firstBadChar_eq_none _).mp hbad))
  dsimp only at hdec
  rw [cBits_encoded hlen hw ho, val_enc _ _ hc] at hdec
  refine ⟨_, _, exec_spartEnc_of_fits s hw hm hneg hc hbad (by omega), hdec, ofNat_forced _ _, ?_⟩
  rw [← dText_eq]
  exact take_clen_commitText _ (by omega)

end Sys2Proof.Machine
end

section
/-! SUPPORT. The errors a command raises (60_exceptions.md R202, R203): each check and each evaluation raises only errors that R202 lists. -/

namespace Sys2Proof.Machine

/-! ## Errors that R202 lists -/

/-- An error with INDEX 0 is listed when its FIELD is. -/
theorem CmdError.legal_of_legalField {sub : SubCause} {f : ErrField} (h : sub.legalField f = true) :
    CmdError.legal ⟨sub, f, 0⟩ = true := by
  simp [CmdError.legal, h]

/-- An InvalidCharacter error is listed with any index up to MAX_CHARS. -/
theorem CmdError.legal_of_index_le {e : CmdError} (hfield : e.sub.legalField e.field = true) (hcode : e.sub.errcode = 2)
    (hindex : e.index ≤ 36) : e.legal = true := by
  simp [CmdError.legal, hfield, hcode, hindex]

/-! ## Evaluations that raise only listed errors -/

/-- If this evaluation raises an error, 60_exceptions.md R202 lists it. -/
def ErrorsLegal {α : Type} (r : Except CmdError α) : Prop := ∀ e, r = .error e → e.legal = true

section
variable {α β : Type}

theorem errorsLegal_ok (a : α) : ErrorsLegal (.ok a : Except CmdError α) := fun _ h => nomatch h

theorem errorsLegal_error {e : CmdError} (h : e.legal = true) : ErrorsLegal (.error e : Except CmdError α) :=
  fun _ he => Except.error.inj he ▸ h

theorem errorsLegal_map {r : Except CmdError α} (h : ErrorsLegal r) (g : α → β) : ErrorsLegal (r.map g) := by
  cases r with
  | ok a => exact errorsLegal_ok (g a)
  | error e => exact errorsLegal_error (h e rfl)

/-- A check that raises a listed error with INDEX 0, before the rest of an evaluation. -/
theorem errorsLegal_check {c : Prop} [Decidable c] {sub : SubCause} {f : ErrField} {r : Except CmdError α}
    (hfield : sub.legalField f = true) (hr : ErrorsLegal r) : ErrorsLegal (if c then .error ⟨sub, f, 0⟩ else r) := by
  split_ifs
  · exact errorsLegal_error (CmdError.legal_of_legalField hfield)
  · exact hr

end

/-! ## The shared checks -/

/-- The error of a text's first bad character, no text being longer than MAX_CHARS. -/
theorem CmdError.legal_badChar {t : Text} {f : ErrField} {j : Nat} (ht : t.length ≤ 36) (hf : f ≠ .whole)
    (h : firstBadChar t = some j) : CmdError.legal ⟨.badChar, f, j⟩ = true :=
  have ⟨hj, _, _⟩ := (firstBadChar_eq_some t j).mp h
  CmdError.legal_of_index_le (bne_iff_ne.mpr hf) rfl (hj.le.trans ht)

theorem encodeText_errorsLegal {t : Text} {f : ErrField} (w : Nat) (ht : t.length ≤ 36) (hf : f ≠ .whole) :
    ErrorsLegal (encodeText t w f) := by
  unfold encodeText
  split
  · rename_i j hbad
    exact errorsLegal_error (CmdError.legal_badChar ht hf hbad)
  · exact errorsLegal_check (bne_iff_ne.mpr hf) (errorsLegal_ok _)

/-- No group of a string of at most BUF_BITS bits has an index above MAX_CHARS. -/
theorem sdec_errorsLegal {bits : BitString} {f : ErrField} (hbits : bits.length ≤ 256) (hf : f ≠ .whole) :
    ErrorsLegal (sdec bits f) := by
  intro e he
  obtain ⟨hsub, rfl, hindex⟩ := sdec_error bits f e he
  have ⟨hfield, hcode⟩ : e.sub.legalField e.field = true ∧ e.sub.errcode = 2 := by
    obtain hsub | hsub := hsub
    · rw [hsub]; exact ⟨bne_iff_ne.mpr hf, rfl⟩
    · rw [hsub]; exact ⟨bne_iff_ne.mpr hf, rfl⟩
  exact CmdError.legal_of_index_le hfield hcode (by omega)

theorem slice_bufString_length_le (buf : BitVec 256) (x y : Nat) : (slice (bufString buf) x y).length ≤ 256 := by
  simp [slice]

theorem dText_length_le (b : Block) : b.dText.length ≤ 36 := by simp [Block.dText]

/-! ## The nine commands -/

section
variable (b : Block)

theorem evalIntEnc_errorsLegal : ErrorsLegal (evalIntEnc b) := by
  rw [evalIntEnc_eq]
  exact errorsLegal_check rfl <| errorsLegal_check rfl <| errorsLegal_check rfl (errorsLegal_ok _)

theorem evalIntDec_errorsLegal : ErrorsLegal (evalIntDec b) := errorsLegal_check rfl (errorsLegal_ok _)

theorem evalStrEnc_errorsLegal : ErrorsLegal (evalStrEnc b) := by
  have htext := encodeText_errorsLegal b.widthC.toNat (inputText_length_le b) (f := .c) (by decide)
  refine errorsLegal_check rfl (errorsLegal_check rfl ?_)
  split
  · rename_i e he
    exact errorsLegal_error (htext e he)
  · exact errorsLegal_ok _

theorem evalStrDec_errorsLegal : ErrorsLegal (evalStrDec b) := by
  have hgroups := sdec_errorsLegal (bits := b.inputBits) (f := .c) (slice_bufString_length_le _ _ _) (by decide)
  refine errorsLegal_check rfl ?_
  split
  · rename_i e he
    exact errorsLegal_error (hgroups e he)
  · exact errorsLegal_ok _

theorem evalStrUrlenc_errorsLegal : ErrorsLegal (evalStrUrlenc b) := by
  refine errorsLegal_check rfl ?_
  split
  · rename_i j hbad
    exact errorsLegal_error (CmdError.legal_badChar (inputText_length_le b) (by decide) hbad)
  · exact errorsLegal_ok _

theorem evalPartEnc_errorsLegal : ErrorsLegal (evalPartEnc b) := by
  rw [evalPartEnc_eq]
  exact errorsLegal_check rfl <| errorsLegal_check rfl <| errorsLegal_check rfl <| errorsLegal_check rfl <|
    errorsLegal_check rfl (errorsLegal_ok _)

theorem evalPartDec_errorsLegal : ErrorsLegal (evalPartDec b) := by
  rw [evalPartDec_eq]
  exact errorsLegal_check rfl <| errorsLegal_check rfl (errorsLegal_ok _)

theorem evalSpartEnc_errorsLegal : ErrorsLegal (evalSpartEnc b) := by
  rw [evalSpartEnc_eq]
  exact errorsLegal_check rfl <| errorsLegal_check rfl <| errorsLegal_check rfl <| errorsLegal_check rfl <|
    errorsLegal_map (encodeText_errorsLegal _ (dText_length_le b) (by decide)) _

theorem evalSpartDec_errorsLegal : ErrorsLegal (evalSpartDec b) := by
  rw [evalSpartDec_eq]
  exact errorsLegal_check rfl <| errorsLegal_check rfl <|
    errorsLegal_map (sdec_errorsLegal (slice_bufString_length_le _ _ _) (by decide)) _

/-- A command raises only errors that 60_exceptions.md R202 lists. -/
theorem evalOf_errorsLegal (i : Instr) : ErrorsLegal (evalOf i b) := by
  cases i with
  | intEnc => exact evalIntEnc_errorsLegal b
  | intDec => exact evalIntDec_errorsLegal b
  | strEnc => exact evalStrEnc_errorsLegal b
  | strDec => exact evalStrDec_errorsLegal b
  | strUrlenc => exact evalStrUrlenc_errorsLegal b
  | partEnc => exact evalPartEnc_errorsLegal b
  | partDec => exact evalPartDec_errorsLegal b
  | spartEnc => exact evalSpartEnc_errorsLegal b
  | spartDec => exact evalSpartDec_errorsLegal b

end

/-- Settles O22: ERR is 1 only when the evaluation raised an error; that error is a listed one, and the completion writes its report into
the old block. -/
theorem failureWritesOnlyTheReport : Obligations.FailureWritesOnlyTheReport := by
  intro i s t hnext herr
  cases heval : evalOf i s.block with
  | ok b' =>
    obtain rfl := Host.Outcome.next.inj ((exec_of_evalOf_ok heval).symm.trans hnext)
    exact absurd herr Bool.false_ne_true
  | error e =>
    obtain rfl := Host.Outcome.next.inj ((exec_of_evalOf_error heval).symm.trans hnext)
    exact ⟨e, evalOf_errorsLegal s.block i e heval, rfl, rfl⟩

end Sys2Proof.Machine
end

section
/-! SUPPORT. The words of the window after reset (70_reset_and_hazards.md R231): what a word of a buffer reads while the buffer holds only
zeros. -/

namespace Sys2Proof.Machine

/-! ## The words of a buffer that holds only zeros (20_memory.md R64 to R66) -/

theorem valueWord_zero (k : Fin 8) : valueWord 0 k = 0 := BitVec.extractLsb'_zero

theorem bufWord_zero (k : Fin 8) : bufWord 0 k = 0 := BitVec.extractLsb'_zero

/-- A character of a text of zeros is 0x00, past the end of its buffer too. -/
theorem getD_replicate_zero (n j : Nat) : (Vector.replicate n (0 : Byte)).toList.getD j 0 = 0 := by
  rw [Vector.toList_replicate, List.getD_eq_getElem?_getD, List.getElem?_getD_replicate_default_eq]

theorem textWord_replicate_zero (n k : Nat) : textWord (Vector.replicate n 0) k = 0 := by
  simp only [textWord, getD_replicate_zero]
  rfl

/-! ## The reset state -/

/-- Settles O45: ID and PARAM read their constants in every block, a register of one word reads its reset value, and a word of a buffer
reads 0 because the buffer holds only zeros. -/
theorem resetValues : Obligations.ResetValues := by
  refine ⟨fun r => ?_, rfl⟩
  cases r with
  | id => exact readWord_id _
  | param => exact readWord_param _
  | valC k | valD k => exact valueWord_zero k
  | buf k => exact bufWord_zero k
  | cbuf k => exact textWord_replicate_zero 36 k.val
  | ubuf k => exact textWord_replicate_zero 108 k.val
  | cmd | status | errinfo | widthC | widthD | offset | pctl | vneg | blen | clen | ulen => rfl

end Sys2Proof.Machine
end

section
/-! SUPPORT. The frame of a completion: what it keeps of the block, and which changes of the block it commutes with. -/

namespace Sys2Proof.Machine

/-! ## The registers a command's results leave alone (10_state.md R46) -/

/-- The results of a command lie in its "writes" column. -/
theorem eq_takeWrites_of_evalOf_ok {i : Instr} {b r : Block} (h : evalOf i b = .ok r) : r = takeWrites i r b := by
  have hself := evalOf_congr i (agreeOnReads_refl i b)
  rw [h] at hself
  exact Except.ok.inj hself

section
variable (i : Instr) (r b : Block)

@[simp] theorem takeWrites_status : (takeWrites i r b).status = b.status := by cases i <;> rfl
@[simp] theorem takeWrites_widthC : (takeWrites i r b).widthC = b.widthC := by cases i <;> rfl
@[simp] theorem takeWrites_widthD : (takeWrites i r b).widthD = b.widthD := by cases i <;> rfl
@[simp] theorem takeWrites_offset : (takeWrites i r b).offset = b.offset := by cases i <;> rfl
@[simp] theorem takeWrites_pctl : (takeWrites i r b).pctl = b.pctl := by cases i <;> rfl

theorem takeWrites_ulen (h : i ≠ .strUrlenc) : (takeWrites i r b).ulen = b.ulen := by
  cases i with
  | strUrlenc => exact absurd rfl h
  | _ => rfl

theorem takeWrites_ubuf (h : i ≠ .strUrlenc) : (takeWrites i r b).ubuf = b.ubuf := by
  cases i with
  | strUrlenc => exact absurd rfl h
  | _ => rfl

end

/-- The completion of a pending word: the report of an error that 60_exceptions.md R202 lists, or the results of the command whose word it
is, put into that command's "writes" column. -/
theorem completedBlock_report_or_results (b : Block) (w : Word) :
    (∃ e : CmdError, e.legal = true ∧ completedBlock b w = b.raiseError e) ∨
    (∃ i r, w = encode i ∧ evalOf i b = .ok r ∧ completedBlock b w = (takeWrites i r b).succeed) := by
  obtain ⟨i, r, hd, hr, hc⟩ | ⟨i, e, -, he, hc⟩ | ⟨e, -, hc⟩ := completedBlock_cases b w
  · rw [eq_takeWrites_of_evalOf_ok hr] at hc
    exact .inr ⟨i, r, ((decode_eq_ok_iff w i).mp hd).symm, hr, hc⟩
  · exact .inl ⟨e, evalOf_errorsLegal b i e he, hc⟩
  · exact .inl ⟨illegalCommand e, by cases e <;> rfl, hc⟩

section
variable (b : Block) (w : Word)

@[simp] theorem completedBlock_coll : (completedBlock b w).status.coll = b.status.coll := by
  obtain ⟨e, -, hc⟩ | ⟨i, r, -, -, hc⟩ := completedBlock_report_or_results b w <;> simp [hc]

@[simp] theorem completedBlock_widthC : (completedBlock b w).widthC = b.widthC := by
  obtain ⟨e, -, hc⟩ | ⟨i, r, -, -, hc⟩ := completedBlock_report_or_results b w <;> simp [hc]

@[simp] theorem completedBlock_widthD : (completedBlock b w).widthD = b.widthD := by
  obtain ⟨e, -, hc⟩ | ⟨i, r, -, -, hc⟩ := completedBlock_report_or_results b w <;> simp [hc]

@[simp] theorem completedBlock_offset : (completedBlock b w).offset = b.offset := by
  obtain ⟨e, -, hc⟩ | ⟨i, r, -, -, hc⟩ := completedBlock_report_or_results b w <;> simp [hc]

@[simp] theorem completedBlock_pctl : (completedBlock b w).pctl = b.pctl := by
  obtain ⟨e, -, hc⟩ | ⟨i, r, -, -, hc⟩ := completedBlock_report_or_results b w <;> simp [hc]

end

/-! ## Changes of the block that a completion commutes with -/

/-- A change of the block that neither the report of an error nor that of a success touches. -/
def KeptByReport (f : Block → Block) : Prop :=
  (∀ b, (f b).succeed = f b.succeed) ∧ ∀ b e, (f b).raiseError e = f (b.raiseError e)

section
variable {f : Block → Block} {i : Instr}

/-- A change outside what a command reads and writes goes through its evaluation. -/
theorem evalOf_map_of_agreeOnReads {b : Block} (hreads : agreeOnReads i b (f b))
    (hwrites : ∀ r, takeWrites i r (f b) = f (takeWrites i r b)) : evalOf i (f b) = (evalOf i b).map f := by
  rw [evalOf_congr i hreads]
  cases hr : evalOf i b with
  | error e => rfl
  | ok r => exact congrArg Except.ok ((hwrites r).trans (congrArg f (eq_takeWrites_of_evalOf_ok hr).symm))

theorem complete_map {b : Block} (hf : KeptByReport f) (heval : evalOf i (f b) = (evalOf i b).map f) :
    (f b).complete (evalOf i (f b)) = f (b.complete (evalOf i b)) := by
  rw [heval]
  cases evalOf i b with
  | error e => exact hf.2 b e
  | ok r => exact hf.1 r

/-- A change that goes through a command's evaluation goes through its completion. -/
theorem exec_map {s t : State} (hf : KeptByReport f) (heval : evalOf i (f s.block) = (evalOf i s.block).map f)
    (h : exec i s = .next t) : exec i { s with block := f s.block } = .next { t with block := f t.block } := by
  rw [exec_eq_next, Host.Outcome.next.injEq] at h
  rw [exec_eq_next, ← h]
  exact congrArg (fun b => Host.Outcome.next { s with block := b }) (complete_map hf heval)

end

/-! ## COLL -/

/-- The block with COLL set to `c` and nothing else changed (10_state.md R25). -/
def Block.withColl (b : Block) (c : Bool) : Block := { b with status := { b.status with coll := c } }

theorem storeWord_status_eq (b : Block) (v : Word) :
    storeWord b v .status = b.withColl (b.status.coll && !v.getLsbD 8) := rfl

theorem dropWrite_eq (b : Block) : b.dropWrite = b.withColl true := rfl

theorem keptByReport_withColl (c : Bool) : KeptByReport (·.withColl c) := ⟨fun _ => rfl, fun _ _ => rfl⟩

/-- No command reads or writes COLL. -/
theorem evalOf_withColl (i : Instr) (b : Block) (c : Bool) : evalOf i (b.withColl c) = (evalOf i b).map (·.withColl c) := by
  have hreads : agreeOnReads i b (b.withColl c) := by cases i <;> simp only [agreeOnReads, Block.withColl, and_self]
  exact evalOf_map_of_agreeOnReads (f := (·.withColl c)) hreads fun r => by cases i <;> rfl

theorem completedBlock_withColl (b : Block) (c : Bool) (w : Word) :
    completedBlock (b.withColl c) w = (completedBlock b w).withColl c := by
  unfold completedBlock
  cases decode w with
  | error e => rfl
  | ok i => exact complete_map (keptByReport_withColl c) (evalOf_withColl i b c)

end Sys2Proof.Machine
end

section
/-! SUPPORT. The invariant of the block: the report half of it is set by every issue and completion, the URI half only by STR_URLENC. -/

namespace Sys2Proof.Machine

/-! ## The URI text (10_state.md R39, R40) -/

/-- ULEN is at most UBUF_CHARS, and UBUF is 0x00 from ULEN on. -/
def Block.UriPadded (b : Block) : Prop := b.ulen.toNat ≤ Config.ubufChars ∧ ∀ j : Fin 108, b.ulen.toNat ≤ j.val → b.ubuf[j] = 0

theorem Block.Inv.uriPadded {b : Block} (h : b.Inv) : b.UriPadded := ⟨h.ulen_le, h.ubuf_tail⟩

theorem uenc_inputText_length_le (b : Block) : (uenc b.inputText).length ≤ 108 := by
  have := uenc_length_le b.inputText
  have := inputText_length_le b
  omega

theorem commitUri_uriPadded (b : Block) {u : Text} (h : u.length ≤ 108) : (b.commitUri u).UriPadded := by
  have hulen : (b.commitUri u).ulen.toNat = u.length := Nat.mod_eq_of_lt (by omega)
  refine ⟨hulen.trans_le h, fun j hj => ?_⟩
  rw [hulen] at hj
  exact (padText_getElem _ u j.val j.isLt).trans (List.getD_eq_default _ _ hj)

theorem evalStrUrlenc_ok {b r : Block} (h : evalStrUrlenc b = .ok r) : r = b.commitUri (uenc b.inputText) := by
  unfold evalStrUrlenc at h
  split_ifs at h
  split at h
  · cases h
  · exact (Except.ok.inj h).symm

/-- The results of a command keep the URI text padded: STR_URLENC writes a padded one, and no other command writes it. -/
theorem takeWrites_uriPadded {i : Instr} {b r : Block} (hb : b.UriPadded) (hr : evalOf i b = .ok r) :
    (takeWrites i r b).UriPadded := by
  by_cases hi : i = .strUrlenc
  · subst hi
    rw [← eq_takeWrites_of_evalOf_ok hr, evalStrUrlenc_ok hr]
    exact commitUri_uriPadded b (uenc_inputText_length_le b)
  · unfold Block.UriPadded
    rw [takeWrites_ulen i r b hi, takeWrites_ubuf i r b hi]
    exact hb

/-! ## What keeps the invariant -/

theorem SubCause.errcode_ne_zero (c : SubCause) : c.errcode ≠ 0 := by cases c <;> decide

/-- A success meets the invariant whatever the report was before. -/
theorem succeed_inv {b : Block} (h : b.UriPadded) : b.succeed.Inv where
  busy_iff_pending := rfl
  done_not_busy := fun _ => rfl
  err_done := fun _ => rfl
  err_iff_code := by simp
  report_legal := .inl ⟨rfl, rfl⟩
  cmd_pending := nofun
  ulen_le := h.1
  ubuf_tail := h.2

/-- The report of a listed error meets the invariant whatever the report was before. -/
theorem raiseError_inv {b : Block} {e : CmdError} (h : b.UriPadded) (he : e.legal = true) : (b.raiseError e).Inv where
  busy_iff_pending := rfl
  done_not_busy := fun _ => rfl
  err_done := fun _ => rfl
  err_iff_code := iff_of_true rfl e.sub.errcode_ne_zero
  report_legal := .inr ⟨e, he, rfl, rfl⟩
  cmd_pending := nofun
  ulen_le := h.1
  ubuf_tail := h.2

theorem issue_inv {b : Block} (h : b.UriPadded) (w : Word) : (b.issue w).Inv where
  busy_iff_pending := rfl
  done_not_busy := nofun
  err_done := nofun
  err_iff_code := by simp
  report_legal := .inl ⟨rfl, rfl⟩
  cmd_pending := fun _ => Option.some.inj
  ulen_le := h.1
  ubuf_tail := h.2

/-- The invariant does not speak of COLL. -/
theorem withColl_inv {b : Block} (h : b.Inv) (c : Bool) : (b.withColl c).Inv :=
  ⟨h.busy_iff_pending, h.done_not_busy, h.err_done, h.err_iff_code, h.report_legal, h.cmd_pending, h.ulen_le, h.ubuf_tail⟩

/-- A store of an operand register keeps every register of which the invariant speaks. -/
theorem storeWord_inv {b : Block} (h : b.Inv) (v : Word) {r : RegWord} (hr : r ≠ .status) : (storeWord b v r).Inv := by
  have hstatus := storeWord_status b v r hr
  constructor
  · rw [hstatus, storeWord_pending]; exact h.busy_iff_pending
  · rw [hstatus]; exact h.done_not_busy
  · rw [hstatus]; exact h.err_done
  · rw [hstatus]; exact h.err_iff_code
  · rw [hstatus, storeWord_errinfo]; exact h.report_legal
  · rw [storeWord_pending, storeWord_cmd]; exact h.cmd_pending
  · rw [storeWord_ulen]; exact h.ulen_le
  · rw [storeWord_ulen, storeWord_ubuf]; exact h.ubuf_tail

theorem completedBlock_inv {b : Block} (h : b.UriPadded) (w : Word) : (completedBlock b w).Inv := by
  obtain ⟨e, he, hc⟩ | ⟨i, r, -, hr, hc⟩ := completedBlock_report_or_results b w
  · rw [hc]; exact raiseError_inv h he
  · rw [hc]; exact succeed_inv (takeWrites_uriPadded h hr)

theorem reset_inv : Block.reset.Inv where
  busy_iff_pending := rfl
  done_not_busy := nofun
  err_done := nofun
  err_iff_code := by decide
  report_legal := .inl ⟨rfl, rfl⟩
  cmd_pending := nofun
  ulen_le := Nat.zero_le _
  ubuf_tail := fun j _ => Vector.getElem_replicate j.isLt

/-- Settles O47. -/
theorem invariantAtReset : Obligations.InvariantAtReset := reset_inv

/-- Settles O48: each of the ways a step can change the block (`BlockChange`) keeps the invariant. -/
theorem everyStepKeepsTheInvariant : Obligations.EveryStepKeepsTheInvariant := by
  intro s t hs hstep
  change t.block.Inv
  obtain h | ⟨w, -, -, h⟩ | ⟨-, h⟩ | ⟨v, -, h⟩ | ⟨r, v, -, -, -, -, h⟩ | ⟨w, -, -, h⟩ | ⟨r, v, hr, -, -, -, -, h⟩ :=
    step_blockChange s t hstep
  · rw [h]; exact hs
  · rw [h]; exact completedBlock_inv hs.uriPadded w
  · rw [h]; exact reset_inv
  · rw [h, storeWord_status_eq]; exact withColl_inv hs _
  · rw [h, dropWrite_eq]; exact withColl_inv hs true
  · rw [h]; exact issue_inv hs.uriPadded w
  · rw [h]; exact storeWord_inv hs v hr

end Sys2Proof.Machine
end

section
/-! SUPPORT. A host access at its own step (20_memory.md R62, R67 to R69): one rule for each thing an access can do, giving the whole next
state. -/

namespace Sys2Proof.Machine

/-! ## An admitted write (20_memory.md R68, R69) -/

section
variable (s : State) (v : Word)

theorem writeReg_status : s.writeReg .status v = { s with block := storeWord s.block v .status } := rfl

theorem writeReg_of_pending {r : RegWord} {w : Word} (hr : r ≠ .status) (hp : s.block.pending = some w) :
    s.writeReg r v = { s with block := s.block.dropWrite } := by
  rw [State.writeReg, if_neg hr, hp]; rfl

theorem writeReg_cmd (hp : s.block.pending = none) : s.writeReg .cmd v = s.issue v := by
  rw [State.writeReg, hp]; rfl

theorem writeReg_of_idle {r : RegWord} (hr : r ≠ .status) (hc : r ≠ .cmd) (hp : s.block.pending = none) :
    s.writeReg r v = { s with block := storeWord s.block v r } := by
  rw [State.writeReg, if_neg hr, hp, if_neg hc]; rfl

end

theorem admittedTransfer_write_of_writable {r : RegWord} (hro : r.readOnly = false) (v : Word) :
    admittedTransfer (.write r.accessOffset (.word v)) = some (.write r v) := by
  rw [admittedTransfer_write, hro]; rfl

/-! ## The step of an access -/

section
variable {s : State} {agent : Nat} {a : Access} {rest : List Input} (h : s.hostTurn agent a rest)
include h

theorem step_of_hostTurn :
    step s = .next (accessStep (({ s with hostAgent := some agent } : State).takeAccess rest) a) :=
  have ⟨hinputs, hhost, hturn⟩ := h
  step_host s agent (.access a) rest hinputs hhost hturn

theorem step_busError (ha : admittedTransfer a = none) :
    step s = .next (s.afterAccess agent rest .busError s.block) := by
  rw [step_of_hostTurn h, accessStep, busAccess, ha]; rfl

theorem step_read {r : RegWord} (ha : admittedTransfer a = some (.read r)) :
    step s = .next (s.afterAccess agent rest (.data (readWord s.block r)) s.block) := by
  rw [step_of_hostTurn h, accessStep, busAccess, ha]; rfl

theorem step_write {r : RegWord} {v : Word} (ha : admittedTransfer a = some (.write r v)) {t : State}
    (ht : (({ s with hostAgent := some agent } : State).takeAccess rest).writeReg r v = t) :
    step s = .next { t with responses := t.responses ++ [.written] } := by
  rw [step_of_hostTurn h, accessStep, busAccess, ha, ← ht]

theorem step_statusWrite {v : Word} (ha : admittedTransfer a = some (.write .status v)) :
    step s = .next (s.afterAccess agent rest .written (storeWord s.block v .status)) :=
  step_write h ha (writeReg_status _ v)

theorem step_droppedWrite {r : RegWord} {v w : Word} (ha : admittedTransfer a = some (.write r v)) (hr : r ≠ .status)
    (hp : s.block.pending = some w) : step s = .next (s.afterAccess agent rest .written s.block.dropWrite) :=
  step_write h ha (writeReg_of_pending _ v hr hp)

theorem step_issue {w : Word} (ha : admittedTransfer a = some (.write .cmd w)) (hp : s.block.pending = none) :
    step s = .next { s.afterAccess agent rest .written (s.block.issue w) with
      latencies := s.latencies.tail, latLeft := s.nextLatency, draws := s.draws + 1 } :=
  step_write h ha (writeReg_cmd _ w hp)

theorem step_store {r : RegWord} {v : Word} (ha : admittedTransfer a = some (.write r v)) (hr : r ≠ .status) (hc : r ≠ .cmd)
    (hp : s.block.pending = none) : step s = .next (s.afterAccess agent rest .written (storeWord s.block v r)) :=
  step_write h ha (writeReg_of_idle _ v hr hc hp)

end

/-! ## What an access sees and does -/

/-- Settles O33, by `step_busError`. -/
theorem busErrorChangesNothing : Obligations.BusErrorChangesNothing := by
  intro s agent a rest h ha
  rw [← isSome_admittedTransfer, Option.isSome_eq_false_iff, Option.isNone_iff_eq_none] at ha
  exact step_busError h ha

/-- Settles O34, by `step_read`. -/
theorem readsHaveNoSideEffect : Obligations.ReadsHaveNoSideEffect :=
  fun _ _ r _ h => step_read h (admittedTransfer_read r)

/-- Settles O37, by `step_issue`. -/
theorem cmdWriteIssues : Obligations.CmdWriteIssues :=
  fun _ _ w _ hp h => step_issue h (admittedTransfer_write_of_writable (r := .cmd) rfl w) hp

/-- Settles O38, by `step_droppedWrite`. -/
theorem busyWriteIsDropped : Obligations.BusyWriteIsDropped :=
  fun _ _ _ _ v _ hp hro hr h => step_droppedWrite h (admittedTransfer_write_of_writable hro v) hr hp

/-- Settles O39: COLL and the negated bit 8 of the word is the new COLL. -/
theorem statusWriteChangesOnlyColl : Obligations.StatusWriteChangesOnlyColl := by
  intro s agent v rest h
  have hcoll : (s.block.status.coll && !v.getLsbD 8) = if v.getLsbD 8 = true then false else s.block.status.coll := by
    cases v.getLsbD 8 <;> simp
  rw [step_statusWrite h (admittedTransfer_write_of_writable (r := .status) rfl v), storeWord_status_eq, hcoll]
  rfl

/-- Settles O54: the word read is STATUS, whose bit 0 is BUSY, and the invariant ties BUSY to PENDING. -/
theorem statusPollTellsCompletion : Obligations.StatusPollTellsCompletion := by
  intro s agent rest hinv h
  refine ⟨_, _, step_read h (admittedTransfer_read .status), rfl, ?_⟩
  have hbusy : (readWord s.block .status).getLsbD 0 = s.block.status.busy := s.block.status.toWord_fields.1
  rw [hbusy, hinv.busy_iff_pending, Option.isSome_eq_false_iff, Option.isNone_iff_eq_none]

/-! ## An accepted write, read back (20_memory.md R68) -/

/-- The bits a write takes for a field, put back at their place. -/
theorem fieldAt_extractLsb' (v : Word) (k n : Nat) :
    fieldAt (v.extractLsb' k n) k = v &&& fieldAt (BitVec.allOnes n) k := by
  apply BitVec.eq_of_getLsbD_eq
  intro i hi
  simp only [BitVec.getLsbD_and, getLsbD_fieldAt, BitVec.getLsbD_extractLsb', BitVec.getLsbD_allOnes]
  by_cases hk : k ≤ i
  · simp [hi, hk, Nat.add_sub_cancel' hk, Bool.and_comm]
  · simp [hk]

theorem ofBool_getLsbD (v : Word) (k : Nat) : BitVec.ofBool (v.getLsbD k) = v.extractLsb' k 1 := by
  apply BitVec.eq_of_getLsbD_eq
  intro i hi
  obtain rfl : i = 0 := by omega
  simp

/-- Character `j` of CBUF after a write of word `k`, the text read as `textWord` reads it. -/
theorem setTextWord_getD (old : Vector Byte 36) (k : Fin 9) (v : Word) (j : Nat) (h : j < 36) :
    (setTextWord old k v).toList.getD j 0 = if j / 4 = k.val then v.extractLsb' (8 * (j % 4)) 8 else old.toList.getD j 0 := by
  have hj := setTextWord_getElem old k v j h
  simp [List.getD_eq_getElem?_getD, h, hj]

theorem textWord_setTextWord_same (old : Vector Byte 36) (k : Fin 9) (v : Word) : textWord (setTextWord old k v) k.val = v := by
  have hbyte (i : Nat) (hi : i < 4) : (setTextWord old k v).toList.getD (4 * k.val + i) 0 = v.extractLsb' (8 * i) 8 := by
    rw [setTextWord_getD _ _ _ _ (by omega), if_pos (by omega), Nat.mul_add_mod, Nat.mod_eq_of_lt hi]
  rw [textWord, hbyte 3 (by decide), hbyte 2 (by decide), hbyte 1 (by decide), ← Nat.add_zero (4 * k.val), hbyte 0 (by decide)]
  exact append_extract_bytes v

theorem textWord_setTextWord_other (old : Vector Byte 36) {k k' : Fin 9} (v : Word) (h : k' ≠ k) :
    textWord (setTextWord old k v) k'.val = textWord old k'.val := by
  have hk : k'.val ≠ k.val := Fin.val_ne_of_ne h
  have hbyte (i : Nat) (hi : i < 4) :
      (setTextWord old k v).toList.getD (4 * k'.val + i) 0 = old.toList.getD (4 * k'.val + i) 0 := by
    rw [setTextWord_getD _ _ _ _ (by omega), if_neg (by omega)]
  rw [textWord, textWord, hbyte 3 (by decide), hbyte 2 (by decide), hbyte 1 (by decide), ← Nat.add_zero (4 * k'.val),
    hbyte 0 (by decide)]

theorem valueWord_setValueWord_other (old : BitVec 256) {k k' : Fin 8} (v : Word) (h : k' ≠ k) :
    valueWord (setValueWord old k v) k' = valueWord old k' :=
  have hk : k'.val ≠ k.val := Fin.val_ne_of_ne h
  extract_spliceWord_other _ _ _ _ (by omega) (by omega)

theorem bufWord_setBufWord_other (old : BitVec 256) {k k' : Fin 8} (v : Word) (h : k' ≠ k) :
    bufWord (setBufWord old k v) k' = bufWord old k' :=
  have hk : k'.val ≠ k.val := Fin.val_ne_of_ne h
  extract_spliceWord_other _ _ _ _ (by omega) (by omega)

/-- A stored word is read back, but for its reserved bits. -/
theorem readWord_storeWord_same (b : Block) (v : Word) {r : RegWord} (hro : r.readOnly = false) (hc : r ≠ .cmd) (hr : r ≠ .status) :
    readWord (storeWord b v r) r = v &&& r.writableBits := by
  cases r with
  | id | param | errinfo | ulen | ubuf => cases hro
  | cmd => exact absurd rfl hc
  | status => exact absurd rfl hr
  | widthC | widthD | offset | blen | clen =>
    rw [readWord, storeWord, zeroExtend_eq_fieldAt, fieldAt_extractLsb']
    rfl
  | pctl =>
    rw [readWord, storeWord, Pctl.toWord_eq, fieldAt_extractLsb', fieldAt_extractLsb', fieldAt_extractLsb', ← BitVec.and_or_distrib_left,
      ← BitVec.and_or_distrib_left]
    rfl
  | vneg =>
    rw [readWord, storeWord, Vneg.toWord_eq, ofBool_getLsbD, ofBool_getLsbD, fieldAt_extractLsb', fieldAt_extractLsb',
      ← BitVec.and_or_distrib_left]
    rfl
  | valC k | valD k => exact (extract_spliceWord_same _ _ v (by omega)).trans BitVec.and_allOnes.symm
  | buf k => exact (extract_spliceWord_same _ _ v (by omega)).trans BitVec.and_allOnes.symm
  | cbuf k => exact (textWord_setTextWord_same _ k v).trans BitVec.and_allOnes.symm

/-- A store is seen by no other word of the window. -/
theorem readWord_storeWord_other (b : Block) (v : Word) {r r' : RegWord} (hr : r ≠ .status) (h : r' ≠ r) :
    readWord (storeWord b v r) r' = readWord b r' := by
  cases r with
  | id | param | cmd | errinfo | ulen | ubuf => rfl
  | status => exact absurd rfl hr
  | widthC | widthD | offset | pctl | vneg | blen | clen => cases r' <;> trivial
  | valC k =>
    cases r' with
    | valC k' => exact valueWord_setValueWord_other _ v fun hk => h (congrArg _ hk)
    | _ => rfl
  | valD k =>
    cases r' with
    | valD k' => exact valueWord_setValueWord_other _ v fun hk => h (congrArg _ hk)
    | _ => rfl
  | buf k =>
    cases r' with
    | buf k' => exact bufWord_setBufWord_other _ v fun hk => h (congrArg _ hk)
    | _ => rfl
  | cbuf k =>
    cases r' with
    | cbuf k' => exact textWord_setTextWord_other _ v fun hk => h (congrArg _ hk)
    | _ => simp only [readWord, storeWord]

/-- Settles O36: the block after `step_store` is the stored one, of which the two `readWord_storeWord` lemmas give every word. -/
theorem writeThenReadBack : Obligations.WriteThenReadBack := by
  intro s agent r v rest hp hro hc hr h
  refine ⟨storeWord s.block v r, step_store h (admittedTransfer_write_of_writable hro v) hr hc hp,
    readWord_storeWord_same _ v hro hc hr, fun r' hr' => readWord_storeWord_other _ v hr hr', ?_⟩
  rw [storeWord_pending, hp]

/-! ## Steps that are no access -/

/-- Settles O46: what a reset leaves of the machine's own fields does not reach the block. -/
theorem resetAbandonsThePendingCommand : Obligations.ResetAbandonsThePendingCommand := by
  intro s cut rest hinputs hturn
  refine ⟨({ s with inputs := rest } : State).applyReset cut, ?_, ?_⟩
  · rw [step_turn s _ _ hinputs hturn, inputStep, hinputs]
  · cases cut <;> exact ⟨rfl, rfl, rfl⟩

/-- Settles O55: it is the second host's turn, and `inputStep` refuses it. -/
theorem secondHostIsRefused : Obligations.SecondHostIsRefused := by
  intro s first second op rest hfirst hne hinputs hturn
  have hother : s.otherHost second = true := by simp [State.otherHost, hfirst, hne.symm]
  rw [step_turn s _ _ hinputs hturn, inputStep, hinputs]
  exact if_pos hother

/-- Settles O56. -/
theorem idleBlockKeepsItsRegisters : Obligations.IdleBlockKeepsItsRegisters := by
  intro s hp hinputs
  rw [step_input s (.inl hp), inputStep, hinputs]

/-- Settles O3: the engine's turn comes in either case, and `step_engine` and `engineStep_eq_next` give the same state. -/
theorem stepRunsDecodedCommand : Obligations.StepRunsDecodedCommand := by
  intro s w hp hturn
  have hengine : s.engineTurn = true := by
    obtain hlat | hinputs := hturn
    · simp [State.engineTurn, hlat]
    · simp [State.engineTurn, hinputs]
  have hstep : step s = engineStep s w := by rw [step_engine s w hp hengine, engineStep_eq_next]
  exact ⟨hstep, fun i _ hd => hstep.trans (engineStep_of_decode_ok s hd)⟩

/-- Settles O2: each written word is the word of its command. -/
theorem writtenWordsDecode : Obligations.WrittenWordsDecode :=
  ⟨decode_encode .intEnc, decode_encode .intDec, decode_encode .strUrlenc, decode_encode .partDec, decode_encode .spartEnc⟩

/-- Settles O28: the completion of PART_ENC on the reset values, whose fields are PV in 3 bits and two fields of no bits. -/
theorem partEncStraightAfterReset : Obligations.PartEncStraightAfterReset := by
  have hstep := (stepRunsDecodedCommand (State.reset.withFetchWord 32 0x30) 0x30 rfl (.inl rfl)).2 .partEnc rfl
    (decode_encode .partEnc)
  rw [exec_partEnc_of_fits _ (by decide) rfl (by decide) (by decide), Block.encoded, commitBits_intFields (by decide) (by decide)]
    at hstep
  exact ⟨_, hstep, rfl, rfl, rfl⟩

end Sys2Proof.Machine
end

section
/-! SUPPORT. What every step keeps of the block (10_state.md R24 to R31, R39, R40, R45): each statement goes through the ways a step can
change the block (`BlockChange`). -/

namespace Sys2Proof.Machine

theorem writesOther_write {r : RegWord} (hro : r.readOnly = false) (hr : r ≠ .status) (v : Word) :
    Access.writesOther (.write r.accessOffset (.word v)) = true := by
  rw [Access.writesOther, admittedTransfer_write_of_writable hro]
  exact bne_iff_ne.mpr hr

/-! ## STATUS (10_state.md R25, R26) -/

/-- Settles O21: a completion is a success or the report of an error, whose code is not 0; the issue is `cmdWriteIssues`. -/
theorem statusFlagsOfEveryCommand : Obligations.StatusFlagsOfEveryCommand := by
  refine ⟨fun i s t h => ?_, fun s agent w rest hp h => ⟨_, cmdWriteIssues s agent w rest hp h, rfl⟩⟩
  rw [exec_eq_next, Host.Outcome.next.injEq] at h
  rw [← h]
  obtain ⟨e, he⟩ | ⟨r, hr⟩ := complete_cases i s.block
  · simp only [he]
    exact ⟨rfl, rfl, rfl, .inr ⟨rfl, e.sub.errcode_ne_zero⟩⟩
  · simp [hr]

/-- Settles O49: only a write of STATUS, a dropped write and a reset change COLL. -/
theorem collIsSticky : Obligations.CollIsSticky := by
  intro s t hstep
  have hkept (h : t.block.status.coll = s.block.status.coll) {p q : Prop} :
      (s.block.status.coll = true → t.block.status.coll = false → p) ∧
        (s.block.status.coll = false → t.block.status.coll = true → q) :=
    ⟨fun h1 h2 => absurd (h2.symm.trans (h.trans h1)) Bool.false_ne_true,
      fun h1 h2 => absurd (h1.symm.trans (h.symm.trans h2)) Bool.false_ne_true⟩
  obtain h | ⟨w, -, -, h⟩ | ⟨hi, h⟩ | ⟨v, ⟨agent, rest, hi⟩, h⟩ | ⟨r, v, hr, hro, hp, ⟨agent, rest, hi⟩, h⟩ | ⟨w, -, -, h⟩ |
    ⟨r, v, hr, -, -, -, -, h⟩ := step_blockChange s t hstep
  · exact hkept (by rw [h])
  · exact hkept (by rw [h]; exact completedBlock_coll s.block w)
  · exact ⟨fun _ _ => .inl hi, fun _ h2 => by rw [h] at h2; cases h2⟩
  · have hcoll : t.block.status.coll = (s.block.status.coll && !v.getLsbD 8) := by rw [h]; rfl
    exact ⟨fun h1 h2 => .inr ⟨agent, v, rest, hi, by simpa [hcoll, h1] using h2⟩, fun h1 h2 => by simp [hcoll, h1] at h2⟩
  · exact ⟨fun _ h2 => by simp [h] at h2, fun _ _ => ⟨hp, agent, _, rest, hi, writesOther_write hro hr v⟩⟩
  · exact hkept (by rw [h]; rfl)
  · exact hkept (by rw [h, storeWord_status _ _ _ hr])

/-! ## PENDING and CMD (10_state.md R24) -/

/-- Settles O50: every step but an issue keeps PENDING or clears it. -/
theorem onlyACmdWriteStartsACommand : Obligations.OnlyACmdWriteStartsACommand := by
  intro s t w hstep ht hs
  have hkept (h : t.block.pending = s.block.pending) : False := hs (h.symm.trans ht)
  have hnone (h : t.block.pending = none) : False := nomatch h.symm.trans ht
  obtain h | ⟨_, -, -, h⟩ | ⟨-, h⟩ | ⟨v, -, h⟩ | ⟨r, v, -, -, -, -, h⟩ | ⟨w', hp, hi, h⟩ | ⟨r, v, -, -, -, -, -, h⟩ :=
    step_blockChange s t hstep
  · exact (hkept (by rw [h])).elim
  · exact (hnone (by rw [h]; exact completedBlock_pending _ _)).elim
  · exact (hnone (by rw [h]; rfl)).elim
  · exact (hkept (by rw [h, storeWord_pending])).elim
  · exact (hkept (by rw [h]; rfl)).elim
  · rw [h] at ht ⊢
    obtain rfl : w' = w := Option.some.inj ht
    exact ⟨hp, rfl, hi⟩
  · exact (hkept (by rw [h, storeWord_pending])).elim

/-! ## UBUF and ULEN (10_state.md R39, R40) -/

/-- A completion that changes UBUF or ULEN is the success of STR_URLENC. -/
theorem strUrlenc_of_completedBlock_ne {b : Block} {w : Word}
    (h : (completedBlock b w).ubuf ≠ b.ubuf ∨ (completedBlock b w).ulen ≠ b.ulen) :
    w = encode .strUrlenc ∧ (completedBlock b w).status.err = false := by
  obtain ⟨e, -, hc⟩ | ⟨i, r, hw, -, hc⟩ := completedBlock_report_or_results b w
  · simp [hc] at h
  · rw [hc] at h ⊢
    by_cases hi : i = .strUrlenc
    · subst hi
      exact ⟨hw, rfl⟩
    · simp [takeWrites_ubuf i r b hi, takeWrites_ulen i r b hi] at h

/-- Settles O51: no access changes UBUF or ULEN, and a completion that does is that of STR_URLENC. -/
theorem onlyUrlencWritesUbuf : Obligations.OnlyUrlencWritesUbuf := by
  intro s t hstep hne
  obtain h | ⟨w, hp, -, h⟩ | ⟨hi, -⟩ | ⟨v, -, h⟩ | ⟨r, v, -, -, -, -, h⟩ | ⟨w, -, -, h⟩ | ⟨r, v, -, -, -, -, -, h⟩ :=
    step_blockChange s t hstep
  · simp [h] at hne
  · rw [h] at hne ⊢
    obtain ⟨rfl, herr⟩ := strUrlenc_of_completedBlock_ne hne
    exact .inl ⟨hp, completedBlock_pending _ _, herr⟩
  · exact .inr hi
  · simp [h] at hne
  · simp [h] at hne
  · simp [h] at hne
  · simp [h] at hne

/-! ## The operand registers (10_state.md R28 to R31, R45) -/

/-- Settles O52: of the steps that are no reset, only an accepted store changes an operand field. -/
theorem onlyTheHostWritesOperandFields : Obligations.OnlyTheHostWritesOperandFields := by
  intro s t hstep hne
  obtain h | ⟨w, -, -, h⟩ | ⟨hi, -⟩ | ⟨v, -, h⟩ | ⟨r, v, -, -, -, -, h⟩ | ⟨w, -, -, h⟩ |
    ⟨r, v, hr, -, hro, hp, ⟨agent, rest, hi⟩, -⟩ := step_blockChange s t hstep
  · simp [h] at hne
  · simp [h] at hne
  · exact .inr hi
  · simp [h, storeWord] at hne
  · simp [h] at hne
  · simp [h] at hne
  · exact .inl ⟨hp, agent, _, rest, hi, writesOther_write hro hr v⟩

/-- A step after which the same word is still pending changes nothing of the block but COLL. -/
theorem eq_withColl_of_still_pending {s t : State} {w : Word} (hs : s.block.pending = some w) (hstep : step s = .next t)
    (ht : t.block.pending = some w) : ∃ c, t.block = s.block.withColl c := by
  have hidle (hp : s.block.pending = none) : False := nomatch hp.symm.trans hs
  have hnone (h : t.block.pending = none) : False := nomatch h.symm.trans ht
  obtain h | ⟨_, -, -, h⟩ | ⟨-, h⟩ | ⟨v, -, h⟩ | ⟨r, v, -, -, -, -, h⟩ | ⟨_, hp, -, -⟩ | ⟨r, v, -, -, -, hp, -, -⟩ :=
    step_blockChange s t hstep
  · exact ⟨s.block.status.coll, h⟩
  · exact (hnone (by rw [h]; exact completedBlock_pending _ _)).elim
  · exact (hnone (by rw [h]; rfl)).elim
  · exact ⟨_, h.trans (storeWord_status_eq _ v)⟩
  · exact ⟨true, h.trans (dropWrite_eq _)⟩
  · exact (hidle hp).elim
  · exact (hidle hp).elim

/-- Settles O53: only COLL can change, and every completion commutes with a change of COLL. -/
theorem operandsFrozenWhilePending : Obligations.OperandsFrozenWhilePending := by
  intro s t w hs hstep ht
  obtain ⟨c, hc⟩ := eq_withColl_of_still_pending hs hstep ht
  have hcoll : t.block = s.block.withColl t.block.status.coll := by rw [hc]; rfl
  refine ⟨hcoll, fun i => ⟨_, _, exec_eq_next i s, exec_eq_next i t, ?_⟩⟩
  have hcomplete := complete_map (keptByReport_withColl t.block.status.coll) (evalOf_withColl i s.block t.block.status.coll)
  rw [← hcoll] at hcomplete
  exact hcomplete

end Sys2Proof.Machine
end

section
/-! SUPPORT. The sub-causes of each command (60_exceptions.md R202, column "commands"), found check by check as `ErrorsLegal` is. -/

namespace Sys2Proof.Machine

/-- If this evaluation raises an error, its sub-cause is one of these numbers. -/
def ErrorsAmong {α : Type} (subs : List Nat) (r : Except CmdError α) : Prop := ∀ e, r = .error e → e.sub.number.toNat ∈ subs

section
variable {α β : Type} {subs : List Nat}

theorem errorsAmong_ok (a : α) : ErrorsAmong subs (.ok a : Except CmdError α) := fun _ h => nomatch h

theorem errorsAmong_error {e : CmdError} (h : e.sub.number.toNat ∈ subs) : ErrorsAmong subs (.error e : Except CmdError α) :=
  fun _ he => Except.error.inj he ▸ h

theorem errorsAmong_map {r : Except CmdError α} (h : ErrorsAmong subs r) (g : α → β) : ErrorsAmong subs (r.map g) := by
  cases r with
  | ok a => exact errorsAmong_ok (g a)
  | error e => exact errorsAmong_error (h e rfl)

/-- A check that raises an error of a listed sub-cause, before the rest of an evaluation. -/
theorem errorsAmong_check {c : Prop} [Decidable c] {e : CmdError} {r : Except CmdError α} (he : e.sub.number.toNat ∈ subs)
    (hr : ErrorsAmong subs r) : ErrorsAmong subs (if c then .error e else r) := by
  split_ifs
  · exact errorsAmong_error he
  · exact hr

theorem encodeText_errorsAmong (t : Text) (w : Nat) (f : ErrField) (hlong : 3 ∈ subs) (hbad : 8 ∈ subs) :
    ErrorsAmong subs (encodeText t w f) := by
  unfold encodeText
  split
  · exact errorsAmong_error hbad
  · exact errorsAmong_check hlong (errorsAmong_ok _)

theorem sdec_errorsAmong (bits : BitString) (f : ErrField) (hbad : 9 ∈ subs) (hpartial : 10 ∈ subs) :
    ErrorsAmong subs (sdec bits f) := by
  intro e he
  obtain ⟨hsub | hsub, -, -⟩ := sdec_error bits f e he
  · rw [hsub]; exact hbad
  · rw [hsub]; exact hpartial

end

section
variable (b : Block)

theorem evalIntEnc_errorsAmong : ErrorsAmong [0, 1, 2, 4] (evalIntEnc b) := by
  rw [evalIntEnc_eq]
  exact errorsAmong_check (by decide) <| errorsAmong_check (by decide) <| errorsAmong_check (by decide) (errorsAmong_ok _)

theorem evalIntDec_errorsAmong : ErrorsAmong [0, 6] (evalIntDec b) := errorsAmong_check (by decide) (errorsAmong_ok _)

theorem evalStrEnc_errorsAmong : ErrorsAmong [0, 3, 4, 7, 8] (evalStrEnc b) := by
  have htext := encodeText_errorsAmong (subs := [0, 3, 4, 7, 8]) b.inputText b.widthC.toNat .c (by decide) (by decide)
  refine errorsAmong_check (by decide) (errorsAmong_check (by decide) ?_)
  split
  · rename_i e he
    exact errorsAmong_error (htext e he)
  · exact errorsAmong_ok _

theorem evalStrDec_errorsAmong : ErrorsAmong [0, 6, 9, 10] (evalStrDec b) := by
  have hgroups := sdec_errorsAmong (subs := [0, 6, 9, 10]) b.inputBits .c (by decide) (by decide)
  refine errorsAmong_check (by decide) ?_
  split
  · rename_i e he
    exact errorsAmong_error (hgroups e he)
  · exact errorsAmong_ok _

theorem evalStrUrlenc_errorsAmong : ErrorsAmong [0, 7, 8] (evalStrUrlenc b) := by
  refine errorsAmong_check (by decide) ?_
  split
  · exact errorsAmong_error (List.mem_of_elem_eq_true rfl)
  · exact errorsAmong_ok _

theorem evalPartEnc_errorsAmong : ErrorsAmong [0, 1, 2, 4] (evalPartEnc b) := by
  rw [evalPartEnc_eq]
  exact errorsAmong_check (by decide) <| errorsAmong_check (by decide) <| errorsAmong_check (by decide) <|
    errorsAmong_check (by decide) <| errorsAmong_check (by decide) (errorsAmong_ok _)

theorem evalPartDec_errorsAmong : ErrorsAmong [0, 5, 6] (evalPartDec b) := by
  rw [evalPartDec_eq]
  exact errorsAmong_check (by decide) <| errorsAmong_check (by decide) (errorsAmong_ok _)

theorem evalSpartEnc_errorsAmong : ErrorsAmong [0, 1, 2, 3, 4, 7, 8] (evalSpartEnc b) := by
  rw [evalSpartEnc_eq]
  exact errorsAmong_check (by decide) <| errorsAmong_check (by decide) <| errorsAmong_check (by decide) <|
    errorsAmong_check (by decide) <| errorsAmong_map (encodeText_errorsAmong _ _ _ (by decide) (by decide)) _

theorem evalSpartDec_errorsAmong : ErrorsAmong [0, 5, 6, 9, 10] (evalSpartDec b) := by
  rw [evalSpartDec_eq]
  exact errorsAmong_check (by decide) <| errorsAmong_check (by decide) <|
    errorsAmong_map (sdec_errorsAmong _ _ (by decide) (by decide)) _

end

/-- ERRINFO.SUB after a completion: 0, or the sub-cause of the error its evaluation raised. -/
theorem errinfo_sub_mem {i : Instr} {s t : State} {subs : List Nat} (h : exec i s = .next t) (hzero : 0 ∈ subs)
    (herrors : ErrorsAmong subs (evalOf i s.block)) : t.block.errinfo.sub.toNat ∈ subs := by
  cases heval : evalOf i s.block with
  | ok b' =>
    obtain rfl := Host.Outcome.next.inj ((exec_of_evalOf_ok heval).symm.trans h)
    exact hzero
  | error e =>
    obtain rfl := Host.Outcome.next.inj ((exec_of_evalOf_error heval).symm.trans h)
    exact herrors e heval

/-- Settles O23, command by command. -/
theorem commandsReportTheirOwnSubCauses : Obligations.CommandsReportTheirOwnSubCauses := by
  intro i s t h
  cases i with
  | intEnc => exact errinfo_sub_mem h (by decide) (evalIntEnc_errorsAmong s.block)
  | intDec => exact errinfo_sub_mem h (by decide) (evalIntDec_errorsAmong s.block)
  | strEnc => exact errinfo_sub_mem h (by decide) (evalStrEnc_errorsAmong s.block)
  | strDec => exact errinfo_sub_mem h (by decide) (evalStrDec_errorsAmong s.block)
  | strUrlenc => exact errinfo_sub_mem h (by decide) (evalStrUrlenc_errorsAmong s.block)
  | partEnc => exact errinfo_sub_mem h (by decide) (evalPartEnc_errorsAmong s.block)
  | partDec => exact errinfo_sub_mem h (by decide) (evalPartDec_errorsAmong s.block)
  | spartEnc => exact errinfo_sub_mem h (by decide) (evalSpartEnc_errorsAmong s.block)
  | spartDec => exact errinfo_sub_mem h (by decide) (evalSpartDec_errorsAmong s.block)

end Sys2Proof.Machine
end

section
/-! SUPPORT. What a command does not read of its registers: each such change of the block goes through the evaluation, and so through the
completion (`exec_map`). -/

namespace Sys2Proof.Machine

/-- A change of the block goes through a check. -/
theorem map_check {α β : Type} {c : Prop} [Decidable c] {e : CmdError} {r : Except CmdError α} (g : α → β) :
    (if c then .error e else r).map g = if c then .error e else r.map g := by
  split_ifs <;> rfl

/-- Two evaluations with the same check are equal when they are after it. -/
theorem check_congr {α : Type} {c : Prop} [Decidable c] {e : CmdError} {r r' : Except CmdError α} (h : ¬c → r = r') :
    (if c then .error e else r) = if c then .error e else r' := by
  split_ifs with hc
  · rfl
  · exact h hc

/-! ## The bits of BUF at and beyond BLEN (10_state.md R35, decision D32) -/

/-- The block with `x` in BUF. -/
def Block.withBuf (b : Block) (x : BitVec 256) : Block := { b with buf := x }

theorem keptByReport_withBuf (x : BitVec 256) : KeptByReport (·.withBuf x) := ⟨fun _ => rfl, fun _ _ => rfl⟩

/-- A slice that ends at bit `n` or before depends on the first `n` bits alone. -/
theorem slice_bufString_congr {x y : BitVec 256} {n : Nat} (h : ∀ j < n, x.getMsbD j = y.getMsbD j) (p : Nat) {q : Nat} (hq : q ≤ n) :
    slice (bufString x) p q = slice (bufString y) p q := by
  have htake : (bufString x).take q = (bufString y).take q := by
    apply List.ext_getElem
    · simp
    · intro j hj _
      simp only [List.length_take, bufString_length] at hj
      have hbit := h j (by omega)
      simp only [BitVec.getMsbD, show j < 256 by omega, decide_true, Bool.true_and] at hbit
      simp only [List.getElem_take, bufString, enc_getElem]
      exact hbit
  rw [slice, slice, ← List.drop_take, ← List.drop_take, htake]

section
variable {b : Block} {x : BitVec 256} (h : ∀ j < b.blen.toNat, x.getMsbD j = b.buf.getMsbD j)
include h

theorem inputBits_withBuf : (b.withBuf x).inputBits = b.inputBits := slice_bufString_congr h 0 le_rfl

theorem evalIntDec_withBuf : evalIntDec (b.withBuf x) = (evalIntDec b).map (·.withBuf x) := by
  rw [evalIntDec, evalIntDec, map_check, inputBits_withBuf h]
  rfl

theorem evalStrDec_withBuf : evalStrDec (b.withBuf x) = (evalStrDec b).map (·.withBuf x) := by
  simp only [evalStrDec, inputBits_withBuf h, map_check]
  cases sdec b.inputBits .c <;> rfl

theorem cBits_withBuf (hfit : b.offset.toNat + b.widthC.toNat + b.widthD.toNat ≤ b.blen.toNat) : (b.withBuf x).cBits = b.cBits :=
  slice_bufString_congr h _ (Nat.le_of_add_right_le hfit)

theorem dBits_withBuf (hfit : b.offset.toNat + b.widthC.toNat + b.widthD.toNat ≤ b.blen.toNat) : (b.withBuf x).dBits = b.dBits :=
  slice_bufString_congr h _ hfit

theorem evalPartDec_withBuf : evalPartDec (b.withBuf x) = (evalPartDec b).map (·.withBuf x) := by
  rw [evalPartDec_eq, evalPartDec_eq, map_check, map_check]
  refine check_congr fun _ => check_congr fun hfit => ?_
  rw [cBits_withBuf h (Nat.not_lt.mp hfit), dBits_withBuf h (Nat.not_lt.mp hfit)]
  rfl

theorem evalSpartDec_withBuf : evalSpartDec (b.withBuf x) = (evalSpartDec b).map (·.withBuf x) := by
  rw [evalSpartDec_eq, evalSpartDec_eq, map_check, map_check]
  refine check_congr fun _ => check_congr fun hfit => ?_
  rw [cBits_withBuf h (Nat.not_lt.mp hfit), dBits_withBuf h (Nat.not_lt.mp hfit)]
  cases sdec b.dBits .d <;> rfl

end

/-- Settles O24: the input string and the two fields are slices that end at BLEN or before. -/
theorem decodersIgnoreBitsPastBlen : Obligations.DecodersIgnoreBitsPastBlen := by
  intro i s t x hi h
  refine exec_map (keptByReport_withBuf x) ?_
  simp only [List.mem_cons, List.not_mem_nil, or_false] at hi
  obtain rfl | rfl | rfl | rfl := hi
  · exact evalIntDec_withBuf h
  · exact evalStrDec_withBuf h
  · exact evalPartDec_withBuf h
  · exact evalSpartDec_withBuf h

/-! ## The characters of CBUF (10_state.md R37, 42_partition.md R162) -/

/-- The block with `x` in CBUF. -/
def Block.withCbuf (b : Block) (x : Vector Byte 36) : Block := { b with cbuf := x }

theorem keptByReport_withCbuf (x : Vector Byte 36) : KeptByReport (·.withCbuf x) := ⟨fun _ => rfl, fun _ _ => rfl⟩

section
variable {b : Block} {x : Vector Byte 36}

theorem inputText_withCbuf (h : ∀ j : Fin 36, j.val < b.clen.toNat → x[j] = b.cbuf[j]) :
    (b.withCbuf x).inputText = b.inputText := by
  apply List.ext_getElem
  · simp [Block.inputText, Block.withCbuf]
  · intro j hj _
    simp only [Block.inputText, Block.withCbuf, List.length_take, Vector.length_toList] at hj
    simpa [Block.inputText, Block.withCbuf] using h ⟨j, by omega⟩ (by dsimp only; omega)

theorem evalStrEnc_withCbuf (h : (b.withCbuf x).inputText = b.inputText) :
    evalStrEnc (b.withCbuf x) = (evalStrEnc b).map (·.withCbuf x) := by
  simp only [evalStrEnc, h, map_check]
  simp only [Block.withCbuf]
  cases encodeText b.inputText b.widthC.toNat .c <;> rfl

theorem evalStrUrlenc_withCbuf (h : (b.withCbuf x).inputText = b.inputText) :
    evalStrUrlenc (b.withCbuf x) = (evalStrUrlenc b).map (·.withCbuf x) := by
  simp only [evalStrUrlenc, h, map_check]
  cases firstBadChar b.inputText <;> rfl

/-- SPART_ENC reads no more of CBUF than its text field does. -/
theorem evalSpartEnc_withCbuf (h : encodeTextField b.pctl.ddig (b.withCbuf x).inputText b.widthD.toNat .d =
    encodeTextField b.pctl.ddig b.inputText b.widthD.toNat .d) :
    evalSpartEnc (b.withCbuf x) = (evalSpartEnc b).map (·.withCbuf x) := by
  have hfield : encodeTextField (b.withCbuf x).pctl.ddig (b.withCbuf x).inputText (b.withCbuf x).widthD.toNat .d = _ := h
  simp only [evalSpartEnc, hfield, map_check]
  simp only [Block.withCbuf]
  cases encodeIntField b.pctl.cdig b.vneg.negC b.valC.toNat b.widthC.toNat .c with
  | error e => rfl
  | ok c => cases encodeTextField b.pctl.ddig b.inputText b.widthD.toNat .d <;> rfl

end

/-- Settles O25: a text is read as the input text, the first CLEN characters of CBUF. -/
theorem encodersIgnoreCharactersPastClen : Obligations.EncodersIgnoreCharactersPastClen := by
  intro i s t x hi h
  have htext := inputText_withCbuf h
  refine exec_map (keptByReport_withCbuf x) ?_
  simp only [List.mem_cons, List.not_mem_nil, or_false] at hi
  obtain rfl | rfl | rfl := hi
  · exact evalStrEnc_withCbuf htext
  · exact evalStrUrlenc_withCbuf htext
  · exact evalSpartEnc_withCbuf (by rw [htext])

/-! ## The operands of a forced field (42_partition.md R162) -/

/-- The block with other operands of the c field. -/
def Block.withC (b : Block) (v : BitVec 256) (n : Bool) : Block := { b with valC := v, vneg := { b.vneg with negC := n } }

/-- The block with other operands of the integer d field. -/
def Block.withD (b : Block) (v : BitVec 256) (n : Bool) : Block := { b with valD := v, vneg := { b.vneg with negD := n } }

theorem keptByReport_withC (v : BitVec 256) (n : Bool) : KeptByReport (·.withC v n) := ⟨fun _ => rfl, fun _ _ => rfl⟩

theorem keptByReport_withD (v : BitVec 256) (n : Bool) : KeptByReport (·.withD v n) := ⟨fun _ => rfl, fun _ _ => rfl⟩

theorem encodeIntField_forced (neg : Bool) (v w : Nat) (f : ErrField) : encodeIntField 0 neg v w f = .ok (enc 0 w) := if_pos rfl

theorem encodeTextField_forced (t : Text) (w : Nat) (f : ErrField) : encodeTextField 0 t w f = .ok (senc [] w) := if_pos rfl

section
variable {b : Block} (v : BitVec 256) (n : Bool)

theorem evalPartEnc_withC (h : b.pctl.cdig = 0) : evalPartEnc (b.withC v n) = (evalPartEnc b).map (·.withC v n) := by
  simp only [evalPartEnc, Block.withC, h, encodeIntField_forced, map_check]
  cases encodeIntField b.pctl.ddig b.vneg.negD b.valD.toNat b.widthD.toNat .d <;> rfl

theorem evalSpartEnc_withC (h : b.pctl.cdig = 0) : evalSpartEnc (b.withC v n) = (evalSpartEnc b).map (·.withC v n) := by
  have htext : (b.withC v n).inputText = b.inputText := rfl
  simp only [evalSpartEnc, htext, map_check]
  simp only [Block.withC, h, encodeIntField_forced]
  cases encodeTextField b.pctl.ddig b.inputText b.widthD.toNat .d <;> rfl

theorem evalPartEnc_withD (h : b.pctl.ddig = 0) : evalPartEnc (b.withD v n) = (evalPartEnc b).map (·.withD v n) := by
  simp only [evalPartEnc, Block.withD, h, encodeIntField_forced, map_check]
  cases encodeIntField b.pctl.cdig b.vneg.negC b.valC.toNat b.widthC.toNat .c <;> rfl

end

/-- Settles O26: a field of digit count 0 is encoded before its operands are looked at (`encodeIntField_forced`,
`encodeTextField_forced`). -/
theorem forcedFieldsIgnoreTheirOperands : Obligations.ForcedFieldsIgnoreTheirOperands := by
  refine ⟨fun i s t v n hi hc => exec_map (keptByReport_withC v n) ?_,
    fun s t v n hd => exec_map (keptByReport_withD v n) (evalPartEnc_withD v n hd),
    fun s t x hd => exec_map (keptByReport_withCbuf x) (evalSpartEnc_withCbuf ?_)⟩
  · simp only [List.mem_cons, List.not_mem_nil, or_false] at hi
    obtain rfl | rfl := hi
    · exact evalPartEnc_withC v n hc
    · exact evalSpartEnc_withC v n hc
  · rw [hd, encodeTextField_forced, encodeTextField_forced]

/-! ## VAL_D and NEG_D in the string variant (42_partition.md R170) -/

section
variable {i : Instr} (hi : i ∈ [Instr.spartEnc, .spartDec])
include hi

theorem evalOf_withD_of_stringVariant (b : Block) (v : BitVec 256) (n : Bool) :
    evalOf i (b.withD v n) = (evalOf i b).map (·.withD v n) := by
  simp only [List.mem_cons, List.not_mem_nil, or_false] at hi
  obtain rfl | rfl := hi
  · exact evalOf_map_of_agreeOnReads (f := (·.withD v n)) ⟨rfl, rfl, rfl, rfl, rfl, rfl, rfl⟩ fun _ => rfl
  · exact evalOf_map_of_agreeOnReads (f := (·.withD v n)) ⟨rfl, rfl, rfl, rfl, rfl⟩ fun _ => rfl

theorem complete_keeps_d_of_stringVariant (b : Block) :
    (b.complete (evalOf i b)).valD = b.valD ∧ (b.complete (evalOf i b)).vneg.negD = b.vneg.negD := by
  simp only [List.mem_cons, List.not_mem_nil, or_false] at hi
  obtain ⟨e, he⟩ | ⟨r, hr⟩ := complete_cases i b
  · rw [he]; exact ⟨rfl, rfl⟩
  · rw [hr]
    obtain rfl | rfl := hi <;> exact ⟨rfl, rfl⟩

end

/-- Settles O27: VAL_D and NEG_D are in neither column of the two commands. -/
theorem stringVariantLeavesValDAlone : Obligations.StringVariantLeavesValDAlone := by
  intro i s t v n hi h
  have hmap := exec_map (keptByReport_withD v n) (evalOf_withD_of_stringVariant hi s.block v n) h
  rw [exec_eq_next, Host.Outcome.next.injEq] at h
  obtain ⟨hval, hneg⟩ := complete_keeps_d_of_stringVariant hi s.block
  refine ⟨?_, ?_, hmap⟩
  · rw [← h]; exact hval
  · rw [← h]; exact hneg

/-! ## The URI form (41_string.md R137, R138) -/

theorem escapeChar_of_reserved {ch : Byte} (h : ch.toNat ∈ reservedCodes) :
    escapeChar ch = [0x25, hexDigit (ch.toNat / 16), hexDigit (ch.toNat % 16)] :=
  if_pos (List.contains_iff_mem.mpr h)

theorem hexDigit_injective : ∀ d < 16, ∀ d' < 16, hexDigit d = hexDigit d' → d = d' := by decide

/-- The escapes can be told apart at the head of a text: an escape starts with `%`, which stands for no character by itself, and its two
digits give the character. -/
theorem escapeChar_append_inj {c d : Byte} {x y : Text} (h : escapeChar c ++ x = escapeChar d ++ y) : c = d ∧ x = y := by
  have hpercent {ch : Byte} (hch : ch.toNat ∉ reservedCodes) : (0x25 : Byte) ≠ ch := fun he => hch (he ▸ by decide)
  by_cases hc : c.toNat ∈ reservedCodes <;> by_cases hd : d.toNat ∈ reservedCodes
  · rw [escapeChar_of_reserved hc, escapeChar_of_reserved hd] at h
    simp only [List.cons_append, List.nil_append, List.cons.injEq, true_and] at h
    obtain ⟨hhigh, hlow, hrest⟩ := h
    have := hexDigit_injective _ (by omega) _ (by omega) hhigh
    have := hexDigit_injective _ (by omega) _ (by omega) hlow
    exact ⟨BitVec.eq_of_toNat_eq (by omega), hrest⟩
  · rw [escapeChar_of_reserved hc, escapeChar_of_not_reserved hd] at h
    exact absurd (List.cons.inj h).1 (hpercent hd)
  · rw [escapeChar_of_not_reserved hc, escapeChar_of_reserved hd] at h
    exact absurd (List.cons.inj h).1.symm (hpercent hc)
  · rw [escapeChar_of_not_reserved hc, escapeChar_of_not_reserved hd] at h
    exact List.cons.inj h

theorem escapeChar_ne_nil (ch : Byte) : escapeChar ch ≠ [] := by
  intro h
  have hlen := escapeChar_length ch
  rw [h] at hlen
  split_ifs at hlen

/-- The URI form determines the text. -/
theorem uenc_injective (t u : Text) (h : uenc t = uenc u) : t = u := by
  induction t generalizing u with
  | nil =>
    cases u with
    | nil => rfl
    | cons d u => exact absurd h.symm (List.append_ne_nil_of_left_ne_nil (escapeChar_ne_nil d) _)
  | cons c t ih =>
    cases u with
    | nil => exact absurd h (List.append_ne_nil_of_left_ne_nil (escapeChar_ne_nil c) _)
    | cons d u =>
      obtain ⟨rfl, hrest⟩ := escapeChar_append_inj h
      rw [ih u hrest]

/-- Settles O31: the URI form determines every text, over the alphabet or not. -/
theorem uriFormIsUnambiguous : Obligations.UriFormIsUnambiguous := fun t u _ _ => uenc_injective t u

end Sys2Proof.Machine
end

section
/-! SUPPORT. Completions with success (10_state.md R45, R46): what every success leaves, and for each command the operands on which its
checks let it pass. -/

namespace Sys2Proof.Machine

/-- The command takes `s` to `t` and reports success: DONE is 1, ERR, ERRCODE and ERRINFO are 0, no command is pending, and nothing
outside the "writes" column has changed. -/
def SucceedsWith (i : Instr) (s t : State) : Prop :=
  exec i s = .next t ∧ keepsUnwritten i t.block s.block ∧ t = { s with block := t.block } ∧
    t.block.status = { busy := false, done := true, err := false, errcode := 0, coll := s.block.status.coll } ∧
    t.block.errinfo = { sub := 0, field := 0, index := 0 } ∧ t.block.pending = none

theorem succeedsWith_of_exec {i : Instr} {s : State} {b : Block} (h : exec i s = .next { s with block := b.succeeded }) :
    SucceedsWith i s { s with block := b.succeeded } := by
  have hblock : s.block.complete (evalOf i s.block) = b.succeeded := by
    rw [exec_eq_next, Host.Outcome.next.injEq] at h
    exact congrArg State.block h
  have hkeeps := complete_keepsUnwritten i s.block
  rw [hblock] at hkeeps
  obtain ⟨-, -, hcoll, -⟩ := statusFlagsOfEveryCommand.1 i s _ h
  refine ⟨h, hkeeps, rfl, ?_, rfl, rfl⟩
  rw [← hcoll]
  rfl

/-! ## The encode commands -/

/-- An integer field that is forced or fits passes its two checks (42_partition.md R161, R162). -/
theorem forced_fits {digits : BitVec 5} {neg : Bool} {v w : Nat} (h : digits = 0 ∨ neg = false ∧ v < 2 ^ w) :
    ¬(digits ≠ 0 ∧ neg = true) ∧ ¬2 ^ w ≤ (if digits = 0 then 0 else v) := by
  obtain hforced | ⟨hneg, hv⟩ := h
  · exact ⟨fun hbad => hbad.1 hforced, by rw [if_pos hforced]; exact Nat.not_le.mpr (Nat.two_pow_pos w)⟩
  · exact ⟨fun hbad => Bool.false_ne_true (hneg.symm.trans hbad.2), Nat.not_le.mpr ((forced_le digits v).trans_lt hv)⟩

/-- A text field that is forced or fits passes its two checks (42_partition.md R162, R171). -/
theorem dText_fits {b : Block} (hm : b.clen.toNat ≤ 36)
    (h : b.pctl.ddig = 0 ∨ (b.clen.toNat ≤ 36 ∧ ∀ i < b.clen.toNat, inAlphabet (b.charAt i) = true) ∧
      7 * b.clen.toNat ≤ b.widthD.toNat) :
    firstBadChar b.dText = none ∧ 7 * b.dText.length ≤ b.widthD.toNat := by
  obtain hforced | ⟨⟨-, ha⟩, hlen⟩ := h
  · rw [dText_eq, if_pos hforced]
    exact ⟨rfl, Nat.zero_le _⟩
  · have := dChars_le b
    exact ⟨firstBadChar_dText_eq_none hm ha, by rw [dText_length hm]; omega⟩

section
variable (s : State)

theorem exec_partEnc_of_forced_or_fits (hw : 3 + s.block.widthC.toNat + s.block.widthD.toNat ≤ 256)
    (hc : s.block.pctl.cdig = 0 ∨ s.block.vneg.negC = false ∧ s.block.valC.toNat < 2 ^ s.block.widthC.toNat)
    (hd : s.block.pctl.ddig = 0 ∨ s.block.vneg.negD = false ∧ s.block.valD.toNat < 2 ^ s.block.widthD.toNat) :
    exec .partEnc s = .next { s with block := s.block.encoded (enc s.block.dValue s.block.widthD.toNat) } := by
  obtain ⟨hnegC, hvc⟩ := forced_fits hc
  obtain ⟨hnegD, hvd⟩ := forced_fits hd
  rw [← Block.cValue] at hvc
  rw [← Block.dValue] at hvd
  exact exec_of_evalOf_ok (by
    rw [evalOf, evalPartEnc_eq, if_neg (Nat.not_lt.mpr hw), if_neg hnegC, if_neg hvc, if_neg hnegD, if_neg hvd])

theorem exec_spartEnc_of_forced_or_fits (hw : 3 + s.block.widthC.toNat + s.block.widthD.toNat ≤ 256)
    (hc : s.block.pctl.cdig = 0 ∨ s.block.vneg.negC = false ∧ s.block.valC.toNat < 2 ^ s.block.widthC.toNat)
    (hm : s.block.clen.toNat ≤ 36) (hbad : firstBadChar s.block.dText = none)
    (hlen : 7 * s.block.dText.length ≤ s.block.widthD.toNat) :
    exec .spartEnc s = .next { s with block := s.block.encoded (senc s.block.dText s.block.widthD.toNat) } := by
  obtain ⟨hnegC, hvc⟩ := forced_fits hc
  rw [← Block.cValue] at hvc
  exact exec_of_evalOf_ok (by
    rw [evalOf, evalSpartEnc_eq, if_neg (Nat.not_lt.mpr hw), if_neg (Nat.not_lt.mpr hm), if_neg hnegC, if_neg hvc,
      encodeText_of_fits hbad hlen]
    rfl)

end

/-- BLEN after an encode of WIDTH_C bits. -/
theorem ofNat_widthC_toNat (b : Block) : BitVec.ofNat 9 b.widthC.toNat = b.widthC := by
  rw [BitVec.ofNat_toNat, BitVec.setWidth_eq]

/-- ULEN after STR_URLENC: each character of the text gives one to three. -/
theorem commitUri_ulen_bounds (b : Block) :
    b.inputText.length ≤ (b.commitUri (uenc b.inputText)).ulen.toNat ∧
      (b.commitUri (uenc b.inputText)).ulen.toNat ≤ 3 * b.inputText.length := by
  have hmax := uenc_inputText_length_le b
  have hulen : (b.commitUri (uenc b.inputText)).ulen.toNat = (uenc b.inputText).length := Nat.mod_eq_of_lt (by omega)
  rw [hulen]
  exact ⟨by rw [uenc_length]; exact Nat.le_add_right _ _, uenc_length_le _⟩

/-- Settles O14: each command passes its checks, and BLEN or ULEN is the length it committed. -/
theorem encodersSucceedWhenOperandsFit : Obligations.EncodersSucceedWhenOperandsFit := by
  intro s
  refine ⟨fun hw hneg hv => ?_, fun hw ⟨hm, ha⟩ hlen => ?_, fun ⟨hm, ha⟩ => ?_, fun hw hc hd => ?_, fun hw hc hm hd => ?_⟩
  · exact ⟨_, succeedsWith_of_exec (exec_intEnc_of_fits s hw hneg hv), ofNat_widthC_toNat s.block⟩
  · have hbad := firstBadChar_inputText_eq_none hm ha
    exact ⟨_, succeedsWith_of_exec (exec_strEnc_of_fits s hw hm hbad hlen), ofNat_widthC_toNat s.block⟩
  · have hbad := firstBadChar_inputText_eq_none hm ha
    have hbounds := commitUri_ulen_bounds s.block
    rw [inputText_length s.block hm] at hbounds
    exact ⟨_, succeedsWith_of_exec (exec_strUrlenc_of_inAlphabet s hm hbad), hbounds⟩
  · exact ⟨_, succeedsWith_of_exec (exec_partEnc_of_forced_or_fits s hw hc hd), encoded_blen hw⟩
  · obtain ⟨hbad, hlen⟩ := dText_fits hm hd
    exact ⟨_, succeedsWith_of_exec (exec_spartEnc_of_forced_or_fits s hw hc hm hbad hlen), encoded_blen hw⟩

/-! ## The decode commands -/

/-- A value of at most 256 bits is kept by a value register. -/
theorem ofNat_val_toNat_lt (bits : BitString) : (BitVec.ofNat 256 (val bits)).toNat < 2 ^ bits.length := by
  rw [BitVec.toNat_ofNat]
  exact (Nat.mod_le _ _).trans_lt (val_lt bits)

theorem inAlphabet_ne_zero {x : Nat} (h : inAlphabet x = true) : x ≠ 0 := by
  have := (inAlphabet_range x h).1
  omega

/-- A slice of BUF whose first `p` groups are full and in the alphabet, and which ends there or goes on with a zero group, spells the text
of those groups (41_string.md R135). -/
theorem sdec_of_goodGroups (f : ErrField) (buf : BitVec 256) {start n p : Nat} (hfit : start + n ≤ 256) (hp : 7 * p ≤ n)
    (hgood : ∀ k < p, inAlphabet (groupValue buf start n k) = true) (hend : 7 * p = n ∨ groupValue buf start n p = 0) :
    sdec (slice (bufString buf) start (start + n)) f =
      .ok ((List.range p).map fun j => BitVec.ofNat 8 (groupValue buf start n j)) := by
  obtain ⟨q, hq, hres⟩ := sdec_slice f buf start n hfit
  have hqp : ¬ p < q := fun hlt => by
    have ⟨hfull, halpha⟩ := hq p hlt
    have := inAlphabet_ne_zero halpha
    omega
  obtain hlt | rfl : q < p ∨ q = p := by omega
  · have halpha := hgood q hlt
    have hnonzero := inAlphabet_ne_zero halpha
    rw [if_neg (by omega), if_neg (by omega)] at hres
    exact absurd (halpha.symm.trans hres.1) Bool.false_ne_true.symm
  · rwa [if_pos (by omega)] at hres

theorem cBits_length {b : Block} (h : b.offset.toNat + b.widthC.toNat ≤ 256) : b.cBits.length = b.widthC.toNat := by
  rw [Block.cBits, slice_length _ _ _ (by rwa [bufString_length]), Nat.add_sub_cancel_left]

theorem dBits_length {b : Block} (h : b.offset.toNat + b.widthC.toNat + b.widthD.toNat ≤ 256) :
    b.dBits.length = b.widthD.toNat := by
  rw [Block.dBits, slice_length _ _ _ (by rwa [bufString_length]), Nat.add_sub_cancel_left]

/-- CLEN after a decode that committed the characters of `p` groups. -/
theorem ofNat_groups_length (char : Nat → Byte) {p : Nat} (hp : p < 256) :
    (BitVec.ofNat 8 ((List.range p).map char).length).toNat = p := by
  rw [List.length_map, List.length_range]
  exact Nat.mod_eq_of_lt hp

/-- Settles O15: each command passes its checks; a value is below the power of its field's length, and CLEN is the number of groups that
`sdec_of_goodGroups` reads. -/
theorem decodersSucceedOnGoodInput : Obligations.DecodersSucceedOnGoodInput := by
  intro s
  dsimp only
  intro hn
  refine ⟨?_, fun p ⟨hp, hgood, hend⟩ => ?_, fun hfit => ?_, fun p hfit ⟨hp, hgood, hend⟩ => ?_⟩
  · have hlt := ofNat_val_toNat_lt s.block.inputBits
    rw [inputBits_length _ hn] at hlt
    exact ⟨_, succeedsWith_of_exec (exec_intDec_of_blen_le s hn), rfl, hlt⟩
  · have htext := sdec_of_goodGroups .c s.block.buf (by omega) hp hgood hend
    rw [Nat.zero_add, ← Block.inputBits] at htext
    exact ⟨_, succeedsWith_of_exec (exec_strDec_of_sdec_ok s hn htext), ofNat_groups_length _ (by omega)⟩
  · have hc := ofNat_val_toNat_lt s.block.cBits
    have hd := ofNat_val_toNat_lt s.block.dBits
    rw [cBits_length (by omega)] at hc
    rw [dBits_length (by omega)] at hd
    exact ⟨_, succeedsWith_of_exec (exec_partDec_of_fits s hn hfit), hc, hd⟩
  · have htext := sdec_of_goodGroups .d s.block.buf (by omega) hp hgood hend
    rw [← Block.dBits] at htext
    have hc := ofNat_val_toNat_lt s.block.cBits
    rw [cBits_length (by omega)] at hc
    exact ⟨_, succeedsWith_of_exec (exec_spartDec_of_sdec_ok s hn hfit htext), ofNat_groups_length _ (by omega), hc⟩

end Sys2Proof.Machine
end

section
/-! SUPPORT. The host's load pseudo-instructions (30_encoding.md R100): a line of stores on an idle block, and what the words of a register
leave in it once all of them are stored. -/

namespace Sys2Proof.Machine

/-! ## A run of stores -/

/-- A register that an accepted write stores: writable, and neither CMD nor STATUS (20_memory.md R68). -/
def RegWord.storable (r : RegWord) : Bool := !r.readOnly && r != .cmd && r != .status

/-- The block after these words are stored, in this order. -/
def storeAll (b : Block) (ws : List (RegWord × Word)) : Block := ws.foldl (fun b w => storeWord b w.2 w.1) b

@[simp] theorem otherHost_afterAccess (s : State) (agent : Nat) (rest : List Input) (r : Response) (b : Block) :
    (s.afterAccess agent rest r b).otherHost agent = false := by
  simp [State.afterAccess, State.otherHost]

/-- The host's writes of these words, one step each, while the block is idle. -/
theorem run_stores {agent : Nat} {rest : List Input} (ws : List (RegWord × Word)) (hws : ∀ w ∈ ws, w.1.storable = true) (s : State)
    (hp : s.block.pending = none) (ho : s.otherHost agent = false)
    (hi : s.inputs = ws.map (fun w => .host agent (writeOp w.1 w.2)) ++ rest) :
    ∃ t, Host.Core.run core ws.length s = .next t ∧ t.block = storeAll s.block ws ∧ t.inputs = rest ∧
      t.responses = s.responses ++ List.replicate ws.length .written := by
  induction ws generalizing s with
  | nil => exact ⟨s, rfl, rfl, hi, (List.append_nil _).symm⟩
  | cons w ws ih =>
    obtain ⟨⟨hro, hc⟩, hr⟩ : (w.1.readOnly = false ∧ w.1 ≠ .cmd) ∧ w.1 ≠ .status := by
      simpa [RegWord.storable] using hws w List.mem_cons_self
    have hstep : core.step s = _ := step_store ⟨hi, ho, .inl hp⟩ (admittedTransfer_write_of_writable hro w.2) hr hc hp
    obtain ⟨t, hrun, hblock, hinputs, hresponses⟩ := ih (fun w' hw' => hws w' (List.mem_cons_of_mem _ hw')) _
      ((storeWord_pending s.block w.2 w.1).trans hp) (otherHost_afterAccess s agent _ .written _) rfl
    refine ⟨t, (run_next core _ _ _ hstep).trans hrun, hblock, hinputs, ?_⟩
    rw [hresponses, List.length_cons, List.replicate_succ]
    exact List.append_assoc _ [_] _

/-- The run of a line that expands to stores. -/
theorem run_line {s : State} {agent n : Nat} {line : HostLine} {rest : List Input} {ws : List (RegWord × Word)} {b : Block}
    (hline : line.expand = ws.map fun w => writeOp w.1 w.2) (hws : ∀ w ∈ ws, w.1.storable = true) (hn : ws.length = n)
    (hb : storeAll s.block ws = b) (hp : s.block.pending = none) (ho : s.otherHost agent = false)
    (hi : s.inputs = hostInputs agent [line] ++ rest) :
    ∃ t, Host.Core.run core n s = .next t ∧ t.block = b ∧ t.inputs = rest ∧
      t.responses = s.responses ++ List.replicate n .written := by
  subst hn hb
  refine run_stores ws hws s hp ho ?_
  rw [hi, hostInputs, List.flatMap_singleton, hline, List.map_map]
  rfl

/-! ## All the words of a register -/

/-- The words of one register stored one after the other, `put` giving the register its value and `upd` storing one word in it. -/
theorem storeAll_words {κ α : Type} {reg : κ → RegWord} {put : Block → α → Block} {upd : α → κ → Word → α}
    (hstore : ∀ b x k v, storeWord (put b x) v (reg k) = put b (upd x k v)) (word : κ → Word) (b : Block) (ks : List κ) (x : α) :
    storeAll (put b x) (ks.map fun k => (reg k, word k)) = put b (ks.foldl (fun x k => upd x k (word k)) x) := by
  induction ks generalizing x with
  | nil => rfl
  | cons k ks ih =>
    rw [List.map_cons, storeAll, List.foldl_cons, hstore]
    exact ih (upd x k (word k))

/-- A bit that was right, or that one of the words written covers, is right after all of them. -/
theorem getLsbD_foldl_spliceWord (target : BitVec 256) (lo : Fin 8 → Nat) (ks : List (Fin 8)) (x : BitVec 256) {i : Nat} (hi : i < 256)
    (h : x.getLsbD i = target.getLsbD i ∨ ∃ k ∈ ks, lo k ≤ i ∧ i < lo k + 32) :
    (ks.foldl (fun x k => spliceWord x (lo k) (target.extractLsb' (lo k) 32)) x).getLsbD i = target.getLsbD i := by
  induction ks generalizing x with
  | nil => exact h.resolve_right (by simp)
  | cons k ks ih =>
    refine ih _ ?_
    rw [spliceWord_getLsbD _ _ _ _ hi]
    split_ifs with hk
    · left
      rw [BitVec.getLsbD_extractLsb', Nat.add_sub_cancel' hk.1, decide_eq_true (by omega), Bool.true_and]
    · simpa [hk] using h

theorem foldl_setValueWord (target x : BitVec 256) :
    (List.finRange 8).foldl (fun x k => setValueWord x k (valueWord target k)) x = target := by
  apply BitVec.eq_of_getLsbD_eq
  intro i hi
  refine getLsbD_foldl_spliceWord target (fun k => 32 * k.val) _ x hi (.inr ⟨⟨i / 32, by omega⟩, List.mem_finRange _, ?_⟩)
  dsimp only
  omega

theorem foldl_setBufWord (target x : BitVec 256) :
    (List.finRange 8).foldl (fun x k => setBufWord x k (bufWord target k)) x = target := by
  apply BitVec.eq_of_getLsbD_eq
  intro i hi
  refine getLsbD_foldl_spliceWord target (fun k => 224 - 32 * k.val) _ x hi
    (.inr ⟨⟨7 - i / 32, by omega⟩, List.mem_finRange _, ?_⟩)
  dsimp only
  omega

/-- A character that was right, or that one of the words written holds, is right after all of them. -/
theorem getElem_foldl_setTextWord (target : Vector Byte 36) (ks : List (Fin 9)) (x : Vector Byte 36) {j : Nat} (hj : j < 36)
    (h : x[j] = target[j] ∨ ∃ k ∈ ks, j / 4 = k.val) :
    (ks.foldl (fun x k => setTextWord x k (textWord target k.val)) x)[j] = target[j] := by
  induction ks generalizing x with
  | nil => exact h.resolve_right (by simp)
  | cons k ks ih =>
    rw [List.foldl_cons]
    refine ih _ ?_
    rw [setTextWord_getElem _ _ _ _ hj]
    split_ifs with hk
    · left
      rw [← hk, textWord_char target j hj]
    · simpa [hk] using h

theorem foldl_setTextWord (target x : Vector Byte 36) :
    (List.finRange 9).foldl (fun x k => setTextWord x k (textWord target k.val)) x = target :=
  Vector.ext fun j hj => getElem_foldl_setTextWord target _ x hj (.inr ⟨⟨j / 4, by omega⟩, List.mem_finRange _, rfl⟩)

/-! ## The words a line writes -/

theorem ofNat_eq_valueWord {v : Nat} (hv : v < 2 ^ 256) (k : Fin 8) :
    BitVec.ofNat 32 (v / 2 ^ (32 * k.val)) = valueWord (BitVec.ofNat 256 v) k := by
  apply BitVec.eq_of_toNat_eq
  rw [valueWord_toNat, BitVec.toNat_ofNat, BitVec.toNat_ofNat, Nat.mod_eq_of_lt hv]

theorem ofNat_eq_bufWord {bits : BitString} (h : bits.length = 256) (k : Fin 8) :
    BitVec.ofNat 32 (val (slice bits (32 * k.val) (32 * k.val + 32))) = bufWord (bufOfString bits) k := by
  have hword := bufWord_toNat (bufOfString bits) k
  rw [bufString_bufOfString bits h] at hword
  rw [← hword, BitVec.ofNat_toNat, BitVec.setWidth_eq]

/-- The field at bit 0 of a word given as a number. -/
theorem extractLsb'_ofNat (n : Nat) {m : Nat} (h : m ≤ 32) : (BitVec.ofNat 32 n).extractLsb' 0 m = BitVec.ofNat m n := by
  apply BitVec.eq_of_toNat_eq
  rw [BitVec.extractLsb'_toNat, Nat.shiftRight_zero, BitVec.toNat_ofNat, BitVec.toNat_ofNat,
    Nat.mod_mod_of_dvd _ (Nat.pow_dvd_pow 2 h)]

theorem zeroExtend_ofNat {n v : Nat} (hv : v < 2 ^ n) : (BitVec.ofNat n v).zeroExtend 32 = BitVec.ofNat 32 v := by
  apply BitVec.eq_of_toNat_eq
  simp only [BitVec.truncate_eq_setWidth, BitVec.toNat_setWidth, BitVec.toNat_ofNat, Nat.mod_eq_of_lt hv]

/-- The word LDPCTL writes is PCTL with the three fields given. -/
theorem ldpctl_word {pv cdig ddig : Nat} (hpv : pv < 8) (hc : cdig < 32) (hd : ddig < 32) :
    BitVec.ofNat 32 pv ||| BitVec.ofNat 32 cdig <<< 8 ||| BitVec.ofNat 32 ddig <<< 16 =
      Pctl.toWord { pv := BitVec.ofNat 3 pv, cdig := BitVec.ofNat 5 cdig, ddig := BitVec.ofNat 5 ddig } := by
  rw [Pctl.toWord, zeroExtend_ofNat (n := 3) hpv, zeroExtend_ofNat (n := 5) hc, zeroExtend_ofNat (n := 5) hd,
    BitVec.or_comm, BitVec.or_comm (BitVec.ofNat 32 pv), ← BitVec.or_assoc]

/-! ## The four lines -/

theorem storeAll_valC {v : Nat} (hv : v < 2 ^ 256) (b : Block) :
    storeAll b ((List.finRange 8).map fun k => (.valC k, BitVec.ofNat 32 (v / 2 ^ (32 * k.val)))) =
      { b with valC := BitVec.ofNat 256 v } := by
  simp only [ofNat_eq_valueWord hv]
  have h := storeAll_words (reg := RegWord.valC) (put := fun b x => { b with valC := x }) (fun _ _ _ _ => rfl)
    (valueWord (BitVec.ofNat 256 v)) b (List.finRange 8) b.valC
  rwa [foldl_setValueWord] at h

theorem storeAll_valD {v : Nat} (hv : v < 2 ^ 256) (b : Block) :
    storeAll b ((List.finRange 8).map fun k => (.valD k, BitVec.ofNat 32 (v / 2 ^ (32 * k.val)))) =
      { b with valD := BitVec.ofNat 256 v } := by
  simp only [ofNat_eq_valueWord hv]
  have h := storeAll_words (reg := RegWord.valD) (put := fun b x => { b with valD := x }) (fun _ _ _ _ => rfl)
    (valueWord (BitVec.ofNat 256 v)) b (List.finRange 8) b.valD
  rwa [foldl_setValueWord] at h

theorem storeAll_buf {bits : BitString} (hbits : bits.length = 256) (b : Block) :
    storeAll b ((List.finRange 8).map fun k => (.buf k, BitVec.ofNat 32 (val (slice bits (32 * k.val) (32 * k.val + 32))))) =
      { b with buf := bufOfString bits } := by
  simp only [ofNat_eq_bufWord hbits]
  have h := storeAll_words (reg := RegWord.buf) (put := fun b x => { b with buf := x }) (fun _ _ _ _ => rfl)
    (bufWord (bufOfString bits)) b (List.finRange 8) b.buf
  rwa [foldl_setBufWord] at h

theorem storeAll_cbuf (t : Vector Byte 36) (b : Block) :
    storeAll b ((List.finRange 9).map fun k => (.cbuf k, textWord t k.val)) = { b with cbuf := t } := by
  have h := storeAll_words (reg := RegWord.cbuf) (put := fun b x => { b with cbuf := x }) (fun _ _ _ _ => rfl)
    (fun k => textWord t k.val) b (List.finRange 9) b.cbuf
  rwa [foldl_setTextWord] at h

theorem storeAll_blen_cons (b : Block) (n : Nat) (ws : List (RegWord × Word)) :
    storeAll b ((.blen, BitVec.ofNat 32 n) :: ws) = storeAll { b with blen := BitVec.ofNat 9 n } ws := by
  rw [storeAll, List.foldl_cons, storeWord, extractLsb'_ofNat n (by decide), storeAll]

theorem storeAll_clen_cons (b : Block) (n : Nat) (ws : List (RegWord × Word)) :
    storeAll b ((.clen, BitVec.ofNat 32 n) :: ws) = storeAll { b with clen := BitVec.ofNat 8 n } ws := by
  rw [storeAll, List.foldl_cons, storeWord, extractLsb'_ofNat n (by decide), storeAll]

theorem storeWord_pctl_toWord (b : Block) (p : Pctl) : storeWord b p.toWord .pctl = { b with pctl := p } := by
  obtain ⟨hpv, hcdig, hddig⟩ := p.toWord_fields
  rw [storeWord, hpv, hcdig, hddig]

/-- Settles O44: each line expands to stores (`run_line`), and each `storeAll` or `storeWord` lemma says what they leave. -/
theorem loadPseudoInstructionsLoad : Obligations.LoadPseudoInstructionsLoad := by
  intro s agent line rest hwf hp ho hi
  dsimp only
  cases line with
  | wr | rd | issue | wait => trivial
  | ldval reg v =>
    have hv : v < 2 ^ 256 := of_decide_eq_true hwf
    cases reg with
    | c =>
      refine run_line ?_ (List.forall_mem_map.mpr fun _ _ => rfl) rfl (storeAll_valC hv s.block) hp ho hi
      rw [List.map_map]; rfl
    | d =>
      refine run_line ?_ (List.forall_mem_map.mpr fun _ _ => rfl) rfl (storeAll_valD hv s.block) hp ho hi
      rw [List.map_map]; rfl
  | ldbits bits =>
    have hlen : bits.length ≤ 256 := of_decide_eq_true hwf
    have hfull : (bits ++ zeros (256 - bits.length)).length = 256 := by
      rw [List.length_append, zeros_length, Nat.add_sub_cancel' hlen]
    refine run_line ?_ (List.forall_mem_cons.mpr ⟨rfl, List.forall_mem_map.mpr fun _ _ => rfl⟩) rfl
      ((storeAll_blen_cons s.block bits.length _).trans (storeAll_buf hfull _)) hp ho hi
    rw [List.map_cons, List.map_map]; rfl
  | ldtext t =>
    refine run_line ?_ (List.forall_mem_cons.mpr ⟨rfl, List.forall_mem_map.mpr fun _ _ => rfl⟩) rfl
      ((storeAll_clen_cons s.block t.length _).trans (storeAll_cbuf (padText 36 t) _)) hp ho hi
    rw [List.map_cons, List.map_map]; rfl
  | ldpctl pv cdig ddig =>
    simp only [HostLine.wellFormed, Bool.and_eq_true, decide_eq_true_eq] at hwf
    obtain ⟨⟨hpv, hc⟩, hd⟩ := hwf
    have hpctl := storeWord_pctl_toWord s.block ⟨BitVec.ofNat 3 pv, BitVec.ofNat 5 cdig, BitVec.ofNat 5 ddig⟩
    rw [← ldpctl_word hpv hc hd] at hpctl
    exact run_line (ws := [(.pctl, _)]) rfl (List.forall_mem_singleton.mpr rfl) rfl hpctl hp ho hi

end Sys2Proof.Machine
end

section
/-! SUPPORT. The WAIT loop and the end of a run (10_state.md R45, 70_reset_and_hazards.md R250). A run is compared with one in which the
completion waits until WAIT: the completion commutes with all that a host which keeps to the busy window does before it. -/

namespace Sys2Proof.Machine

/-! ## Runs of any length -/

/-- Some run leads from `s` to `t`. -/
def RunsTo (s t : State) : Prop := ∃ k, Host.Core.run core k s = .next t

theorem RunsTo.refl (s : State) : RunsTo s s := ⟨0, rfl⟩

theorem RunsTo.of_step {s t : State} (h : step s = .next t) : RunsTo s t := ⟨1, run_next core 0 s t h⟩

theorem RunsTo.trans {s t u : State} (hst : RunsTo s t) (htu : RunsTo t u) : RunsTo s u :=
  have ⟨k, hk⟩ := hst
  have ⟨l, hl⟩ := htu
  ⟨k + l, (run_add core k l s t hk).trans hl⟩

theorem otherHost_of_hostAgent {s : State} {agent : Nat} (h : s.hostAgent = some agent) : s.otherHost agent = false := by
  rw [State.otherHost, h]
  exact bne_self_eq_false agent

/-! ## The WAIT loop (30_encoding.md R100) -/

section
variable {s : State} {agent : Nat} {rest : List Input} (hi : s.inputs = .host agent .wait :: rest) (ho : s.otherHost agent = false)
include hi ho

/-- One poll of the WAIT loop: the loop is left when BUSY is 0. -/
theorem step_wait (hturn : s.block.pending = none ∨ s.latLeft ≠ 0) :
    step s = .next { s with
      hostAgent := some agent, latLeft := s.latLeft - 1, responses := s.responses ++ [.data (readWord s.block .status)],
      inputs := if s.block.status.busy then s.inputs else rest } := by
  have hbusy : (readWord s.block .status).getLsbD 0 = s.block.status.busy := s.block.status.toWord_fields.1
  rw [step_host s agent .wait rest hi ho hturn, hi, ← hbusy]
  rfl

/-- The polls before the completion: as many as LAT still allows, each returning BUSY = 1. -/
theorem run_polls {w : Word} (hp : s.block.pending = some w) (hbusy : s.block.status.busy = true) :
    ∃ t, Host.Core.run core s.latLeft s = .next t ∧ t.block = s.block ∧ t.inputs = s.inputs ∧ t.latLeft = 0 ∧
      t.otherHost agent = false ∧ t.responses = s.responses ++ List.replicate s.latLeft (.data (readWord s.block .status)) := by
  induction hn : s.latLeft generalizing s with
  | zero => exact ⟨s, rfl, rfl, rfl, hn, ho, (List.append_nil _).symm⟩
  | succ n ih =>
    have hstep : core.step s = _ := step_wait hi ho (.inr (by omega))
    rw [hbusy, if_pos rfl, hn] at hstep
    obtain ⟨t, hrun, hblock, hinputs, hlat, hhost, hresponses⟩ := ih (s := { s with
      hostAgent := some agent, latLeft := n + 1 - 1, responses := s.responses ++ [.data (readWord s.block .status)] })
      hi (otherHost_of_hostAgent rfl) hp hbusy rfl
    refine ⟨t, (run_next core _ _ _ hstep).trans hrun, hblock, hinputs, hlat, hhost, ?_⟩
    rw [hresponses, List.replicate_succ]
    exact List.append_assoc _ [_] _

/-- The whole WAIT loop: the polls, the completion, and the poll that finds it. -/
theorem run_wait {w : Word} (hp : s.block.pending = some w) (hbusy : s.block.status.busy = true) :
    ∃ t polled, Host.Core.run core (s.latLeft + 2) s = .next t ∧ t.inputs = rest ∧ t.block = completedBlock s.block w ∧
      t.otherHost agent = false ∧
      t.responses = s.responses ++ List.replicate s.latLeft (.data (readWord s.block .status)) ++ [.data polled] ∧
      polled.getLsbD 0 = false := by
  obtain ⟨t, hrun, hblock, hinputs, hlat, hhost, hresponses⟩ := run_polls hi ho hp hbusy
  have hcomplete : core.step t = .next { t with block := completedBlock s.block w } := by
    rw [← hblock]
    exact step_engine t w (hblock ▸ hp) (by simp [State.engineTurn, hlat])
  have hpoll : core.step { t with block := completedBlock s.block w } = _ :=
    step_wait (hinputs.trans hi) hhost (.inl (completedBlock_pending _ _))
  rw [completedBlock_busy, if_neg Bool.false_ne_true] at hpoll
  have hfinal := (run_add core _ 2 _ _ hrun).trans ((run_next core 1 _ _ hcomplete).trans (run_next core 0 _ _ hpoll))
  exact ⟨_, _, hfinal, rfl, rfl, otherHost_of_hostAgent rfl, congrArg (· ++ [_]) hresponses,
    (completedBlock s.block w).status.toWord_fields.1.trans (completedBlock_busy _ _)⟩

end

/-- Settles O57, by `run_wait`. -/
theorem waitLoopEnds : Obligations.WaitLoopEnds := by
  intro s w agent rest hp hbusy ho hi
  obtain ⟨t, polled, hrun, hinputs, hblock, -, hresponses, hpolled⟩ := run_wait hi ho hp hbusy
  refine ⟨t, polled, hrun, hinputs, ?_, ?_, hresponses, hpolled⟩
  · rw [engineStep_eq_next, hblock]
  · rw [hblock, completedBlock_pending]

/-! ## The block with its pending command completed -/

/-- The block after the completion of its pending command, if there is one. -/
def Block.settled (b : Block) : Block :=
  match b.pending with
  | some w => completedBlock b w
  | none => b

theorem settled_of_pending {b : Block} {w : Word} (h : b.pending = some w) : b.settled = completedBlock b w := by
  rw [Block.settled, h]

theorem settled_of_idle {b : Block} (h : b.pending = none) : b.settled = b := by
  rw [Block.settled, h]

@[simp] theorem settled_pending (b : Block) : b.settled.pending = none := by
  cases h : b.pending with
  | none => rw [settled_of_idle h, h]
  | some w => rw [settled_of_pending h, completedBlock_pending]

@[simp] theorem settled_coll (b : Block) : b.settled.status.coll = b.status.coll := by
  cases h : b.pending with
  | none => rw [settled_of_idle h]
  | some w => rw [settled_of_pending h, completedBlock_coll]

theorem settled_withColl (b : Block) (c : Bool) : (b.withColl c).settled = b.settled.withColl c := by
  cases h : b.pending with
  | none => rw [settled_of_idle h, settled_of_idle (b := b.withColl c) h]
  | some w => rw [settled_of_pending h, settled_of_pending (b := b.withColl c) h, completedBlock_withColl]

theorem settled_inv {b : Block} (h : b.Inv) : b.settled.Inv := by
  cases hp : b.pending with
  | none => rw [settled_of_idle hp]; exact h
  | some w => rw [settled_of_pending hp]; exact completedBlock_inv h.uriPadded w

/-! ## What an access does to the block -/

/-- The block after an admitted write (20_memory.md R68, R69). -/
def writtenBlock (b : Block) (r : RegWord) (v : Word) : Block :=
  if r = .status then storeWord b v .status
  else if b.pending.isSome then b.dropWrite
  else if r = .cmd then b.issue v
  else storeWord b v r

/-- The block after a host access. -/
def accessedBlock (b : Block) (a : Access) : Block :=
  match admittedTransfer a with
  | some (.write r v) => writtenBlock b r v
  | _ => b

theorem writeReg_block (s : State) (r : RegWord) (v : Word) : (s.writeReg r v).block = writtenBlock s.block r v := by
  unfold State.writeReg writtenBlock
  split_ifs <;> rfl

theorem writeReg_around (s : State) (r : RegWord) (v : Word) :
    (s.writeReg r v).inputs = s.inputs ∧ (s.writeReg r v).hostAgent = s.hostAgent := by
  unfold State.writeReg
  split_ifs <;> exact ⟨rfl, rfl⟩

theorem accessStep_block (s : State) (a : Access) : (accessStep s a).block = accessedBlock s.block a := by
  unfold accessStep accessedBlock
  obtain ⟨ha, hb⟩ | ⟨r, ha, hb⟩ | ⟨r, v, ha, hb⟩ := busAccess_cases s a
  · rw [hb, ha]
  · rw [hb, ha]
  · rw [hb, ha]; exact writeReg_block s r v

theorem accessStep_around (s : State) (a : Access) :
    (accessStep s a).inputs = s.inputs ∧ (accessStep s a).hostAgent = s.hostAgent := by
  unfold accessStep
  obtain ⟨-, hb⟩ | ⟨r, -, hb⟩ | ⟨r, v, -, hb⟩ := busAccess_cases s a
  · rw [hb]; exact ⟨rfl, rfl⟩
  · rw [hb]; exact ⟨rfl, rfl⟩
  · rw [hb]; exact writeReg_around s r v

theorem writtenBlock_inv {b : Block} (h : b.Inv) (r : RegWord) (v : Word) : (writtenBlock b r v).Inv := by
  unfold writtenBlock
  split_ifs with hr
  · exact withColl_inv h _
  · exact withColl_inv h true
  · exact issue_inv h.uriPadded v
  · exact storeWord_inv h v hr

theorem accessedBlock_inv {b : Block} (h : b.Inv) (a : Access) : (accessedBlock b a).Inv := by
  unfold accessedBlock
  split
  · exact writtenBlock_inv h _ _
  · exact h

/-- An idle block stays idle at an access that issues nothing (10_state.md R24). -/
theorem accessedBlock_idle {b : Block} {a : Access} (hp : b.pending = none) (ha : a.issues = false) :
    (accessedBlock b a).pending = none := by
  unfold accessedBlock
  split
  · rename_i r v htransfer
    have hcmd : r ≠ .cmd := by
      rintro rfl
      rw [Access.issues, htransfer] at ha
      cases ha
    unfold writtenBlock
    rw [hp, Option.isSome_none, if_neg Bool.false_ne_true, if_neg hcmd]
    split_ifs <;> rw [storeWord_pending, hp]
  · exact hp

/-- An access that keeps to the busy window gives COLL a new value and does nothing else to the block (70_reset_and_hazards.md R240). -/
theorem accessedBlock_of_not_writesOther {a : Access} (ha : a.writesOther = false) :
    ∃ f : Bool → Bool, ∀ b, accessedBlock b a = b.withColl (f b.status.coll) := by
  unfold accessedBlock
  split
  · rename_i r v htransfer
    rw [Access.writesOther, htransfer] at ha
    obtain rfl : r = .status := by simpa using ha
    exact ⟨(· && !v.getLsbD 8), fun _ => rfl⟩
  · exact ⟨id, fun _ => rfl⟩

/-- Such an access does the same before and after the completion. -/
theorem accessedBlock_settled {a : Access} (ha : a.writesOther = false) (b : Block) :
    accessedBlock b.settled a = (accessedBlock b a).settled := by
  obtain ⟨f, hf⟩ := accessedBlock_of_not_writesOther ha
  rw [hf, hf, settled_withColl, settled_coll]

/-! ## The end of a run, whatever LAT is -/

/-- The block at the end of these inputs when each completion comes only at the WAIT, the reset or the end after its issue. -/
def endBlock (b : Block) : List Input → Block
  | [] => b.settled
  | .reset _ :: rest => endBlock Block.reset rest
  | .host _ .wait :: rest => endBlock b.settled rest
  | .host _ (.access a) :: rest => endBlock (accessedBlock b a) rest

/-- The machine has the block `b`, or has completed the command that is pending in `b` already; `b` meets the invariant, and the host is
the given agent. -/
structure Tracks (agent : Nat) (s : State) (b : Block) : Prop where
  host : s.otherHost agent = false
  inv : b.Inv
  block : s.block = b ∨ s.block = b.settled

section
variable {agent : Nat} {s : State} {b : Block} {rest : List Input}

/-- A block with a command pending is not completed yet. -/
theorem Tracks.eq_of_pending (h : Tracks agent s b) {w : Word} (hp : s.block.pending = some w) : s.block = b :=
  h.block.resolve_right fun hb => nomatch (settled_pending b).symm.trans ((congrArg Block.pending hb).symm.trans hp)

/-- A completed block, or one with nothing to complete. -/
theorem Tracks.eq_settled_of_idle (h : Tracks agent s b) (hp : s.block.pending = none) : s.block = b.settled := by
  obtain hb | hb := h.block
  · rw [← hb, settled_of_idle hp]
  · exact hb

theorem Tracks.eq_of_idle (h : Tracks agent s b) (hp : b.pending = none) : s.block = b := by
  have hblock := h.block
  rwa [settled_of_idle hp, or_self] at hblock

/-- The completion, on the engine's turn. -/
theorem Tracks.complete (h : Tracks agent s b) {w : Word} (hp : s.block.pending = some w) (hturn : s.engineTurn = true) :
    ∃ t, RunsTo s t ∧ t.inputs = s.inputs ∧ t.block = b.settled ∧ t.otherHost agent = false := by
  refine ⟨_, .of_step (step_engine s w hp hturn), rfl, ?_, h.host⟩
  obtain rfl := h.eq_of_pending hp
  exact (settled_of_pending hp).symm

/-- The completion comes first when LAT allows no other access; then it is the host's or the platform's turn. -/
theorem Tracks.reach_turn (h : Tracks agent s b) :
    ∃ t, RunsTo s t ∧ t.inputs = s.inputs ∧ (t.block.pending = none ∨ t.latLeft ≠ 0) ∧ Tracks agent t b := by
  cases hp : s.block.pending with
  | none => exact ⟨s, .refl s, rfl, .inl hp, h⟩
  | some w =>
    by_cases hlat : s.latLeft = 0
    · obtain ⟨t, hrun, hinputs, hblock, hhost⟩ := h.complete hp (by simp [State.engineTurn, hlat])
      exact ⟨t, hrun, hinputs, .inl (by rw [hblock, settled_pending]), hhost, h.inv, .inr hblock⟩
    · exact ⟨s, .refl s, rfl, .inr hlat, h⟩

theorem Tracks.run_reset (h : Tracks agent s b) {cut : Option Access} (hi : s.inputs = .reset cut :: rest) :
    ∃ t, RunsTo s t ∧ t.inputs = rest ∧ Tracks agent t Block.reset := by
  obtain ⟨t, hrun, hinputs, hturn, ht⟩ := h.reach_turn
  rw [hi] at hinputs
  have hstep : step t = .next (({ t with inputs := rest } : State).applyReset cut) := by
    rw [step_turn t _ _ hinputs hturn, inputStep, hinputs]
  refine ⟨_, hrun.trans (.of_step hstep), ?_, ?_, reset_inv, ?_⟩
  · cases cut <;> rfl
  · cases cut <;> exact ht.host
  · cases cut <;> exact .inl rfl

theorem Tracks.run_wait (h : Tracks agent s b) (hi : s.inputs = .host agent .wait :: rest) :
    ∃ t, RunsTo s t ∧ t.inputs = rest ∧ Tracks agent t b.settled := by
  cases hp : s.block.pending with
  | none =>
    have hblock := h.eq_settled_of_idle hp
    have hbusy : s.block.status.busy = false := by
      rw [hblock, (settled_inv h.inv).busy_iff_pending, settled_pending]; rfl
    have hstep := step_wait hi h.host (.inl hp)
    rw [hbusy, if_neg Bool.false_ne_true] at hstep
    exact ⟨_, .of_step hstep, rfl, otherHost_of_hostAgent rfl, settled_inv h.inv, .inl hblock⟩
  | some w =>
    obtain rfl := h.eq_of_pending hp
    have hbusy : s.block.status.busy = true := by rw [h.inv.busy_iff_pending, hp]; rfl
    obtain ⟨t, -, hrun, hinputs, hblock, hhost, -, -⟩ := Machine.run_wait hi h.host hp hbusy
    exact ⟨t, ⟨_, hrun⟩, hinputs, hhost, settled_inv h.inv, .inl (hblock.trans (settled_of_pending hp).symm)⟩

theorem Tracks.run_access (h : Tracks agent s b) {a : Access} (hi : s.inputs = .host agent (.access a) :: rest)
    (hwindow : b.pending = none ∨ a.writesOther = false) :
    ∃ t, RunsTo s t ∧ t.inputs = rest ∧ Tracks agent t (accessedBlock b a) := by
  obtain ⟨t, hrun, hinputs, hturn, ht⟩ := h.reach_turn
  rw [hi] at hinputs
  have hstep := step_of_hostTurn ⟨hinputs, ht.host, hturn⟩
  obtain ⟨hrest, hagent⟩ := accessStep_around (({ t with hostAgent := some agent } : State).takeAccess rest) a
  have hblock := accessStep_block (({ t with hostAgent := some agent } : State).takeAccess rest) a
  refine ⟨_, hrun.trans (.of_step hstep), hrest, otherHost_of_hostAgent hagent, accessedBlock_inv h.inv a, ?_⟩
  rw [hblock]
  change accessedBlock t.block a = _ ∨ accessedBlock t.block a = _
  obtain hp | ha := hwindow
  · exact .inl (by rw [ht.eq_of_idle hp])
  · obtain hb | hb := ht.block
    · exact .inl (by rw [hb])
    · exact .inr (by rw [hb, accessedBlock_settled ha])

theorem Tracks.run_end (h : Tracks agent s b) (hi : s.inputs = []) :
    ∃ t, RunsTo s t ∧ t.inputs = [] ∧ t.block = b.settled := by
  cases hp : s.block.pending with
  | none => exact ⟨s, .refl s, hi, h.eq_settled_of_idle hp⟩
  | some w =>
    obtain ⟨t, hrun, hinputs, hblock, -⟩ := h.complete hp (by simp [State.engineTurn, hi])
    exact ⟨t, hrun, hinputs.trans hi, hblock⟩

end

/-- Every run of inputs that keep to the busy window ends in `endBlock`, whatever LAT is (70_reset_and_hazards.md R250). -/
theorem Tracks.runsTo_endBlock {agent : Nat} (inputs : List Input) (window : Bool) {s : State} {b : Block} (h : Tracks agent s b)
    (hi : s.inputs = inputs) (hhost : oneHost agent inputs = true) (hkeep : keepsBusyWindow window inputs = true)
    (hwindow : window = false → b.pending = none) :
    ∃ t, RunsTo s t ∧ t.inputs = [] ∧ t.block = endBlock b inputs ∧ t.block.pending = none := by
  induction inputs generalizing window s b with
  | nil =>
    obtain ⟨t, hrun, hinputs, hblock⟩ := h.run_end hi
    exact ⟨t, hrun, hinputs, hblock, by rw [hblock, settled_pending]⟩
  | cons i rest ih =>
    have hhead : (_ && oneHost agent rest) = true := hhost
    obtain ⟨hagent, hrest⟩ := Bool.and_eq_true_iff.mp hhead
    match i with
    | .reset cut =>
      obtain ⟨t, hrun, hinputs, ht⟩ := h.run_reset hi
      obtain ⟨u, hrun', hu⟩ := ih false ht hinputs hrest hkeep fun _ => rfl
      exact ⟨u, hrun.trans hrun', hu⟩
    | .host other .wait =>
      obtain rfl : other = agent := beq_iff_eq.mp hagent
      obtain ⟨t, hrun, hinputs, ht⟩ := h.run_wait hi
      obtain ⟨u, hrun', hu⟩ := ih false ht hinputs hrest hkeep fun _ => settled_pending b
      exact ⟨u, hrun.trans hrun', hu⟩
    | .host other (.access a) =>
      obtain rfl : other = agent := beq_iff_eq.mp hagent
      cases window with
      | true =>
        obtain ⟨hother, hkeep⟩ : a.writesOther = false ∧ keepsBusyWindow true rest = true := by
          simpa [keepsBusyWindow] using hkeep
        obtain ⟨t, hrun, hinputs, ht⟩ := h.run_access hi (.inr hother)
        obtain ⟨u, hrun', hu⟩ := ih true ht hinputs hrest hkeep nofun
        exact ⟨u, hrun.trans hrun', hu⟩
      | false =>
        have hidle := hwindow rfl
        obtain ⟨t, hrun, hinputs, ht⟩ := h.run_access hi (.inl hidle)
        obtain ⟨u, hrun', hu⟩ := ih a.issues ht hinputs hrest hkeep (accessedBlock_idle hidle)
        exact ⟨u, hrun.trans hrun', hu⟩

/-- Settles O58: both runs end in the `endBlock` of the one block and the one program. -/
theorem endStateIndependentOfLatency : Obligations.EndStateIndependentOfLatency := by
  intro s s' agent hblock hinputs hagent hp hinv ho hhost hkeep
  have hs : Tracks agent s s.block := ⟨ho, hinv, .inl rfl⟩
  have hs' : Tracks agent s' s.block := ⟨by rwa [State.otherHost, ← hagent], hinv, .inl hblock.symm⟩
  obtain ⟨t, ⟨k, hrun⟩, hend, ht, hidle⟩ := hs.runsTo_endBlock s.inputs false rfl hhost hkeep fun _ => hp
  obtain ⟨t', ⟨k', hrun'⟩, hend', ht', -⟩ := hs'.runsTo_endBlock s.inputs false hinputs.symm hhost hkeep fun _ => hp
  exact ⟨k, k', t, t', hrun, hrun', hend, hend', hidle, ht.trans ht'.symm⟩

end Sys2Proof.Machine
end
